-- ==== Sys2Proof/Word.lean ====
section
/-! DEFINITION. The word types of the AES256-CTR core (spec/00_scope.md R5, R6). -/

namespace Sys2Proof

/-- One byte of memory or of a register. -/
abbrev Byte := BitVec 8

/-- A 128-bit block: a round key, a counter, a cipher state, one lane (`BLK`, R5). -/
abbrev Block := BitVec 128

/-- An address field of a descriptor: 64 bits whatever `AW` is (spec/30_encoding.md R95). -/
abbrev Addr := BitVec 64

/-- A block count (`NBLK_BITS`, R5). -/
abbrev Count := BitVec 32

/-- A command descriptor, Format C (spec/30_encoding.md R91). -/
abbrev Descriptor := BitVec 256

/-- A datapath control word, Format U (spec/30_encoding.md R96). -/
abbrev CtrlWord := BitVec 16

/-- A round-key index as the control word and `RC` carry it. -/
abbrev KeyIndex := BitVec 4

end Sys2Proof
end

