-- ==== Sys2Proof/Syntax.lean ====
section
/-! DEFINITION. The instructions: one constructor for each of the 23 rows of spec/opcode_table.json. Three
are commands the host issues (Format C), twenty are datapath operations the sequencer issues (Format U),
spec/30_encoding.md R90, R92, R97. -/

namespace Sys2Proof

/-- The commands and the datapath operations. The operands of a command are its descriptor's fields in
the order of spec/30_encoding.md R91; `r` is the round-key index of spec/30_encoding.md R96. -/
inductive Instr where
  /-- `ENC1`: encrypt one block (R150). It ignores `nblk` (R93). -/
  | enc1 (nblk : Count) (ks inp out : Addr)
  /-- `GENSEQ`: the sequential keystream generator (R170). -/
  | genseq (nblk : Count) (ks inp out : Addr)
  /-- `GENPAR`: the four-way parallel keystream generator (R180). -/
  | genpar (nblk : Count) (ks inp out : Addr)
  /-- `NOP`: no datapath action (R214). -/
  | nop
  /-- `LDK r`: load round key `r` (R151). -/
  | ldk (r : KeyIndex)
  /-- `LDC`: load the counter or input block (R152). -/
  | ldc
  /-- `BSW`: network-order form of the counter into the state (R153). -/
  | bsw
  /-- `ARK`: exclusive or with round key 0 (R154). -/
  | ark
  /-- `RND r`: one non-final round (R155). -/
  | rnd (r : KeyIndex)
  /-- `FIN`: the final round (R156). -/
  | fin
  /-- `STB`: store one block (R157). -/
  | stb
  /-- `INC`: increment the low 32 bits of the counter (R171). -/
  | inc
  /-- `BCK r`: broadcast round key `r` (R181). -/
  | bck (r : KeyIndex)
  /-- `BCC`: broadcast the counter (R182). -/
  | bcc
  /-- `AOF`: add the lane offsets 0, 1, 2, 3 (R183). -/
  | aof
  /-- `BSW4`: network-order form of all four lanes (R184). -/
  | bsw4
  /-- `ARK4`: exclusive or with round key 0 in all lanes (R185). -/
  | ark4
  /-- `RND4 r`: one non-final round in all lanes (R186). -/
  | rnd4 (r : KeyIndex)
  /-- `FIN4`: the final round in all lanes (R187). -/
  | fin4
  /-- `STB4`: store four blocks (R188). -/
  | stb4
  /-- `INC4`: advance all lanes' counters by four (R189). -/
  | inc4
  /-- `XL0`: hand lane 0 of the counters to the narrow unit (R190). -/
  | xl0
  /-- `CLR`: clear every vector register (R200). -/
  | clr
  deriving DecidableEq, Repr

end Sys2Proof
end

