-- ==== Sys2Proof/WellFormed.lean ====
section
/-! DEFINITION. Which instructions are well formed: the round-key index of a datapath operation lies in the
column `R` of spec/30_encoding.md R97. Every other operand admits all its values. -/

namespace Sys2Proof

/-- The `R` column of R97 for `LDK` and `BCK`: 0..14. -/
def KeyIndex.isKey (r : KeyIndex) : Bool := r.toNat ≤ 14

/-- The `R` column of R97 for `RND` and `RND4`: 1..13. -/
def KeyIndex.isMiddle (r : KeyIndex) : Bool := 1 ≤ r.toNat && r.toNat ≤ 13

/-- Well-formedness of an instruction (R97, R98). -/
def Instr.wf : Instr → Bool
  | .enc1 _ _ _ _   => true
  | .genseq _ _ _ _ => true
  | .genpar _ _ _ _ => true
  | .nop            => true
  | .ldk r          => KeyIndex.isKey r
  | .ldc            => true
  | .bsw            => true
  | .ark            => true
  | .rnd r          => KeyIndex.isMiddle r
  | .fin            => true
  | .stb            => true
  | .inc            => true
  | .bck r          => KeyIndex.isKey r
  | .bcc            => true
  | .aof            => true
  | .bsw4           => true
  | .ark4           => true
  | .rnd4 r         => KeyIndex.isMiddle r
  | .fin4           => true
  | .stb4           => true
  | .inc4           => true
  | .xl0            => true
  | .clr            => true

/-- Whether an instruction is a command, Format C (R90). -/
def Instr.isCommand : Instr → Bool
  | .enc1 _ _ _ _   => true
  | .genseq _ _ _ _ => true
  | .genpar _ _ _ _ => true
  | .nop | .ldk _ | .ldc | .bsw | .ark | .rnd _ | .fin | .stb | .inc => false
  | .bck _ | .bcc | .aof | .bsw4 | .ark4 | .rnd4 _ | .fin4 | .stb4 | .inc4 | .xl0 | .clr => false

end Sys2Proof
end

