-- ==== Sys2Proof/Decode.lean ====
section
/-! DEFINITION. Decoding of descriptors (spec/30_encoding.md R91 to R95, R104) and of control words (R96 to
R98), total, each refusal by name; then the encoder, written from the same tables, the descriptor image
(R105), the assembler form (R101) and the pseudo-command `GEN` (R102). -/

namespace Sys2Proof

/-- Why an encoding is no instruction. -/
inductive DecodeError where
  /-- `RSV0` (`cmd[31:8]`) is not zero: illegal, `F_OPC` (R94, R241). -/
  | reservedBits
  /-- `OPC` (`cmd[7:0]`) is not 1, 2 or 3: illegal, `F_OPC` (R94, R241). -/
  | reservedOpcode
  /-- `u[15:12]` is not zero (R96). -/
  | controlHighBits
  /-- `UOP` is not in the table of R97 (R98). -/
  | reservedOperation
  /-- `R` is outside the column of R97 for this `UOP` (R98). -/
  | reservedKeyIndex
  /-- The byte string is neither 32 bytes (Format C) nor 2 bytes (Format U), R100. -/
  | badLength
  deriving DecidableEq, Repr

/-- An encoded instruction: one of the two fixed-length formats (R90, R100). -/
inductive Code where
  | command (cmd : Descriptor)
  | control (u : CtrlWord)
  deriving DecidableEq, Repr

/-! ## Fields -/

/-- `OPC`, bits 7:0 of a descriptor (R91). -/
def Descriptor.opc (cmd : Descriptor) : BitVec 8 := cmd.extractLsb' 0 8
/-- `RSV0`, bits 31:8 (R91). -/
def Descriptor.rsv0 (cmd : Descriptor) : BitVec 24 := cmd.extractLsb' 8 24
/-- `NBLK`, bits 63:32 (R91). -/
def Descriptor.nblk (cmd : Descriptor) : Count := cmd.extractLsb' 32 32
/-- `KS`, bits 127:64 (R91). -/
def Descriptor.ks (cmd : Descriptor) : Addr := cmd.extractLsb' 64 64
/-- `IN`, bits 191:128 (R91). -/
def Descriptor.inp (cmd : Descriptor) : Addr := cmd.extractLsb' 128 64
/-- `OUT`, bits 255:192 (R91). -/
def Descriptor.out (cmd : Descriptor) : Addr := cmd.extractLsb' 192 64

/-- `UOP`, bits 7:0 of a control word (R96). -/
def CtrlWord.uop (u : CtrlWord) : BitVec 8 := u.extractLsb' 0 8
/-- `R`, bits 11:8 (R96). -/
def CtrlWord.r (u : CtrlWord) : KeyIndex := u.extractLsb' 8 4
/-- Bits 15:12, zero in every issued word (R96). -/
def CtrlWord.high (u : CtrlWord) : BitVec 4 := u.extractLsb' 12 4

/-! ## Decoding -/

/-- Decoding of a descriptor: case (1) of R104, or the command its fields spell. Whether the part can run
it (`F_CAP`) and may touch its buffers (`F_RANGE`) is asked by the command's meaning. -/
def decodeDescriptor (cmd : Descriptor) : Except DecodeError Instr :=
  if Descriptor.rsv0 cmd ≠ 0#24 then .error .reservedBits
  else if Descriptor.opc cmd = 0x01#8 then
    .ok (.enc1 (Descriptor.nblk cmd) (Descriptor.ks cmd) (Descriptor.inp cmd) (Descriptor.out cmd))
  else if Descriptor.opc cmd = 0x02#8 then
    .ok (.genseq (Descriptor.nblk cmd) (Descriptor.ks cmd) (Descriptor.inp cmd) (Descriptor.out cmd))
  else if Descriptor.opc cmd = 0x03#8 then
    .ok (.genpar (Descriptor.nblk cmd) (Descriptor.ks cmd) (Descriptor.inp cmd) (Descriptor.out cmd))
  else .error .reservedOpcode

/-- A control word that takes no key index: `R` is fixed (0, or 14 for `FIN` and `FIN4`), R97. -/
def fixedKeyIndex (want r : KeyIndex) (i : Instr) : Except DecodeError Instr :=
  if r = want then .ok i else .error .reservedKeyIndex

/-- A control word whose key index is an operand: it must be in the column of R97. -/
def operandKeyIndex (i : Instr) : Except DecodeError Instr :=
  if i.wf then .ok i else .error .reservedKeyIndex

/-- Decoding of a control word: the table of R97; everything else is reserved (R98). -/
def decodeControl (u : CtrlWord) : Except DecodeError Instr :=
  if CtrlWord.high u ≠ 0#4 then .error .controlHighBits
  else match (CtrlWord.uop u).toNat with
    | 0x00 => fixedKeyIndex 0 (CtrlWord.r u) .nop
    | 0x10 => operandKeyIndex (.ldk (CtrlWord.r u))
    | 0x11 => fixedKeyIndex 0 (CtrlWord.r u) .ldc
    | 0x12 => fixedKeyIndex 0 (CtrlWord.r u) .bsw
    | 0x13 => fixedKeyIndex 0 (CtrlWord.r u) .ark
    | 0x14 => operandKeyIndex (.rnd (CtrlWord.r u))
    | 0x15 => fixedKeyIndex 14 (CtrlWord.r u) .fin
    | 0x16 => fixedKeyIndex 0 (CtrlWord.r u) .stb
    | 0x17 => fixedKeyIndex 0 (CtrlWord.r u) .inc
    | 0x20 => operandKeyIndex (.bck (CtrlWord.r u))
    | 0x21 => fixedKeyIndex 0 (CtrlWord.r u) .bcc
    | 0x22 => fixedKeyIndex 0 (CtrlWord.r u) .aof
    | 0x23 => fixedKeyIndex 0 (CtrlWord.r u) .bsw4
    | 0x24 => fixedKeyIndex 0 (CtrlWord.r u) .ark4
    | 0x25 => operandKeyIndex (.rnd4 (CtrlWord.r u))
    | 0x26 => fixedKeyIndex 14 (CtrlWord.r u) .fin4
    | 0x27 => fixedKeyIndex 0 (CtrlWord.r u) .stb4
    | 0x28 => fixedKeyIndex 0 (CtrlWord.r u) .inc4
    | 0x29 => fixedKeyIndex 0 (CtrlWord.r u) .xl0
    | 0x3F => fixedKeyIndex 0 (CtrlWord.r u) .clr
    | _    => .error .reservedOperation

/-- Decoding of either format. -/
def decode : Code → Except DecodeError Instr
  | .command cmd => decodeDescriptor cmd
  | .control u   => decodeControl u

/-- The value of a byte string, least significant byte first (R105). -/
def leValue : List Byte → Nat
  | []      => 0
  | b :: bs => b.toNat + 256 * leValue bs

/-- The `k` bytes of a number, least significant byte first (R105). -/
def leBytes : Nat → Nat → List Byte
  | 0, _     => []
  | k + 1, w => BitVec.ofNat 8 w :: leBytes k (w / 256)

/-- Which format a byte string is, by its length: 32 bytes are a descriptor image (R105), 2 bytes a control
word. DESIGN CHOICE (assumption 16): the core itself fetches neither from memory. -/
def codeOfBytes (bs : List Byte) : Except DecodeError Code :=
  if bs.length = 32 then .ok (.command (BitVec.ofNat 256 (leValue bs)))
  else if bs.length = 2 then .ok (.control (BitVec.ofNat 16 (leValue bs)))
  else .error .badLength

/-- Decoding, total on any bytes. -/
def decodeBytes (bs : List Byte) : Except DecodeError Instr :=
  match codeOfBytes bs with
  | .ok c    => decode c
  | .error e => .error e

/-- How many bytes an instruction of a table row of `nbits` bits has: 2 for a control word, 32 for a
descriptor (R100). -/
def formatBytes (nbits : Nat) : Nat := if nbits ≤ 16 then 2 else 32

/-- The instruction the decoder reads from the bits of one row of spec/opcode_table.json, numbered with bit
0 the least significant of the first word; the bits above `nbits` are zero. -/
def decodeTableWord (nbits w : Nat) : Option Instr :=
  match decodeBytes (leBytes (formatBytes nbits) (w % 2 ^ nbits)) with
  | .ok i    => some i
  | .error _ => none

/-! ## Encoding -/

/-- A descriptor from its fields (R91), `RSV0` zero. -/
def descriptor (opc : BitVec 8) (nblk : Count) (ks inp out : Addr) : Descriptor :=
  out ++ inp ++ ks ++ nblk ++ 0#24 ++ opc

/-- A control word from its fields (R96): `(R << 8) | UOP`. -/
def controlWord (r : KeyIndex) (uop : BitVec 8) : CtrlWord := 0#4 ++ r ++ uop

/-- The code of an instruction: the opcodes of R92 and the operation codes of R97. -/
def encode : Instr → Code
  | .enc1 nblk ks inp out   => .command (descriptor 0x01 nblk ks inp out)
  | .genseq nblk ks inp out => .command (descriptor 0x02 nblk ks inp out)
  | .genpar nblk ks inp out => .command (descriptor 0x03 nblk ks inp out)
  | .nop    => .control (controlWord 0 0x00)
  | .ldk r  => .control (controlWord r 0x10)
  | .ldc    => .control (controlWord 0 0x11)
  | .bsw    => .control (controlWord 0 0x12)
  | .ark    => .control (controlWord 0 0x13)
  | .rnd r  => .control (controlWord r 0x14)
  | .fin    => .control (controlWord 14 0x15)
  | .stb    => .control (controlWord 0 0x16)
  | .inc    => .control (controlWord 0 0x17)
  | .bck r  => .control (controlWord r 0x20)
  | .bcc    => .control (controlWord 0 0x21)
  | .aof    => .control (controlWord 0 0x22)
  | .bsw4   => .control (controlWord 0 0x23)
  | .ark4   => .control (controlWord 0 0x24)
  | .rnd4 r => .control (controlWord r 0x25)
  | .fin4   => .control (controlWord 14 0x26)
  | .stb4   => .control (controlWord 0 0x27)
  | .inc4   => .control (controlWord 0 0x28)
  | .xl0    => .control (controlWord 0 0x29)
  | .clr    => .control (controlWord 0 0x3F)

/-- The image of a code: its bytes, least significant first (R105). -/
def Code.image : Code → List Byte
  | .command cmd => leBytes 32 cmd.toNat
  | .control u   => leBytes 2 u.toNat

/-! ## Assembler form and pseudo-command -/

/-- The mnemonic of an instruction, as spec/opcode_table.json spells it. -/
def Instr.mnemonic : Instr → String
  | .enc1 _ _ _ _   => "ENC1"
  | .genseq _ _ _ _ => "GENSEQ"
  | .genpar _ _ _ _ => "GENPAR"
  | .nop    => "NOP"
  | .ldk _  => "LDK"
  | .ldc    => "LDC"
  | .bsw    => "BSW"
  | .ark    => "ARK"
  | .rnd _  => "RND"
  | .fin    => "FIN"
  | .stb    => "STB"
  | .inc    => "INC"
  | .bck _  => "BCK"
  | .bcc    => "BCC"
  | .aof    => "AOF"
  | .bsw4   => "BSW4"
  | .ark4   => "ARK4"
  | .rnd4 _ => "RND4"
  | .fin4   => "FIN4"
  | .stb4   => "STB4"
  | .inc4   => "INC4"
  | .xl0    => "XL0"
  | .clr    => "CLR"

/-- The operands of an instruction in assembler order: key schedule, input, output, count (R101). -/
def Instr.asmOperands : Instr → List Nat
  | .enc1 _ ks inp out      => [ks.toNat, inp.toNat, out.toNat]
  | .genseq nblk ks inp out => [ks.toNat, inp.toNat, out.toNat, nblk.toNat]
  | .genpar nblk ks inp out => [ks.toNat, inp.toNat, out.toNat, nblk.toNat]
  | .ldk r | .rnd r | .bck r | .rnd4 r => [r.toNat]
  | .nop | .ldc | .bsw | .ark | .fin | .stb | .inc => []
  | .bcc | .aof | .bsw4 | .ark4 | .fin4 | .stb4 | .inc4 | .xl0 | .clr => []

/-- The assembler form of an instruction (R101), numbers in decimal. -/
def Instr.asm (i : Instr) : String :=
  match i.asmOperands with
  | []      => i.mnemonic
  | o :: os => os.foldl (fun t n => t ++ ", " ++ toString n) (i.mnemonic ++ " " ++ toString o)

/-- The pseudo-command `GEN ks, ctr, out, n`: what the host's software issues after it has read `CAP`
(R102; spec/45_sequencer_and_host.md R218). -/
def Instr.gen (cap : BitVec 32) (nblk : Count) (ks inp out : Addr) : Instr :=
  if cap.getLsbD 0 then .genpar nblk ks inp out else .genseq nblk ks inp out

end Sys2Proof
end

