-- ==== Sys2Proof/Config.lean ====
section
/-! DEFINITION. The open parameters of the core (spec/00_scope.md R5; spec/92_eei_decisions.md, OPEN
parameters in one place): `HAS_WIDE`, `AW` and `Admit`. They are plain data, carried by the state and
changed by no step, so that every statement over states is a statement for all their values. -/

namespace Sys2Proof

/-- The kind of access `Admit` is asked about (spec/20_memory.md R70). -/
inductive AccessKind where
  | read
  | write
  deriving DecidableEq, Repr

/-- A range of plain memory the platform lets the core reach (spec/20_memory.md R69, R70). -/
structure Region where
  base     : Nat
  size     : Nat
  readable : Bool
  writable : Bool
  deriving DecidableEq, Repr

/-- What is fixed for one part in one platform. -/
structure Part where
  /-- `HAS_WIDE`: whether the wide unit exists. -/
  hasWide : Bool
  /-- `AW`: the address width, 1 to 64. -/
  aw      : Nat
  /-- `Admit`, as the list of the ranges it admits (assumption 4). -/
  ranges  : List Region
  deriving DecidableEq, Repr

/-- The part that `State.reset` describes: the wide unit present, and the defaults the spec names for the
other two, `AW` = 64 and every range below `2^AW` admitted. DESIGN CHOICE (assumption 3), unsafe where a
claim rests on these values. -/
def Config.part : Part where
  hasWide := true
  aw      := 64
  ranges  := [{ base := 0, size := 0x10000000000000000, readable := true, writable := true }]

end Sys2Proof
end

