-- ==== Sys2Proof/Machine/State.lean ====
section
/-! DEFINITION. The state of the core (spec/10_state.md R20 to R40), the reasons a step can stop, and the
state after reset (R37). -/

namespace Sys2Proof.Machine

/-! ## Vector registers -/

/-- A 512-bit register as its four 128-bit lanes, lane 0 least significant (spec/00_scope.md R9). -/
structure Lanes where
  lane0 : Block
  lane1 : Block
  lane2 : Block
  lane3 : Block
  deriving DecidableEq, Repr

/-- The narrow bank (R20): `S`, `CTR`, `RK[0..14]`. -/
structure NarrowBank where
  /-- `S`, the cipher state (R21). -/
  s   : Block
  /-- `CTR`, the running counter in host order (R22). -/
  ctr : Block
  /-- `RK[0..14]`, the round keys (R23). -/
  rk  : Vector Block 15
  deriving DecidableEq, Repr

/-- The wide bank (R24): `SV`, `CTRV`, `WK[0..14]`. -/
structure WideBank where
  /-- `SV`, four cipher states (R25). -/
  sv   : Lanes
  /-- `CTRV`, four host-order counters (R26). -/
  ctrv : Lanes
  /-- `WK[0..14]`, the broadcast round keys (R27). -/
  wk   : Vector Lanes 15
  deriving DecidableEq, Repr

/-- Four zero lanes. -/
def Lanes.zero : Lanes := { lane0 := 0, lane1 := 0, lane2 := 0, lane3 := 0 }

/-- The narrow bank with every register zero: what reset and `CLR` leave (R37; spec/44_secret_hygiene.md R200). -/
def NarrowBank.zero : NarrowBank := { s := 0, ctr := 0, rk := Vector.replicate 15 0 }

/-- The wide bank with every register zero. -/
def WideBank.zero : WideBank := { sv := Lanes.zero, ctrv := Lanes.zero, wk := Vector.replicate 15 Lanes.zero }

/-! ## Sequencer and command latch -/

/-- The positions of the micro-program, the values `UPC` takes (spec/45_sequencer_and_host.md R213). The
codes 0x0C to 0x0F are unused and have no name (assumption 13). -/
inductive Pos where
  | idle | kld | cld | nsw | nchk | nark | nrnd | nfin | nst | ninc | nrsw | nadv
  | wbk | wbc | wof | wsw | wchk | wark | wrnd | wfin | wst | winc | wrsw | wadv
  | hxl | hsw | clrs | done
  deriving DecidableEq, Repr

/-- The command latch (R30). Its three addresses are `AW` bits wide; the fields have the 64 bits of the largest
`AW`, and what is above bit `AW - 1` is zero: acceptance latches no such bit (assumption 21). -/
structure Latch where
  /-- `OPL`, the opcode. -/
  opl  : BitVec 8
  /-- `NBL`, the block count. -/
  nbl  : Count
  /-- `KSL`, the address of the round-key schedule. -/
  ksl  : Addr
  /-- `INL`, the address of the counter or input block. -/
  inl  : Addr
  /-- `OUTL`, the address of the keystream buffer. -/
  outl : Addr
  deriving DecidableEq, Repr

/-- The faults the hardware records in `STATUS.ERR` (spec/60_exceptions.md R240). Taking one is a next
state, not a stop. -/
inductive CmdFault where
  /-- Code 1, reserved opcode or `RSV0 != 0` (R241). -/
  | fOpc
  /-- Code 2, `GENPAR` on a part without the wide unit (R242). -/
  | fCap
  /-- Code 3, a buffer fails the range check (R243). -/
  | fRange
  deriving DecidableEq, Repr

/-! ## Memory and host -/

/-- The host's memory (spec/20_memory.md R60): the bytes that differ from `unlistedByte`, by rising address. -/
abbrev Memory := List Host.Cell

/-- What a byte that nothing has written reads as. DESIGN CHOICE (assumption 1), unsafe: the spec gives
memory no contents. -/
def unlistedByte : Byte := 0

/-- A move of the host (spec/45_sequencer_and_host.md R219). -/
inductive HostMove where
  /-- Hold `cmd_valid` with this descriptor until the core takes it (R211). -/
  | offer (cmd : Descriptor)
  /-- Store one byte of memory. -/
  | store (addr : Addr) (b : Byte)
  /-- Load one byte of memory. -/
  | load (addr : Addr)
  /-- Read `STATUS` (R217). -/
  | pollStatus
  /-- Read `CAP` (R217, R218). -/
  | probeCap
  /-- Assert `reset` (spec/70_reset_and_hazards.md R270). -/
  | reset
  /-- Let the core move once. -/
  | turn
  /-- Let the core move until it is ready and no offer is pending (R278). -/
  | awaitReady
  deriving DecidableEq, Repr

/-! ## The state -/

/-- The whole state of one core, the host's memory, and its inputs. -/
structure State where
  /-- The narrow bank (R20). -/
  narrow  : NarrowBank
  /-- The wide bank; present if and only if `HAS_WIDE` (R24). -/
  wide    : Option WideBank
  /-- `UPC`, the sequencer's position (R29). -/
  upc     : Pos
  /-- `RC`, the round-key index counter (R29). -/
  rc      : KeyIndex
  /-- `BI`, the number of blocks stored by the running command (R29). -/
  bi      : Count
  /-- The command latch (R30). -/
  latch   : Latch
  /-- `STATUS.DONE` (R32). -/
  done    : Bool
  /-- `STATUS.ERR` (R32). -/
  err     : Option CmdFault
  /-- `STATUS.FSTICKY` (R32). -/
  fsticky : Bool
  /-- The host's memory (spec/20_memory.md R60). -/
  mem     : Memory
  /-- The command port: the descriptor the host holds with `cmd_valid`, if any (R34, R40). -/
  port    : Option Descriptor
  /-- The moves the host has still to make; empty means that only the core moves (assumption 7). -/
  script  : List HostMove
  /-- `AW`, the address width (spec/00_scope.md R5). -/
  aw      : Nat
  /-- `Admit`, the platform's admitted ranges (spec/00_scope.md R5). -/
  ranges  : List Region
  deriving DecidableEq, Repr

/-! ## Stops -/

/-- A fault that stops the machine. -/
inductive Fault where
  /-- An access outside `[0, 2^AW)`, the addresses that exist (spec/20_memory.md R60). Raised by `LDK`, `LDC`,
  `STB`, `STB4` and by host stores and loads. Safe: no accepted command meets it (R70). -/
  | noSuchAddress
  deriving DecidableEq, Repr

/-- A refusal: the model gives no meaning. -/
inductive Refusal where
  /-- An instruction whose meaning is not written yet. Safe. -/
  | notModelled (mnemonic : String)
  /-- A control word, or a key index, outside spec/30_encoding.md R97; R98 forbids to give it a meaning.
  Raised by the sequencer's decode and by `LDK`, `RND`, `BCK`, `RND4`. Safe: never issued. -/
  | reservedControlWord
  /-- A wide operation on a part without the wide bank (spec/10_state.md R24). Raised by every operation of
  the wide unit. Safe: never issued there (spec/60_exceptions.md R242). -/
  | noWideUnit
  /-- An access to memory that is not admitted by the platform, which need not be plain memory
  (spec/20_memory.md R69, R70). Raised by `LDK`, `LDC`, `STB`, `STB4`. Safe: no accepted command meets it. -/
  | notAdmitted
  /-- The host stores to a buffer of the running command, or loads from its keystream buffer
  (spec/20_memory.md R73; spec/93_implementation_defined.md U4, U12: refuse). Raised by host moves. Safe. -/
  | bufferInUse
  deriving DecidableEq, Repr

/-! ## Reset -/

/-- The command latch after reset. The spec leaves it unspecified (R37). DESIGN CHOICE (assumption 2), unsafe. -/
def Latch.reset : Latch := { opl := 0, nbl := 0, ksl := 0, inl := 0, outl := 0 }

/-- The state of a part right after reset (R37), memory with nothing listed and no host move pending. -/
def State.resetOf (p : Part) : State where
  narrow  := NarrowBank.zero
  wide    := if p.hasWide then some WideBank.zero else none
  upc     := .idle
  rc      := 0
  bi      := 0
  latch   := Latch.reset
  done    := false
  err     := none
  fsticky := false
  mem     := []
  port    := none
  script  := []
  aw      := p.aw
  ranges  := p.ranges

/-- The state right after reset of the part `Config.part`. -/
def State.reset : State := State.resetOf Config.part

end Sys2Proof.Machine
end

