-- ==== Sys2Proof/Machine/Operands.lean ====
section
/-! DEFINITION. Operand forms: bytes of a block, the byte reversal, the counter addition, lanes, key indices
and effective addresses (spec/00_scope.md R6 to R9; spec/40_aes_round_functions.md R130, R131, R134;
spec/20_memory.md R70). All are pure functions. -/

namespace Sys2Proof.Machine

/-! ## Bytes of a block -/

/-- `byte(v, i)`: bits `8i+7:8i` (spec/00_scope.md R6). -/
def byte (v : Block) (i : Nat) : Byte := v.extractLsb' (8 * i) 8

/-- The block whose byte `i` is `f i`: `Val(f 0, ..., f 15)` (spec/00_scope.md R7). -/
def ofBytes (f : Nat → Byte) : Block :=
  f 15 ++ f 14 ++ f 13 ++ f 12 ++ f 11 ++ f 10 ++ f 9 ++ f 8 ++
    f 7 ++ f 6 ++ f 5 ++ f 4 ++ f 3 ++ f 2 ++ f 1 ++ f 0

/-- `Bytes(v)`: the bytes of a block, byte 0 first (spec/00_scope.md R7). -/
def bytes (v : Block) : List Byte := (List.range 16).map (byte v)

/-- `Rev16(v)`: all 16 bytes reversed (spec/40_aes_round_functions.md R130). -/
def rev16 (v : Block) : Block := ofBytes fun i => byte v (15 - i)

/-! ## Counter addition -/

/-- `v[31:0]`, the low 32 bits of a counter (spec/00_scope.md R6). -/
def low32 (v : Block) : BitVec 32 := v.extractLsb' 0 32

/-- `v[127:32]`, the bits increment arithmetic never changes. -/
def high96 (v : Block) : BitVec 96 := v.extractLsb' 32 96

/-- `Add32Lo(v, k)`: add to the low 32 bits modulo 2^32, no carry upward (spec/40_aes_round_functions.md R131). -/
def add32Lo (v : Block) (k : BitVec 32) : Block := high96 v ++ (low32 v + k)

/-! ## Lanes -/

/-- `W.lane[j]` (spec/00_scope.md R9). -/
def Lanes.lane (w : Lanes) (j : Fin 4) : Block :=
  match j with
  | 0 => w.lane0
  | 1 => w.lane1
  | 2 => w.lane2
  | 3 => w.lane3

/-- The 512-bit value of a wide register, lane 0 least significant (spec/00_scope.md R9). -/
def Lanes.toBits (w : Lanes) : BitVec 512 := w.lane3 ++ w.lane2 ++ w.lane1 ++ w.lane0

/-- The same block in all four lanes. -/
def Lanes.broadcast (v : Block) : Lanes := { lane0 := v, lane1 := v, lane2 := v, lane3 := v }

/-- `Map4(f)` with the lane's number given to `f` (spec/40_aes_round_functions.md R134). -/
def Lanes.mapWithLane (f : Nat → Block → Block) (w : Lanes) : Lanes where
  lane0 := f 0 w.lane0
  lane1 := f 1 w.lane1
  lane2 := f 2 w.lane2
  lane3 := f 3 w.lane3

/-- `Map4(f)(W)` (spec/40_aes_round_functions.md R134). -/
def Lanes.map4 (f : Block → Block) (w : Lanes) : Lanes := Lanes.mapWithLane (fun _ v => f v) w

/-- `Map4(f)(W, X)` (spec/40_aes_round_functions.md R134). -/
def Lanes.zip4 (f : Block → Block → Block) (w x : Lanes) : Lanes where
  lane0 := f w.lane0 x.lane0
  lane1 := f w.lane1 x.lane1
  lane2 := f w.lane2 x.lane2
  lane3 := f w.lane3 x.lane3

/-! ## Key indices -/

/-- The register number a key index names: 0..14 are `RK` and `WK` registers, 15 names none
(spec/10_state.md R20, R24). -/
def keyNumber? (r : KeyIndex) : Option (Fin 15) :=
  if h : r.toNat < 15 then some ⟨r.toNat, h⟩ else none

/-- The register number of a middle round, 1..13 (spec/30_encoding.md R97). -/
def middleNumber? (r : KeyIndex) : Option (Fin 15) :=
  if h : 1 ≤ r.toNat ∧ r.toNat ≤ 13 then some ⟨r.toNat, by omega⟩ else none

/-! ## The width of a latched address -/

/-- An address as a register of `AW` bits holds it (spec/10_state.md R30). -/
def fitAddr (aw : Nat) (a : Addr) : Addr := BitVec.ofNat 64 (a.toNat % 2 ^ aw)

/-- The command latch with each address in its `AW` bits (spec/10_state.md R30; assumption 21). -/
def Latch.fit (aw : Nat) (l : Latch) : Latch :=
  { l with ksl := fitAddr aw l.ksl, inl := fitAddr aw l.inl, outl := fitAddr aw l.outl }

/-! ## Effective addresses, computed without wrap (spec/20_memory.md R70) -/

/-- `KSL + 16r`. -/
def State.keyAddr (s : State) (r : Fin 15) : Nat := s.latch.ksl.toNat + 16 * r.val

/-- `INL`. -/
def State.inputAddr (s : State) : Nat := s.latch.inl.toNat

/-- `OUTL + 16·BI`. -/
def State.blockAddr (s : State) : Nat := s.latch.outl.toNat + 16 * s.bi.toNat

end Sys2Proof.Machine
end

