-- ==== Sys2Proof/Machine/Cipher.lean ====
section
/-! DEFINITION. The functions of the cipher pipeline (spec/40_aes_round_functions.md R120 to R129, R132):
arithmetic in GF(2^8), the four steps, the rounds and AES-256. All are pure functions; none writes a flag
or raises an exception. -/

namespace Sys2Proof.Machine

/-! ## Arithmetic in GF(2^8) -/

/-- `xtime(b)`: multiply by `x` modulo 0x11B (R121). -/
def xtime (b : Byte) : Byte := (b <<< 1) ^^^ (if b.getLsbD 7 then 0x1B else 0x00)

/-- The loop of `gmul` over the `n` remaining bits of `b`, lowest first, from the sum `r` (R122). -/
def gmulLoop : Nat → Byte → Byte → Byte → Byte
  | 0, r, _, _     => r
  | n + 1, r, a, b => gmulLoop n (if b.getLsbD 0 then r ^^^ a else r) (xtime a) (b >>> 1)

/-- `gmul(a, b)`: the product in GF(2^8) (R122). -/
def gmul (a b : Byte) : Byte := gmulLoop 8 0 a b

/-! ## The substitution table (R123), row = high nibble, column = low nibble -/

/-- Row `0x`. -/
def sboxRow0 : List Byte :=
  [0x63, 0x7c, 0x77, 0x7b, 0xf2, 0x6b, 0x6f, 0xc5,
   0x30, 0x01, 0x67, 0x2b, 0xfe, 0xd7, 0xab, 0x76]

/-- Row `1x`. -/
def sboxRow1 : List Byte :=
  [0xca, 0x82, 0xc9, 0x7d, 0xfa, 0x59, 0x47, 0xf0,
   0xad, 0xd4, 0xa2, 0xaf, 0x9c, 0xa4, 0x72, 0xc0]

/-- Row `2x`. -/
def sboxRow2 : List Byte :=
  [0xb7, 0xfd, 0x93, 0x26, 0x36, 0x3f, 0xf7, 0xcc,
   0x34, 0xa5, 0xe5, 0xf1, 0x71, 0xd8, 0x31, 0x15]

/-- Row `3x`. -/
def sboxRow3 : List Byte :=
  [0x04, 0xc7, 0x23, 0xc3, 0x18, 0x96, 0x05, 0x9a,
   0x07, 0x12, 0x80, 0xe2, 0xeb, 0x27, 0xb2, 0x75]

/-- Row `4x`. -/
def sboxRow4 : List Byte :=
  [0x09, 0x83, 0x2c, 0x1a, 0x1b, 0x6e, 0x5a, 0xa0,
   0x52, 0x3b, 0xd6, 0xb3, 0x29, 0xe3, 0x2f, 0x84]

/-- Row `5x`. -/
def sboxRow5 : List Byte :=
  [0x53, 0xd1, 0x00, 0xed, 0x20, 0xfc, 0xb1, 0x5b,
   0x6a, 0xcb, 0xbe, 0x39, 0x4a, 0x4c, 0x58, 0xcf]

/-- Row `6x`. -/
def sboxRow6 : List Byte :=
  [0xd0, 0xef, 0xaa, 0xfb, 0x43, 0x4d, 0x33, 0x85,
   0x45, 0xf9, 0x02, 0x7f, 0x50, 0x3c, 0x9f, 0xa8]

/-- Row `7x`. -/
def sboxRow7 : List Byte :=
  [0x51, 0xa3, 0x40, 0x8f, 0x92, 0x9d, 0x38, 0xf5,
   0xbc, 0xb6, 0xda, 0x21, 0x10, 0xff, 0xf3, 0xd2]

/-- Row `8x`. -/
def sboxRow8 : List Byte :=
  [0xcd, 0x0c, 0x13, 0xec, 0x5f, 0x97, 0x44, 0x17,
   0xc4, 0xa7, 0x7e, 0x3d, 0x64, 0x5d, 0x19, 0x73]

/-- Row `9x`. -/
def sboxRow9 : List Byte :=
  [0x60, 0x81, 0x4f, 0xdc, 0x22, 0x2a, 0x90, 0x88,
   0x46, 0xee, 0xb8, 0x14, 0xde, 0x5e, 0x0b, 0xdb]

/-- Row `ax`. -/
def sboxRowA : List Byte :=
  [0xe0, 0x32, 0x3a, 0x0a, 0x49, 0x06, 0x24, 0x5c,
   0xc2, 0xd3, 0xac, 0x62, 0x91, 0x95, 0xe4, 0x79]

/-- Row `bx`. -/
def sboxRowB : List Byte :=
  [0xe7, 0xc8, 0x37, 0x6d, 0x8d, 0xd5, 0x4e, 0xa9,
   0x6c, 0x56, 0xf4, 0xea, 0x65, 0x7a, 0xae, 0x08]

/-- Row `cx`. -/
def sboxRowC : List Byte :=
  [0xba, 0x78, 0x25, 0x2e, 0x1c, 0xa6, 0xb4, 0xc6,
   0xe8, 0xdd, 0x74, 0x1f, 0x4b, 0xbd, 0x8b, 0x8a]

/-- Row `dx`. -/
def sboxRowD : List Byte :=
  [0x70, 0x3e, 0xb5, 0x66, 0x48, 0x03, 0xf6, 0x0e,
   0x61, 0x35, 0x57, 0xb9, 0x86, 0xc1, 0x1d, 0x9e]

/-- Row `ex`. -/
def sboxRowE : List Byte :=
  [0xe1, 0xf8, 0x98, 0x11, 0x69, 0xd9, 0x8e, 0x94,
   0x9b, 0x1e, 0x87, 0xe9, 0xce, 0x55, 0x28, 0xdf]

/-- Row `fx`. -/
def sboxRowF : List Byte :=
  [0x8c, 0xa1, 0x89, 0x0d, 0xbf, 0xe6, 0x42, 0x68,
   0x41, 0x99, 0x2d, 0x0f, 0xb0, 0x54, 0xbb, 0x16]

/-- The 16 rows of the table. -/
def sboxRows : List (List Byte) :=
  [sboxRow0, sboxRow1, sboxRow2, sboxRow3, sboxRow4, sboxRow5, sboxRow6, sboxRow7,
   sboxRow8, sboxRow9, sboxRowA, sboxRowB, sboxRowC, sboxRowD, sboxRowE, sboxRowF]

/-- `SBox(a)` (R123). -/
def sbox (a : Byte) : Byte := (sboxRows.getD (a.toNat / 16) []).getD (a.toNat % 16) 0

/-- The affine map of the algebraic definition of the table (R123). -/
def sboxAffine (x : Byte) : Byte :=
  x ^^^ x.rotateLeft 1 ^^^ x.rotateLeft 2 ^^^ x.rotateLeft 3 ^^^ x.rotateLeft 4 ^^^ 0x63

/-! ## The four steps -/

/-- `SubBytes(v)` (R124). -/
def subBytes (v : Block) : Block := ofBytes fun i => sbox (byte v i)

/-- The input byte that output byte `i = r + 4c` of `ShiftRows` takes: `r + 4·((c + r) mod 4)` (R125). -/
def shiftRowsSource (i : Nat) : Nat := i % 4 + 4 * ((i / 4 + i % 4) % 4)

/-- `ShiftRows(v)` (R125). -/
def shiftRows (v : Block) : Block := ofBytes fun i => byte v (shiftRowsSource i)

/-- Entry `k` of a column `(a0, a1, a2, a3)` times the matrix of `MixColumns` (R126). -/
def mixEntry (a0 a1 a2 a3 : Byte) (k : Nat) : Byte :=
  match k with
  | 0 => gmul a0 2 ^^^ gmul a1 3 ^^^ a2 ^^^ a3
  | 1 => a0 ^^^ gmul a1 2 ^^^ gmul a2 3 ^^^ a3
  | 2 => a0 ^^^ a1 ^^^ gmul a2 2 ^^^ gmul a3 3
  | _ => gmul a0 3 ^^^ a1 ^^^ a2 ^^^ gmul a3 2

/-- `MixColumns(v)`, column `c` being bytes `4c .. 4c+3` (R126). -/
def mixColumns (v : Block) : Block :=
  ofBytes fun i =>
    mixEntry (byte v (4 * (i / 4))) (byte v (4 * (i / 4) + 1))
      (byte v (4 * (i / 4) + 2)) (byte v (4 * (i / 4) + 3)) (i % 4)

/-- `AddRoundKey(v, k)` (R127). -/
def addRoundKey (v k : Block) : Block := v ^^^ k

/-! ## Rounds and the whole cipher -/

/-- `Round(v, k)` (R128). -/
def round (v k : Block) : Block := addRoundKey (mixColumns (shiftRows (subBytes v))) k

/-- `FinalRound(v, k)`: no column mixing (R129). -/
def finalRound (v k : Block) : Block := addRoundKey (shiftRows (subBytes v)) k

/-- `Cipher256(v, K)`: AES-256 encryption with 15 round keys (R132). -/
def cipher256 (v : Block) (k : Vector Block 15) : Block :=
  let s0  := addRoundKey v k[0]
  let s1  := round s0 k[1]
  let s2  := round s1 k[2]
  let s3  := round s2 k[3]
  let s4  := round s3 k[4]
  let s5  := round s4 k[5]
  let s6  := round s5 k[6]
  let s7  := round s6 k[7]
  let s8  := round s7 k[8]
  let s9  := round s8 k[9]
  let s10 := round s9 k[10]
  let s11 := round s10 k[11]
  let s12 := round s11 k[12]
  let s13 := round s12 k[13]
  finalRound s13 k[14]

end Sys2Proof.Machine
end

