-- ==== Sys2Proof/Machine/Flags.lean ====
section
/-! DEFINITION. The status bits, the only flags of the core (spec/10_state.md R31, R32), and the outputs that
follow them. The counter addition discards its carry and no datapath operation writes a flag. -/

namespace Sys2Proof.Machine

/-- The fault code of `STATUS.ERR` (spec/60_exceptions.md R240); 0 is none. -/
def errCode : Option CmdFault → BitVec 4
  | none         => 0
  | some .fOpc   => 1
  | some .fCap   => 2
  | some .fRange => 3

/-- `STATUS.BUSY = (UPC != 0)` (R32). -/
def State.busy (s : State) : Bool := decide (s.upc ≠ .idle)

/-- `cmd_ready = (UPC == 0)` (spec/45_sequencer_and_host.md R211). -/
def State.cmdReady (s : State) : Bool := decide (s.upc = .idle)

/-- The 32-bit register `STATUS` as the host reads it (R32): bit 0 `BUSY`, bit 1 `DONE`, bits 7:4 `ERR`, bit 8
`FSTICKY`, all others zero. -/
def State.status (s : State) : BitVec 32 :=
  0#23 ++ BitVec.ofBool s.fsticky ++ errCode s.err ++ 0#2 ++ BitVec.ofBool s.done ++ BitVec.ofBool s.busy

/-- `HAS_WIDE` of the part: the presence of the wide bank (R24). -/
def State.hasWide (s : State) : Bool := s.wide.isSome

/-- The 32-bit register `CAP` as the host reads it (R31): bit 0 `HAS_WIDE`, the others zero. -/
def State.cap (s : State) : BitVec 32 := 0#31 ++ BitVec.ofBool s.hasWide

/-- The level output `done` (R34). -/
def State.doneOut (s : State) : Bool := s.done

/-- The part a state belongs to: what no step changes (R40). -/
def State.part (s : State) : Part := { hasWide := s.hasWide, aw := s.aw, ranges := s.ranges }

/-- What every acceptance does to the status bits (spec/45_sequencer_and_host.md R212): `DONE <- 0`, `ERR` takes
the code, `FSTICKY` is set when the code is not none. -/
def State.recordAcceptance (e : Option CmdFault) (s : State) : State :=
  { s with done := false, err := e, fsticky := s.fsticky || e.isSome }

end Sys2Proof.Machine
end

