-- ==== Sys2Proof/Machine/Ops.lean ====
section
/-! DEFINITION. The named operations over memory and registers, the range check, acceptance, taking a fault and
returning from it (spec/20_memory.md R60 to R70; spec/10_state.md; spec/45_sequencer_and_host.md R212, R216;
spec/60_exceptions.md R245, R246). -/

namespace Sys2Proof.Machine

open Host (Outcome)

/-! ## Memory -/

/-- The byte at an address. -/
def Memory.byteAt : Memory → Nat → Byte
  | [], _           => unlistedByte
  | (k, v) :: m, a => if k = a then v else Memory.byteAt m a

/-- Store one byte, keeping the addresses rising and listing no byte equal to `unlistedByte`. -/
def Memory.storeByte : Memory → Nat → Byte → Memory
  | [], a, b          => if b = unlistedByte then [] else [(a, b)]
  | (k, v) :: m, a, b =>
    if a < k then (if b = unlistedByte then (k, v) :: m else (a, b) :: (k, v) :: m)
    else if a = k then (if b = unlistedByte then m else (k, b) :: m)
    else (k, v) :: Memory.storeByte m a b

/-- Store a byte string at rising addresses. -/
def Memory.storeBytes : Memory → Nat → List Byte → Memory
  | m, _, []      => m
  | m, a, b :: bs => Memory.storeBytes (Memory.storeByte m a b) (a + 1) bs

/-- `MemRead(addr, 16)`, the direct load: memory byte `addr+i` becomes byte `i` (spec/20_memory.md R64). -/
def Memory.readBlock (m : Memory) (a : Nat) : Block := ofBytes fun i => Memory.byteAt m (a + i)

/-- `MemWrite(addr, 16, v)`, the direct store: byte `i` goes to `addr+i` (spec/20_memory.md R65). -/
def Memory.writeBlock (m : Memory) (a : Nat) (v : Block) : Memory := Memory.storeBytes m a (bytes v)

/-- Four direct stores, lane `j` at offset `16j`, in ascending `j` (spec/43_parallel_ctr.md R188). -/
def Memory.writeLanes (m : Memory) (a : Nat) (w : Lanes) : Memory :=
  Memory.writeBlock (Memory.writeBlock (Memory.writeBlock (Memory.writeBlock m a w.lane0)
    (a + 16) w.lane1) (a + 32) w.lane2) (a + 48) w.lane3

/-- The canonical form of a memory: addresses strictly rising, no entry equal to `unlistedByte`. -/
abbrev Memory.wf (m : Memory) : Prop :=
  m.Pairwise (fun x y => x.1 < y.1) ∧ ∀ c ∈ m, c.2 ≠ unlistedByte

/-! ## Which accesses are admitted -/

/-- A region admits a range: it permits the kind and the range lies inside it. -/
def Region.admits (g : Region) (kind : AccessKind) (a len : Nat) : Bool :=
  (match kind with
    | .read  => g.readable
    | .write => g.writable) && decide (g.base ≤ a) && decide (a + len ≤ g.base + g.size)

/-- `Admit(addr, len, kind)` (spec/20_memory.md R70): some region admits the whole range (assumption 4). -/
def State.admits (s : State) (kind : AccessKind) (a len : Nat) : Bool :=
  s.ranges.any fun g => Region.admits g kind a len

/-- Whether a range exists: it ends at or below `2^AW` (spec/20_memory.md R60, R70). -/
def State.inSpace (s : State) (a len : Nat) : Bool := decide (a + len ≤ 2 ^ s.aw)

/-- `RangesOK` (spec/20_memory.md R70) for a block count `n`. -/
def State.rangesOk (s : State) (n : Nat) (ks inp out : Addr) : Bool :=
  s.inSpace ks.toNat 240 && s.inSpace inp.toNat 16 && s.inSpace out.toNat (16 * n) &&
    s.admits .read ks.toNat 240 && s.admits .read inp.toNat 16 &&
    (decide (n = 0) || s.admits .write out.toNat (16 * n))

/-- The guard of every access of the core to memory. It never stops a command that was accepted: the range
check has admitted all its accesses (spec/20_memory.md R70; assumption 11). -/
def State.onMemory (s : State) (kind : AccessKind) (a len : Nat) (k : Outcome State Fault Refusal) :
    Outcome State Fault Refusal :=
  if s.inSpace a len then (if s.admits kind a len then k else .refused .notAdmitted)
  else .fault .noSuchAddress

/-! ## Registers -/

/-- Write `S`. -/
def State.setS (v : Block) (s : State) : State := { s with narrow := { s.narrow with s := v } }

/-- Write `CTR`. -/
def State.setCtr (v : Block) (s : State) : State := { s with narrow := { s.narrow with ctr := v } }

/-- Write `RK[r]`. -/
def State.setRK (r : Fin 15) (v : Block) (s : State) : State :=
  { s with narrow := { s.narrow with rk := s.narrow.rk.set r v } }

/-- Write memory. -/
def State.setMem (m : Memory) (s : State) : State := { s with mem := m }

/-- Write the wide bank of a part that has one. -/
def State.setWide (w : WideBank) (s : State) : State := { s with wide := some w }

/-- Run an operation of the wide unit on its bank; a part without the bank has no such operation
(spec/10_state.md R24). -/
def State.onWide (s : State) (k : WideBank → Outcome State Fault Refusal) : Outcome State Fault Refusal :=
  match s.wide with
  | some w => k w
  | none   => .refused .noWideUnit

/-- Run an operation on the register a key index names; a reserved index has no meaning
(spec/30_encoding.md R98). -/
def onKey (r : Option (Fin 15)) (k : Fin 15 → Outcome State Fault Refusal) : Outcome State Fault Refusal :=
  match r with
  | some i => k i
  | none   => .refused .reservedControlWord

/-- Every vector register of both banks to zero (spec/44_secret_hygiene.md R200). -/
def State.clearVectors (s : State) : State :=
  { s with narrow := NarrowBank.zero, wide := s.wide.map fun _ => WideBank.zero }

/-! ## Acceptance, taking a fault, completion -/

/-- A command taken without fault (spec/45_sequencer_and_host.md R212): the latch takes its five values, the
addresses in their `AW` bits (spec/10_state.md R30), `RC` and `BI` are zeroed, the micro-program starts at `KLD`. -/
def State.accept (l : Latch) (s : State) : State :=
  { s.recordAcceptance none with latch := Latch.fit s.aw l, rc := 0, bi := 0, upc := .kld }

/-- Taking a fault (spec/60_exceptions.md R245): `ERR <- ` the code, `FSTICKY <- 1`, `DONE <- 0`, `UPC <- CLRS`;
nothing is saved and nothing else changes. -/
def State.takeFault (f : CmdFault) (s : State) : State :=
  { s.recordAcceptance (some f) with upc := .clrs }

/-- The `DONE` step, which ends every command and is the only return from a fault
(spec/45_sequencer_and_host.md R216; spec/60_exceptions.md R246). -/
def State.complete (s : State) : State := { s with done := true, upc := .idle }

/-- The end of decoding at acceptance (spec/30_encoding.md R104, cases 3 and 4): `F_RANGE`, or the command is
taken with the descriptor's values `l`. The check looks at the 64-bit fields of the descriptor (R95). -/
def State.acceptInRange (l : Latch) (s : State) : State :=
  if s.rangesOk l.nbl.toNat l.ksl l.inl l.outl then s.accept l else s.takeFault .fRange

/-- A command acts on an idle core only; while the core is busy its offer waits and nothing changes
(spec/45_sequencer_and_host.md R211). -/
def State.whenReady (s : State) (t : State) : Outcome State Fault Refusal :=
  if s.cmdReady then .next t else .next s

end Sys2Proof.Machine
end

