-- ==== Sys2Proof/Machine/Command.lean ====
section
/-! DEFINITION. The three commands. The meaning of a command is its acceptance on an idle core
(spec/45_sequencer_and_host.md R212; spec/30_encoding.md R104): `F_CAP`, `F_RANGE`, or the latch filled and the
micro-program at `KLD`, whose steps then produce the output (assumption 6). The command-level functions of R150,
R170 and R180 are in CommandLevel.lean. -/

namespace Sys2Proof.Machine

open Host (Outcome)

/-- `ENC1 ks, in, out` (R150): the count field is ignored and `NBL` is 1 (spec/30_encoding.md R93). -/
def execEnc1 (_nblk : Count) (ks inp out : Addr) (s : State) : Outcome State Fault Refusal :=
  s.whenReady (s.acceptInRange { opl := 0x01, nbl := 1, ksl := ks, inl := inp, outl := out })

/-- `GENSEQ ks, ctr, out, n` (R170). -/
def execGenseq (nblk : Count) (ks inp out : Addr) (s : State) : Outcome State Fault Refusal :=
  s.whenReady (s.acceptInRange { opl := 0x02, nbl := nblk, ksl := ks, inl := inp, outl := out })

/-- `GENPAR ks, ctr, out, n` (R180): `F_CAP` on a part without the wide unit, before the range check (R242, R244). -/
def execGenpar (nblk : Count) (ks inp out : Addr) (s : State) : Outcome State Fault Refusal :=
  s.whenReady
    (if s.hasWide then s.acceptInRange { opl := 0x03, nbl := nblk, ksl := ks, inl := inp, outl := out }
     else s.takeFault .fCap)

end Sys2Proof.Machine
end

