-- ==== Sys2Proof/Machine/Hygiene.lean ====
section
/-! DEFINITION. `CLR`, the register-clearing unit (spec/44_secret_hygiene.md R200), and `NOP`
(spec/45_sequencer_and_host.md R214). -/

namespace Sys2Proof.Machine

open Host (Outcome)

/-- `CLR`: every vector register of both banks to zero; nothing else (R200, R203). -/
def execClr (s : State) : Outcome State Fault Refusal := .next s.clearVectors

/-- `NOP`: no vector register and no memory changes (R214). -/
def execNop (s : State) : Outcome State Fault Refusal := .next s

end Sys2Proof.Machine
end

