-- ==== Sys2Proof/Machine/Narrow.lean ====
section
/-! DEFINITION. The datapath operations of the narrow unit (spec/41_single_block.md R151 to R157;
spec/42_sequential_ctr.md R171). None writes a flag and none can fault in a run. -/

namespace Sys2Proof.Machine

open Host (Outcome)

/-- `LDK r`: `RK[r] <- MemRead(KSL + 16·r, 16)` (R151). -/
def execLdk (r : KeyIndex) (s : State) : Outcome State Fault Refusal :=
  onKey (keyNumber? r) fun i =>
    s.onMemory .read (s.keyAddr i) 16 (.next (s.setRK i (Memory.readBlock s.mem (s.keyAddr i))))

/-- `LDC`: `CTR <- MemRead(INL, 16)` (R152). -/
def execLdc (s : State) : Outcome State Fault Refusal :=
  s.onMemory .read s.inputAddr 16 (.next (s.setCtr (Memory.readBlock s.mem s.inputAddr)))

/-- `BSW`: `S <- Rev16(CTR)` (R153). -/
def execBsw (s : State) : Outcome State Fault Refusal :=
  .next (s.setS (rev16 s.narrow.ctr))

/-- `ARK`: `S <- AddRoundKey(S, RK[0])` (R154). -/
def execArk (s : State) : Outcome State Fault Refusal :=
  .next (s.setS (addRoundKey s.narrow.s s.narrow.rk[0]))

/-- `RND r`: `S <- Round(S, RK[r])`, `r` in 1..13 (R155). -/
def execRnd (r : KeyIndex) (s : State) : Outcome State Fault Refusal :=
  onKey (middleNumber? r) fun i => .next (s.setS (round s.narrow.s s.narrow.rk[i]))

/-- `FIN`: `S <- FinalRound(S, RK[14])` (R156). -/
def execFin (s : State) : Outcome State Fault Refusal :=
  .next (s.setS (finalRound s.narrow.s s.narrow.rk[14]))

/-- `STB`: `MemWrite(OUTL + 16·BI, 16, S)` (R157). -/
def execStb (s : State) : Outcome State Fault Refusal :=
  s.onMemory .write s.blockAddr 16 (.next (s.setMem (Memory.writeBlock s.mem s.blockAddr s.narrow.s)))

/-- `INC`: `CTR <- Add32Lo(CTR, 1)` (R171). -/
def execInc (s : State) : Outcome State Fault Refusal :=
  .next (s.setCtr (add32Lo s.narrow.ctr 1))

end Sys2Proof.Machine
end

