-- ==== Sys2Proof/Machine/Wide.lean ====
section
/-! DEFINITION. The datapath operations of the wide unit (spec/43_parallel_ctr.md R181 to R190), present only on
a part with `HAS_WIDE` (spec/10_state.md R24). None writes a flag and none can fault in a run. -/

namespace Sys2Proof.Machine

open Host (Outcome)

/-- `BCK r`: `WK[r].lane[j] <- RK[r]` in every lane (R181). -/
def execBck (r : KeyIndex) (s : State) : Outcome State Fault Refusal :=
  s.onWide fun w => onKey (keyNumber? r) fun i =>
    .next (s.setWide { w with wk := w.wk.set i (Lanes.broadcast s.narrow.rk[i]) })

/-- `BCC`: `CTRV.lane[j] <- CTR` in every lane (R182). -/
def execBcc (s : State) : Outcome State Fault Refusal :=
  s.onWide fun w => .next (s.setWide { w with ctrv := Lanes.broadcast s.narrow.ctr })

/-- `AOF`: `CTRV.lane[j] <- Add32Lo(CTRV.lane[j], j)` (R183). -/
def execAof (s : State) : Outcome State Fault Refusal :=
  s.onWide fun w =>
    .next (s.setWide { w with ctrv := w.ctrv.mapWithLane fun j v => add32Lo v (BitVec.ofNat 32 j) })

/-- `BSW4`: `SV <- Map4(Rev16)(CTRV)` (R184). -/
def execBsw4 (s : State) : Outcome State Fault Refusal :=
  s.onWide fun w => .next (s.setWide { w with sv := w.ctrv.map4 rev16 })

/-- `ARK4`: `SV.lane[j] <- AddRoundKey(SV.lane[j], WK[0].lane[j])` (R185). -/
def execArk4 (s : State) : Outcome State Fault Refusal :=
  s.onWide fun w => .next (s.setWide { w with sv := w.sv.zip4 addRoundKey w.wk[0] })

/-- `RND4 r`: `SV.lane[j] <- Round(SV.lane[j], WK[r].lane[j])`, `r` in 1..13 (R186). -/
def execRnd4 (r : KeyIndex) (s : State) : Outcome State Fault Refusal :=
  s.onWide fun w => onKey (middleNumber? r) fun i =>
    .next (s.setWide { w with sv := w.sv.zip4 round w.wk[i] })

/-- `FIN4`: `SV.lane[j] <- FinalRound(SV.lane[j], WK[14].lane[j])` (R187). -/
def execFin4 (s : State) : Outcome State Fault Refusal :=
  s.onWide fun w => .next (s.setWide { w with sv := w.sv.zip4 finalRound w.wk[14] })

/-- `STB4`: the four lanes of `SV` to 64 contiguous bytes at `OUTL + 16·BI` (R188). -/
def execStb4 (s : State) : Outcome State Fault Refusal :=
  s.onWide fun w =>
    s.onMemory .write s.blockAddr 64 (.next (s.setMem (Memory.writeLanes s.mem s.blockAddr w.sv)))

/-- `INC4`: `CTRV.lane[j] <- Add32Lo(CTRV.lane[j], 4)` (R189). -/
def execInc4 (s : State) : Outcome State Fault Refusal :=
  s.onWide fun w => .next (s.setWide { w with ctrv := w.ctrv.map4 fun v => add32Lo v 4 })

/-- `XL0`: `CTR <- CTRV.lane[0]`, no byte reordering (R190). -/
def execXl0 (s : State) : Outcome State Fault Refusal :=
  s.onWide fun w => .next (s.setCtr w.ctrv.lane0)

end Sys2Proof.Machine
end

