-- ==== Sys2Proof/Machine/Dispatch.lean ====
section
/-! DEFINITION. One arm per instruction. -/

namespace Sys2Proof.Machine

def exec (i : Instr) (s : State) : Host.Outcome State Fault Refusal :=
  match i with
  | .enc1 nblk ks inp out => Sys2Proof.Machine.execEnc1 nblk ks inp out s
  | .genseq nblk ks inp out => Sys2Proof.Machine.execGenseq nblk ks inp out s
  | .genpar nblk ks inp out => Sys2Proof.Machine.execGenpar nblk ks inp out s
  | .nop => Sys2Proof.Machine.execNop s
  | .ldk r => Sys2Proof.Machine.execLdk r s
  | .ldc => Sys2Proof.Machine.execLdc s
  | .bsw => Sys2Proof.Machine.execBsw s
  | .ark => Sys2Proof.Machine.execArk s
  | .rnd r => Sys2Proof.Machine.execRnd r s
  | .fin => Sys2Proof.Machine.execFin s
  | .stb => Sys2Proof.Machine.execStb s
  | .inc => Sys2Proof.Machine.execInc s
  | .bck r => Sys2Proof.Machine.execBck r s
  | .bcc => Sys2Proof.Machine.execBcc s
  | .aof => Sys2Proof.Machine.execAof s
  | .bsw4 => Sys2Proof.Machine.execBsw4 s
  | .ark4 => Sys2Proof.Machine.execArk4 s
  | .rnd4 r => Sys2Proof.Machine.execRnd4 r s
  | .fin4 => Sys2Proof.Machine.execFin4 s
  | .stb4 => Sys2Proof.Machine.execStb4 s
  | .inc4 => Sys2Proof.Machine.execInc4 s
  | .xl0 => Sys2Proof.Machine.execXl0 s
  | .clr => Sys2Proof.Machine.execClr s

end Sys2Proof.Machine
end

