-- ==== Sys2Proof/Machine/Sequencer.lean ====
section
/-! DEFINITION. The sequencer: the micro-program of spec/45_sequencer_and_host.md R213, the step of the core
(R214), and the acceptance step of an idle core (R211, R212). -/

namespace Sys2Proof.Machine

open Host (Outcome)

/-- The 5-bit code of a position, the value of the register `UPC` (R213). -/
def Pos.code : Pos → BitVec 5
  | .idle => 0x00 | .kld  => 0x01 | .cld  => 0x02 | .nsw  => 0x03
  | .nchk => 0x04 | .nark => 0x05 | .nrnd => 0x06 | .nfin => 0x07
  | .nst  => 0x08 | .ninc => 0x09 | .nrsw => 0x0A | .nadv => 0x0B
  | .wbk  => 0x10 | .wbc  => 0x11 | .wof  => 0x12 | .wsw  => 0x13
  | .wchk => 0x14 | .wark => 0x15 | .wrnd => 0x16 | .wfin => 0x17
  | .wst  => 0x18 | .winc => 0x19 | .wrsw => 0x1A | .wadv => 0x1B
  | .hxl  => 0x1C | .hsw  => 0x1D | .clrs => 0x1E | .done => 0x1F

/-- The control word a position issues (R213, column "issues"; encodings of spec/30_encoding.md R97). -/
def Pos.issues (p : Pos) (rc : KeyIndex) : CtrlWord :=
  match p with
  | .idle => 0x0000
  | .kld  => controlWord rc 0x10
  | .cld  => 0x0011
  | .nsw  => 0x0012
  | .nchk => 0x0000
  | .nark => 0x0013
  | .nrnd => controlWord rc 0x14
  | .nfin => 0x0E15
  | .nst  => 0x0016
  | .ninc => 0x0017
  | .nrsw => 0x0012
  | .nadv => 0x0000
  | .wbk  => controlWord rc 0x20
  | .wbc  => 0x0021
  | .wof  => 0x0022
  | .wsw  => 0x0023
  | .wchk => 0x0000
  | .wark => 0x0024
  | .wrnd => controlWord rc 0x25
  | .wfin => 0x0E26
  | .wst  => 0x0027
  | .winc => 0x0028
  | .wrsw => 0x0023
  | .wadv => 0x0000
  | .hxl  => 0x0029
  | .hsw  => 0x0012
  | .clrs => 0x003F
  | .done => 0x0000

/-- Go to a position. -/
def State.goto (p : Pos) (t : State) : State := { t with upc := p }

/-- A counting loop on `RC`: at `last`, zero `RC` and go on; else count and stay (R213). -/
def State.countTo (s : State) (last : KeyIndex) (next : Pos) (t : State) : State :=
  if s.rc = last then { t with rc := 0, upc := next } else { t with rc := s.rc + 1 }

/-- The blocks still to be produced, `NBL - BI` (R215): `BI` never exceeds `NBL` (assumption 14). -/
def State.remaining (s : State) : Nat := s.latch.nbl.toNat - s.bi.toNat

/-- The bookkeeping of a position and the next one (R213, column "then"). All tests use `s`, the state at the
start of the step; `t` is `s` after the datapath operation. -/
def State.advance (s t : State) : State :=
  match s.upc with
  | .idle => t
  | .kld  => s.countTo 14 .cld t
  | .cld  => if s.latch.opl = 3 then t.goto .wbk else t.goto .nsw
  | .nsw  => t.goto .nchk
  | .nchk => if s.bi = s.latch.nbl then t.goto .clrs else t.goto .nark
  | .nark => { t with rc := 1, upc := .nrnd }
  | .nrnd => s.countTo 13 .nfin t
  | .nfin => t.goto .nst
  | .nst  => if s.latch.opl = 1 then t.goto .nadv else t.goto .ninc
  | .ninc => t.goto .nrsw
  | .nrsw => t.goto .nadv
  | .nadv => { t with bi := s.bi + 1, upc := .nchk }
  | .wbk  => s.countTo 14 .wbc t
  | .wbc  => t.goto .wof
  | .wof  => t.goto .wsw
  | .wsw  => t.goto .wchk
  | .wchk =>
    if 4 ≤ s.remaining then t.goto .wark
    else if s.bi ≠ s.latch.nbl then t.goto .hxl
    else t.goto .clrs
  | .wark => { t with rc := 1, upc := .wrnd }
  | .wrnd => s.countTo 13 .wfin t
  | .wfin => t.goto .wst
  | .wst  => t.goto .winc
  | .winc => t.goto .wrsw
  | .wrsw => t.goto .wadv
  | .wadv => { t with bi := s.bi + 4, upc := .wchk }
  | .hxl  => t.goto .hsw
  | .hsw  => t.goto .nchk
  | .clrs => t.goto .done
  | .done => t.complete

/-- The bookkeeping after a datapath operation, when the operation has a next state. -/
def State.thenAdvance (s : State) : Outcome State Fault Refusal → Outcome State Fault Refusal
  | .next t    => .next (s.advance t)
  | .fault f   => .fault f
  | .refused r => .refused r

/-- The acceptance step: an idle core takes the descriptor off the port, decodes it, and either takes `F_OPC` or
runs the command's meaning (R211, R212; spec/30_encoding.md R104). -/
def State.takeOffer (cmd : Descriptor) (s : State) : Outcome State Fault Refusal :=
  match decodeDescriptor cmd with
  | .ok i    => exec i { s with port := none }
  | .error _ => .next (State.takeFault .fOpc { s with port := none })

/-- One step of a busy core: issue the position's control word, run the operation it decodes to, and do the
bookkeeping (R214). A reserved word is never issued and has no meaning (spec/30_encoding.md R98). -/
def State.issue (s : State) : Outcome State Fault Refusal :=
  match decodeControl (s.upc.issues s.rc) with
  | .ok i    => s.thenAdvance (exec i s)
  | .error _ => .refused .reservedControlWord

/-- One step of the core (R214): the idle core with an offer takes it; every other step issues a control word
(`NOP` in `IDLE`, which changes nothing). -/
def coreStep (s : State) : Outcome State Fault Refusal :=
  match s.upc, s.port with
  | .idle, some cmd => s.takeOffer cmd
  | _, _            => s.issue

/-- The position whose step issues the operation `UOP`, if there is one (R213). -/
def issuingPos? (uop : BitVec 8) : Option Pos :=
  match uop.toNat with
  | 0x00 => some .idle
  | 0x10 => some .kld
  | 0x11 => some .cld
  | 0x12 => some .nsw
  | 0x13 => some .nark
  | 0x14 => some .nrnd
  | 0x15 => some .nfin
  | 0x16 => some .nst
  | 0x17 => some .ninc
  | 0x20 => some .wbk
  | 0x21 => some .wbc
  | 0x22 => some .wof
  | 0x23 => some .wsw
  | 0x24 => some .wark
  | 0x25 => some .wrnd
  | 0x26 => some .wfin
  | 0x27 => some .wst
  | 0x28 => some .winc
  | 0x29 => some .hxl
  | 0x3F => some .clrs
  | _    => none

/-- `s` with the sequencer where it issues the control word `u` next (assumption 16). A reserved word (R98), also one
whose `UOP` is in the table but whose `R` or upper bits are not, is issued by no position: DESIGN CHOICE (assumption
16), `s` is then placed at `KLD` with `RC` = 15, which no run reaches and whose word 0x0F10 is reserved too, so that the
next step refuses it as it must refuse `u`. -/
def State.withControlWord (u : CtrlWord) (s : State) : State :=
  match decodeControl u, issuingPos? (CtrlWord.uop u) with
  | .ok _, some p => { s with upc := p, rc := CtrlWord.r u, port := none, script := [] }
  | _, _          => { s with upc := .kld, rc := 15, port := none, script := [] }

/-- `s` idle, with the descriptor `cmd` on the command port (assumption 16). -/
def State.withDescriptor (cmd : Descriptor) (s : State) : State :=
  { s with upc := .idle, port := some cmd, script := [] }

end Sys2Proof.Machine
end

