-- ==== Sys2Proof/Machine/HostPort.lean ====
section
/-! DEFINITION. The host's moves (spec/45_sequencer_and_host.md R211, R217 to R220; spec/20_memory.md R73;
spec/70_reset_and_hazards.md R270, R271) and the step of the whole system: the host's script says whether the
host or the core moves next (assumption 7). -/

namespace Sys2Proof.Machine

open Host (Outcome)

/-! ## Buffers lent to a running command -/

/-- An address lies in the `len` bytes at `base`. -/
def inRange (base len a : Nat) : Bool := decide (base ≤ a) && decide (a < base + len)

/-- A command that was not refused is running: its three buffers are lent to the core from acceptance to `DONE`
(spec/20_memory.md R73; assumption 8). -/
def State.lending (s : State) : Bool := s.busy && s.err.isNone

/-- An address of the running command's keystream buffer. -/
def State.inOutput (s : State) (a : Nat) : Bool :=
  inRange s.latch.outl.toNat (16 * s.latch.nbl.toNat) a

/-- An address of any of the running command's three buffers. -/
def State.inBuffers (s : State) (a : Nat) : Bool :=
  inRange s.latch.ksl.toNat 240 a || inRange s.latch.inl.toNat 16 a || s.inOutput a

/-! ## Moves -/

/-- The host stores a byte; into a lent buffer the run has no meaning (R73; spec/93_implementation_defined.md U4). -/
def hostStore (addr : Addr) (b : Byte) (s : State) : Outcome State Fault Refusal :=
  if s.inSpace addr.toNat 1 then
    (if s.lending && s.inBuffers addr.toNat then .refused .bufferInUse
     else .next (s.setMem (Memory.storeByte s.mem addr.toNat b)))
  else .fault .noSuchAddress

/-- The host loads a byte, which changes nothing; from a lent keystream buffer the run has no meaning
(R73, R278; spec/93_implementation_defined.md U12). -/
def hostLoad (addr : Addr) (s : State) : Outcome State Fault Refusal :=
  if s.inSpace addr.toNat 1 then
    (if s.lending && s.inOutput addr.toNat then .refused .bufferInUse else .next s)
  else .fault .noSuchAddress

/-- The `reset` input (R270): the reset state of the same part, memory untouched. The host's port and script
are the host's and stay (assumption 9). -/
def State.resetInput (s : State) : State :=
  { State.resetOf s.part with mem := s.mem, port := s.port, script := s.script }

/-- One step of the system. An offer waits until the port is free, the core moving meanwhile (R211). -/
def systemStep (s : State) : Outcome State Fault Refusal :=
  match s.script with
  | []                     => coreStep s
  | .turn :: rest          => coreStep { s with script := rest }
  | .awaitReady :: rest    =>
    if s.cmdReady && s.port.isNone then .next { s with script := rest } else coreStep s
  | .offer cmd :: rest     =>
    if s.port.isNone then .next { s with script := rest, port := some cmd } else coreStep s
  | .store addr b :: rest  => hostStore addr b { s with script := rest }
  | .load addr :: rest     => hostLoad addr { s with script := rest }
  | .pollStatus :: rest    => .next { s with script := rest }
  | .probeCap :: rest      => .next { s with script := rest }
  | .reset :: rest         => .next (State.resetInput { s with script := rest })

end Sys2Proof.Machine
end

