-- ==== Sys2Proof/Machine/Step.lean ====
section
/-! DEFINITION. The step of the machine, and the placing of one instruction where the next step takes it from. -/

namespace Sys2Proof.Machine

/-- One step: the core's (spec/45_sequencer_and_host.md R214), or the host's move its script says comes next. -/
def step (s : State) : Host.Outcome State Fault Refusal := systemStep s

/-- `s` with one instruction where the next step takes it from: a control word is issued by the sequencer, a
descriptor is offered on the command port (assumption 16). -/
def State.withFetchWord (s : State) (nbits w : Nat) : State :=
  if nbits ≤ 16 then s.withControlWord (BitVec.ofNat 16 (w % 2 ^ nbits))
  else s.withDescriptor (BitVec.ofNat 256 (w % 2 ^ nbits))

end Sys2Proof.Machine
end

