-- ==== Sys2Proof/Machine/CommandLevel.lean ====
section
/-! DEFINITION. The command level (spec/00_scope.md R12): each command as one function of memory at acceptance
(spec/41_single_block.md R150; spec/42_sequential_ctr.md R170; spec/43_parallel_ctr.md R180), and the number of
steps the micro-program takes for it (spec/45_sequencer_and_host.md R223). The machine does not run these
functions: statements compare the machine with them (R221). -/

namespace Sys2Proof.Machine

/-! ## Memory of a command -/

/-- The 15 round keys of the schedule at `ks` (spec/20_memory.md R61). -/
def Memory.schedule (m : Memory) (ks : Nat) : Vector Block 15 :=
  Vector.ofFn fun r : Fin 15 => Memory.readBlock m (ks + 16 * r.val)

/-- The keystream block of the counter `c` (R170): `Cipher256(Rev16(c), K)`. -/
def keystreamBlock (k : Vector Block 15) (c : Block) : Block := cipher256 (rev16 c) k

/-- `n` keystream blocks from the counter `c`, written in ascending order at `out` (R170). -/
def writeStream (k : Vector Block 15) (c : Block) (out : Nat) : Nat → Memory → Memory
  | 0, m     => m
  | n + 1, m =>
    Memory.writeBlock (writeStream k c out n m) (out + 16 * n) (keystreamBlock k (add32Lo c (BitVec.ofNat 32 n)))

/-- The four blocks of one group: lane `j` from the counter `c + j` (R180). -/
def groupLanes (k : Vector Block 15) (c : Block) : Lanes where
  lane0 := keystreamBlock k (add32Lo c 0)
  lane1 := keystreamBlock k (add32Lo c 1)
  lane2 := keystreamBlock k (add32Lo c 2)
  lane3 := keystreamBlock k (add32Lo c 3)

/-- `g` groups of four blocks from the counter `c`, written in ascending order at `out` (R180). -/
def writeGroups (k : Vector Block 15) (c : Block) (out : Nat) : Nat → Memory → Memory
  | 0, m     => m
  | g + 1, m =>
    Memory.writeLanes (writeGroups k c out g m) (out + 64 * g)
      (groupLanes k (add32Lo c (BitVec.ofNat 32 (4 * g))))

/-- Memory after `ENC1` (R150). -/
def enc1Memory (m : Memory) (ks inp out : Nat) : Memory :=
  Memory.writeBlock m out (cipher256 (rev16 (Memory.readBlock m inp)) (Memory.schedule m ks))

/-- Memory after `GENSEQ` (R170). -/
def genseqMemory (m : Memory) (n ks ctr out : Nat) : Memory :=
  writeStream (Memory.schedule m ks) (Memory.readBlock m ctr) out n m

/-- Memory after `GENPAR` (R180): the groups, then the remainder from the handed-over counter. -/
def genparMemory (m : Memory) (n ks ctr out : Nat) : Memory :=
  writeStream (Memory.schedule m ks) (add32Lo (Memory.readBlock m ctr) (BitVec.ofNat 32 (4 * (n / 4))))
    (out + 64 * (n / 4)) (n % 4)
    (writeGroups (Memory.schedule m ks) (Memory.readBlock m ctr) out (n / 4) m)

/-! ## State at the end of a command -/

/-- The state of the core right after the `DONE` step of a command that was not refused, given the latch it
took and the memory it left (R150, R170, R180; R216, R220). What the host offers meanwhile waits on the port. -/
def State.afterCommand (s : State) (l : Latch) (m : Memory) : State :=
  { s.clearVectors with
    upc := .idle, rc := 0, bi := l.nbl, latch := l, done := true, err := none, mem := m }

/-- The state right after the `DONE` step of a refused command (spec/60_exceptions.md R245). -/
def State.afterFault (s : State) (f : CmdFault) : State :=
  { s.clearVectors with upc := .idle, done := true, err := some f, fsticky := true }

/-! ## Step counts (R223), acceptance and `DONE` included -/

/-- Steps of a refused command. -/
def faultSteps : Nat := 3
/-- Steps of `ENC1`. -/
def enc1Steps : Nat := 39
/-- Steps of `GENSEQ` with `n` blocks. -/
def genseqSteps (n : Nat) : Nat := 21 + 20 * n
/-- Steps of `GENPAR` with `n` blocks. -/
def genparSteps (n : Nat) : Nat := 38 + 20 * (n / 4) + (if n % 4 ≠ 0 then 3 + 20 * (n % 4) else 0)

/-! ## Runs -/

/-- `k` steps, stopping at the first stop. -/
def run : Nat → State → Host.Outcome State Fault Refusal
  | 0, s     => .next s
  | k + 1, s =>
    match step s with
    | .next t    => run k t
    | .fault f   => .fault f
    | .refused r => .refused r

/-- The control words the core issues in `k` steps, in order (R210: every step issues exactly one). -/
def issuedWords : Nat → State → List CtrlWord
  | 0, _     => []
  | k + 1, s =>
    s.upc.issues s.rc ::
      match step s with
      | .next t    => issuedWords k t
      | .fault _   => []
      | .refused _ => []

/-- The datapath operations other than `NOP` issued in `k` steps. -/
def issuedOperations (k : Nat) (s : State) : List CtrlWord := (issuedWords k s).filter (· ≠ 0x0000)

end Sys2Proof.Machine
end

