-- ==== Sys2Proof/Safety.lean ====
section
/-! DEFINITION. What a safe state is: the idle invariant of the core (spec/10_state.md R35), the relations between
the sequencer's position, its counters and the latch (spec/10_state.md R29; spec/45_sequencer_and_host.md R213,
R215), and the parts of a state that hold no data. Claims are stated in these terms. -/

namespace Sys2Proof.Machine

/-- Every vector register of both banks is zero (R35; spec/44_secret_hygiene.md R202). -/
abbrev State.vectorsZero (s : State) : Prop :=
  s.narrow = NarrowBank.zero ∧ s.wide = s.wide.map fun _ => WideBank.zero

/-- A position between acceptance without fault and `CLRS`. -/
def Pos.running (p : Pos) : Bool := p ≠ .idle && p ≠ .clrs && p ≠ .done

/-- A position of the narrow loop body, `NARK` to `NADV`. -/
def Pos.inNarrowBody : Pos → Bool
  | .nark | .nrnd | .nfin | .nst | .ninc | .nrsw | .nadv => true
  | .idle | .kld | .cld | .nsw | .nchk => false
  | .wbk | .wbc | .wof | .wsw | .wchk | .wark | .wrnd | .wfin | .wst | .winc | .wrsw | .wadv => false
  | .hxl | .hsw | .clrs | .done => false

/-- A position of the wide loop body, `WARK` to `WADV`. -/
def Pos.inWideBody : Pos → Bool
  | .wark | .wrnd | .wfin | .wst | .winc | .wrsw | .wadv => true
  | .idle | .kld | .cld | .nsw | .nchk | .nark | .nrnd | .nfin | .nst | .ninc | .nrsw | .nadv => false
  | .wbk | .wbc | .wof | .wsw | .wchk | .hxl | .hsw | .clrs | .done => false

/-- A position only `GENPAR` reaches, `WBK` to `HSW`. -/
def Pos.wideOnly : Pos → Bool
  | .wbk | .wbc | .wof | .wsw | .wchk | .wark | .wrnd | .wfin | .wst | .winc | .wrsw | .wadv => true
  | .hxl | .hsw => true
  | .idle | .kld | .cld | .nsw | .nchk | .nark | .nrnd | .nfin | .nst | .ninc | .nrsw | .nadv => false
  | .clrs | .done => false

/-- The values `RC` takes at a position: 0..14 in the key loops, 1..13 in the round loops, 0 elsewhere
(R29; R215). -/
def Pos.admitsRC (p : Pos) (rc : KeyIndex) : Bool :=
  match p with
  | .kld | .wbk   => KeyIndex.isKey rc
  | .nrnd | .wrnd => KeyIndex.isMiddle rc
  | .idle | .cld | .nsw | .nchk | .nark | .nfin | .nst | .ninc | .nrsw | .nadv => rc == 0
  | .wbc | .wof | .wsw | .wchk | .wark | .wfin | .wst | .winc | .wrsw | .wadv  => rc == 0
  | .hxl | .hsw | .clrs | .done => rc == 0

/-- The invariant of the machine. It holds at reset and every step keeps it. -/
structure Inv (s : State) : Prop where
  /-- Memory is in canonical form. -/
  memory     : Memory.wf s.mem
  /-- `AW` is 1 to 64 (spec/00_scope.md R5). -/
  width      : 1 ≤ s.aw ∧ s.aw ≤ 64
  /-- The latched addresses are `AW` bits wide (R30). -/
  addresses  : s.latch.ksl.toNat < 2 ^ s.aw ∧ s.latch.inl.toNat < 2 ^ s.aw ∧ s.latch.outl.toNat < 2 ^ s.aw
  /-- `BI` never exceeds `NBL` (R29, R215). -/
  count      : s.bi.toNat ≤ s.latch.nbl.toNat
  /-- The idle invariant (R35), which already holds on entry to `DONE` (spec/44_secret_hygiene.md R202). -/
  cleared    : s.upc = .idle ∨ s.upc = .done → s.vectorsZero
  /-- `DONE` is 0 while busy (R32). -/
  notDone    : s.done = true → s.upc = .idle
  /-- `FSTICKY` is set whenever `ERR` is not none (R32). -/
  sticky     : s.err ≠ none → s.fsticky = true
  /-- `RC` fits the position. -/
  keyIndex   : s.upc.admitsRC s.rc = true
  /-- A running command is one of the three, was not refused, and `ENC1` has count 1 (R30). -/
  opcode     : s.upc.running = true →
    s.err = none ∧ (s.latch.opl = 1 ∧ s.latch.nbl = 1 ∨ s.latch.opl = 2 ∨ s.latch.opl = 3)
  /-- A running command passed the range check (spec/20_memory.md R70). -/
  admitted   : s.upc.running = true →
    s.rangesOk s.latch.nbl.toNat s.latch.ksl s.latch.inl s.latch.outl = true
  /-- `GENPAR` runs on a part with the wide unit only (spec/60_exceptions.md R242). -/
  capable    : s.upc.running = true → s.latch.opl = 3 → s.hasWide = true
  /-- The wide positions belong to `GENPAR`. -/
  wideOpcode : s.upc.wideOnly = true → s.latch.opl = 3
  /-- The narrow body runs for a block that is wanted (R215). -/
  narrowBody : s.upc.inNarrowBody = true → s.bi.toNat < s.latch.nbl.toNat
  /-- The wide body runs for four blocks that are wanted (R215). -/
  wideBody   : s.upc.inWideBody = true → s.bi.toNat + 4 ≤ s.latch.nbl.toNat

/-- Only the core moves: the host's script is empty. -/
abbrev State.hostSilent (s : State) : Prop := s.script = []

/-- The state without the data it computes on: vector registers replaced by zero (the wide bank stays present or
absent) and memory emptied. What is left is position, counters, latch, status, port, script and part. -/
def State.control (s : State) : State := { s.clearVectors with mem := [] }

/-- An idle core with a descriptor on the port and a silent host. -/
abbrev State.offers (s : State) (cmd : Descriptor) : Prop :=
  s.upc = .idle ∧ s.port = some cmd ∧ s.script = []

end Sys2Proof.Machine
end

