-- ==== Sys2Proof/Certificates/Slice0/Obligations.lean ====
section
/-! DEFINITION. The statements about the model, for the provers. Each docstring names the rule of spec/ that the
statement formalises, or says what it is derived from. -/

namespace Sys2Proof.Machine

/-! ## Tables the statements compare the model with, written out from spec/ -/

/-- The list `P` of `ShiftRows`: output byte `i` takes input byte `P[i]` (spec/40_aes_round_functions.md R125). -/
def statedRowSources : List Nat := [0, 5, 10, 15, 4, 9, 14, 3, 8, 13, 2, 7, 12, 1, 6, 11]

/-- The matrix of `MixColumns`, row by row (spec/40_aes_round_functions.md R126). -/
def statedMixRows : List (List Byte) := [[2, 3, 1, 1], [1, 2, 3, 1], [1, 1, 2, 3], [3, 1, 1, 2]]

/-- Byte `4c+j` of a state after `SubBytes` and `ShiftRows` (R124, R125). -/
def statedShifted (v : Block) (c j : Nat) : Byte := sbox (byte v (statedRowSources.getD (4 * c + j) 0))

/-- Byte `i = 4c+k` of `Round(v, key)`: row `k` of the matrix times column `c`, then the key (R126, R127, R128). -/
def statedRoundByte (v key : Block) (i : Nat) : Byte :=
  let row := statedMixRows.getD (i % 4) []
  gmul (statedShifted v (i / 4) 0) (row.getD 0 0) ^^^ gmul (statedShifted v (i / 4) 1) (row.getD 1 0) ^^^
    gmul (statedShifted v (i / 4) 2) (row.getD 2 0) ^^^ gmul (statedShifted v (i / 4) 3) (row.getD 3 0) ^^^
    byte key i

/-- Byte `i` of `FinalRound(v, key)`: no column mixing (R129). -/
def statedFinalByte (v key : Block) (i : Nat) : Byte :=
  sbox (byte v (statedRowSources.getD i 0)) ^^^ byte key i

/-- The control words with a fixed key index (spec/30_encoding.md R97). -/
def statedFixedWords : List Nat :=
  [0x0000, 0x0011, 0x0012, 0x0013, 0x0E15, 0x0016, 0x0017, 0x0021, 0x0022, 0x0023, 0x0024, 0x0E26, 0x0027,
   0x0028, 0x0029, 0x003F]

/-- `LDK 0 .. LDK 14` (R97). -/
def statedLoadWords : List CtrlWord := (List.range 15).map fun r => BitVec.ofNat 16 (256 * r + 0x10)

/-- `BCK 0 .. BCK 14` (R97). -/
def statedBroadcastWords : List CtrlWord := (List.range 15).map fun r => BitVec.ofNat 16 (256 * r + 0x20)

/-- `ARK`; `RND 1 .. RND 13`; `FIN`; `STB` (R97). -/
def statedBlockWords : List CtrlWord :=
  [0x0013] ++ (List.range 13).map (fun r => BitVec.ofNat 16 (256 * (r + 1) + 0x14)) ++ [0x0E15, 0x0016]

/-- `ARK4`; `RND4 1 .. RND4 13`; `FIN4`; `STB4`; `INC4`; `BSW4` (R97). -/
def statedGroupWords : List CtrlWord :=
  [0x0024] ++ (List.range 13).map (fun r => BitVec.ofNat 16 (256 * (r + 1) + 0x25)) ++
    [0x0E26, 0x0027, 0x0028, 0x0023]

/-- `n` times the narrow loop body of `GENSEQ`: a block, then `INC`; `BSW` (spec/42_sequential_ctr.md R172). -/
def statedNarrowLoop (n : Nat) : List CtrlWord :=
  (List.replicate n (statedBlockWords ++ [0x0017, 0x0012])).flatten

/-- `xtime` as spec/40_aes_round_functions.md R121 writes it: `((b << 1) & 0xFF) ^ (0x1B if b[7] == 1 else 0x00)`. -/
def statedXtime (b : Byte) : Byte :=
  BitVec.ofNat 8 (((b.toNat * 2) % 256) ^^^ (if 128 ≤ b.toNat then 0x1B else 0x00))

/-- `xtime` taken `k` times. -/
def statedXtimes : Nat → Byte → Byte
  | 0, a     => a
  | k + 1, a => statedXtimes k (statedXtime a)

/-- The product of spec/40_aes_round_functions.md R122: the sum of `xtime^k(a)` over the bits `k` of `b` that are 1. -/
def statedProduct (a b : Byte) : Byte :=
  (List.range 8).foldl (fun r k => if b.getLsbD k then r ^^^ statedXtimes k a else r) 0

/-- The state in which a refused command stands after its acceptance step (spec/60_exceptions.md R245). -/
def statedRefused (s : State) (f : CmdFault) : State :=
  { s with upc := .clrs, done := false, err := some f, fsticky := true, port := none }

/-- The state in which a taken command stands after its acceptance step (spec/45_sequencer_and_host.md R212). -/
def statedTaken (s : State) (l : Latch) : State :=
  { s with latch := l, rc := 0, bi := 0, upc := .kld, done := false, err := none, port := none }

/-- The operations of the wide unit, with every key index (R97, units W and X less `CLR`). -/
def wideOperation : Instr → Prop
  | .bck _ | .bcc | .aof | .bsw4 | .ark4 | .rnd4 _ | .fin4 | .stb4 | .inc4 | .xl0 => True
  | .enc1 _ _ _ _ | .genseq _ _ _ _ | .genpar _ _ _ _ | .nop | .ldk _ | .ldc | .bsw | .ark | .rnd _ | .fin => False
  | .stb | .inc | .clr => False

end Sys2Proof.Machine

open Sys2Proof Sys2Proof.Machine

/-! ## Encoding -/

/-- Six control words written out from spec/30_encoding.md R97 and two descriptors written out from R91 decode to
the instructions they stand for. Three more control words, which R96 and R98 rule out, are rejected; that the decoder
refuses them, and the names it gives its reasons, are the model's (assumption 12). -/
def Obligations.SampleWordsDecodeAsTheSpecSays : Prop :=
  decodeControl 0x0514 = .ok (.rnd 5) ∧ decodeControl 0x0E15 = .ok .fin ∧
  decodeControl 0x0E20 = .ok (.bck 14) ∧ decodeControl 0x003F = .ok .clr ∧
  decodeControl 0x0016 = .ok .stb ∧ decodeControl 0x0027 = .ok .stb4 ∧
  decodeControl 0x0015 = .error .reservedKeyIndex ∧ decodeControl 0x0018 = .error .reservedOperation ∧
  decodeControl 0x1010 = .error .controlHighBits ∧
  decodeDescriptor 0x000000000000300000000000000020000000000000001000_0000000300000002
    = .ok (.genseq 3 0x1000 0x2000 0x3000) ∧
  decodeDescriptor 0x99AABBCCDDEEFF0011223344556677880123456789ABCDEF_0102030400000003
    = .ok (.genpar 0x01020304 0x0123456789ABCDEF 0x1122334455667788 0x99AABBCCDDEEFF00)

/-- Every well-formed instruction is what its own code decodes to (from R91, R92, R96, R97), also through the bytes
of its code. For a descriptor these bytes are the image of R105; the two-byte form of a control word, and telling the
formats apart by length, are the model's choice (assumption 16). -/
def Obligations.DecodeOfEncodeIsTheInstruction : Prop :=
  ∀ i : Instr, i.wf = true → decode (encode i) = .ok i ∧ decodeBytes (encode i).image = .ok i

/-- Each code has at most one meaning and each meaning one code: what decodes is well formed and encodes back to
the same bits (from R91 to R94, R96 to R98). -/
def Obligations.EncodeOfDecodeIsTheCode : Prop :=
  ∀ (c : Code) (i : Instr), decode c = .ok i → i.wf = true ∧ encode i = c

/-- R94: a descriptor is illegal exactly when `OPC` is not 1, 2 or 3 or a bit of `RSV0` is set. -/
def Obligations.DescriptorIsIllegalExactlyWhenReserved : Prop :=
  ∀ cmd : Descriptor,
    (∃ e, decodeDescriptor cmd = .error e) ↔
      (cmd.toNat % 256 ≠ 1 ∧ cmd.toNat % 256 ≠ 2 ∧ cmd.toNat % 256 ≠ 3) ∨ cmd.toNat / 256 % 2 ^ 24 ≠ 0

/-- The control words that decode are exactly those of the table of R97, key indices in its column `R`; every
other word is reserved (R98). -/
def Obligations.ControlWordsAreExactlyTheTable : Prop :=
  ∀ u : CtrlWord,
    (∃ i, decodeControl u = .ok i) ↔
      u.toNat ∈ statedFixedWords ∨
      (∃ r ≤ 14, u.toNat = 256 * r + 0x10 ∨ u.toNat = 256 * r + 0x20) ∨
      (∃ r, 1 ≤ r ∧ r ≤ 13 ∧ (u.toNat = 256 * r + 0x14 ∨ u.toNat = 256 * r + 0x25))

/-- Two stops by name: an operation whose key index is outside its column is refused, and on a part without the
wide bank every operation of the wide unit is refused. That these are refusals is the model's choice (assumption 12):
spec/30_encoding.md R98 forbids giving the former a meaning and lets a model refuse it or leave it undefined, and
spec/10_state.md R24 says that the registers of the latter do not exist there. -/
def Obligations.ReservedAndAbsentOperationsStop : Prop :=
  ∀ (i : Instr) (s : State),
    (i.wf = false → s.wide ≠ none ∨ ¬ wideOperation i → exec i s = .refused .reservedControlWord) ∧
    (wideOperation i → s.wide = none → exec i s = .refused .noWideUnit)

/-- The stops about memory, by name, of the four operations that access it: outside the address space a fault,
inside it but not admitted a refusal (spec/20_memory.md R60, R69; in states that no run reaches, assumption 11). -/
def Obligations.AccessOutsideItsRangeStops : Prop :=
  ∀ s : State,
    let inp := s.latch.inl.toNat
    let out := s.latch.outl.toNat + 16 * s.bi.toNat
    (∀ (r : KeyIndex), r.toNat ≤ 14 →
      (2 ^ s.aw < s.latch.ksl.toNat + 16 * r.toNat + 16 → exec (.ldk r) s = .fault .noSuchAddress) ∧
      (s.latch.ksl.toNat + 16 * r.toNat + 16 ≤ 2 ^ s.aw →
        s.admits .read (s.latch.ksl.toNat + 16 * r.toNat) 16 = false → exec (.ldk r) s = .refused .notAdmitted)) ∧
    (2 ^ s.aw < inp + 16 → exec .ldc s = .fault .noSuchAddress) ∧
    (inp + 16 ≤ 2 ^ s.aw → s.admits .read inp 16 = false → exec .ldc s = .refused .notAdmitted) ∧
    (2 ^ s.aw < out + 16 → exec .stb s = .fault .noSuchAddress) ∧
    (out + 16 ≤ 2 ^ s.aw → s.admits .write out 16 = false → exec .stb s = .refused .notAdmitted) ∧
    (s.wide ≠ none → 2 ^ s.aw < out + 64 → exec .stb4 s = .fault .noSuchAddress) ∧
    (s.wide ≠ none → out + 64 ≤ 2 ^ s.aw → s.admits .write out 64 = false →
      exec .stb4 s = .refused .notAdmitted)

/-! ## Steps -/

/-- R214: a step with a silent host and no descriptor to accept issues its position's control word, runs the
operation it decodes to, and does the bookkeeping. -/
def Obligations.StepRunsTheIssuedOperation : Prop :=
  ∀ (s : State) (i : Instr), s.script = [] → (s.upc = .idle → s.port = none) →
    decodeControl (s.upc.issues s.rc) = .ok i →
    step s = (match exec i s with
      | .next t    => .next (s.advance t)
      | .fault f   => .fault f
      | .refused r => .refused r)

/-- An idle core takes a descriptor that decodes to a command off the port and runs the command's meaning
(spec/45_sequencer_and_host.md R211). -/
def Obligations.StepRunsTheOfferedCommand : Prop :=
  ∀ (s : State) (cmd : Descriptor) (i : Instr), s.offers cmd → decodeDescriptor cmd = .ok i →
    step s = exec i { s with port := none }

/-- R214: "A step of the idle core with no descriptor offered changes nothing", and `NOP` changes nothing. -/
def Obligations.IdleStepAndNopChangeNothing : Prop :=
  (∀ s : State, exec .nop s = .next s) ∧
  (∀ s : State, s.script = [] → s.upc = .idle → s.port = none → step s = .next s)

/-- While the core is busy an offer just waits and nothing of it is latched (R211): the step of the core is the same
whatever the port holds, and the port is left as it is. The second clause, that a command executed on a busy core
changes nothing, is the model's reading (assumption 17): the machine never executes one there. -/
def Obligations.OfferWaitsWhileBusy : Prop :=
  (∀ (s t : State) (offer : Option Descriptor), s.script = [] → s.upc ≠ .idle → step s = .next t →
    t.port = s.port ∧ step { s with port := offer } = .next { t with port := offer }) ∧
  (∀ (s : State) (i : Instr), s.upc ≠ .idle → i.isCommand = true → exec i s = .next s)

/-- R201: the only way back to `IDLE` is through `CLRS`, which clears every vector register, then `DONE`. -/
def Obligations.OnlyWayBackIsThroughClear : Prop :=
  ∀ s t : State, s.script = [] → step s = .next t →
    (s.upc ≠ .idle → t.upc = .idle → s.upc = .done) ∧
    (t.upc = .done → s.upc = .clrs ∧ t.vectorsZero)

/-- The column "writes" of the table of spec/10_state.md R36, for every datapath operation that has a next state.
Position, counters, latch, status, port, script and part are never written; each register of the two banks is written
by the operations the table names and by no other, `INC`, `AOF` and `INC4` writing the low 32 bits of a counter only;
memory is written by `STB` and `STB4` only, at the bytes the table names. -/
def Obligations.DatapathOperationsWriteOnlyTheirRegisters : Prop :=
  ∀ (i : Instr) (s t : State), i.isCommand = false → exec i s = .next t →
    t = { s with narrow := t.narrow, wide := t.wide, mem := t.mem } ∧
    t.wide.isSome = s.wide.isSome ∧
    -- the narrow bank
    (i ∉ [.bsw, .ark, .fin, .clr] → (∀ r, i ≠ .rnd r) → t.narrow.s = s.narrow.s) ∧
    (i ∉ [.ldc, .inc, .xl0, .clr] → t.narrow.ctr = s.narrow.ctr) ∧
    (i = .inc → t.narrow.ctr.toNat / 2 ^ 32 = s.narrow.ctr.toNat / 2 ^ 32) ∧
    (∀ q : Fin 15, i ≠ .clr → i ≠ .ldk (BitVec.ofNat 4 q.val) → t.narrow.rk[q] = s.narrow.rk[q]) ∧
    -- the wide bank
    (∀ w v : WideBank, s.wide = some w → t.wide = some v →
      (i ∉ [.bsw4, .ark4, .fin4, .clr] → (∀ r, i ≠ .rnd4 r) → v.sv = w.sv) ∧
      (i ∉ [.bcc, .aof, .inc4, .clr] → v.ctrv = w.ctrv) ∧
      (i = .aof ∨ i = .inc4 → ∀ j : Fin 4, (v.ctrv.lane j).toNat / 2 ^ 32 = (w.ctrv.lane j).toNat / 2 ^ 32) ∧
      (∀ q : Fin 15, i ≠ .clr → i ≠ .bck (BitVec.ofNat 4 q.val) → v.wk[q] = w.wk[q])) ∧
    -- memory
    (i ≠ .stb → i ≠ .stb4 → t.mem = s.mem) ∧
    (Memory.wf s.mem → ∀ a,
      (i = .stb → a < s.latch.outl.toNat + 16 * s.bi.toNat ∨ s.latch.outl.toNat + 16 * s.bi.toNat + 16 ≤ a →
        Memory.byteAt t.mem a = Memory.byteAt s.mem a) ∧
      (i = .stb4 → a < s.latch.outl.toNat + 16 * s.bi.toNat ∨ s.latch.outl.toNat + 16 * s.bi.toNat + 64 ≤ a →
        Memory.byteAt t.mem a = Memory.byteAt s.mem a))

/-! ## Operations of the narrow unit -/

/-- R151. -/
def Obligations.LdkLoadsTheRoundKey : Prop :=
  ∀ (s : State) (r : KeyIndex) (h : r.toNat ≤ 14),
    s.inSpace (s.latch.ksl.toNat + 16 * r.toNat) 16 = true →
    s.admits .read (s.latch.ksl.toNat + 16 * r.toNat) 16 = true →
    ∃ v : Block, exec (.ldk r) s = .next (s.setRK ⟨r.toNat, by omega⟩ v) ∧
      ∀ i < 16, byte v i = Memory.byteAt s.mem (s.latch.ksl.toNat + 16 * r.toNat + i)

/-- R152. -/
def Obligations.LdcLoadsTheCounter : Prop :=
  ∀ s : State, s.inSpace s.latch.inl.toNat 16 = true → s.admits .read s.latch.inl.toNat 16 = true →
    ∃ v : Block, exec .ldc s = .next (s.setCtr v) ∧
      ∀ i < 16, byte v i = Memory.byteAt s.mem (s.latch.inl.toNat + i)

/-- R153, R130. -/
def Obligations.BswReversesTheCounter : Prop :=
  ∀ s : State, ∃ v : Block, exec .bsw s = .next (s.setS v) ∧ ∀ i < 16, byte v i = byte s.narrow.ctr (15 - i)

/-- R154. -/
def Obligations.ArkXorsRoundKeyZero : Prop :=
  ∀ s : State, ∃ v : Block, exec .ark s = .next (s.setS v) ∧
    ∀ i < 16, byte v i = byte s.narrow.s i ^^^ byte s.narrow.rk[0] i

/-- R155, R128: the round, byte by byte, with the list of R125 and the matrix of R126. -/
def Obligations.RndAppliesOneRound : Prop :=
  ∀ (s : State) (r : KeyIndex), 1 ≤ r.toNat → (h : r.toNat ≤ 13) →
    ∃ v : Block, exec (.rnd r) s = .next (s.setS v) ∧
      ∀ i < 16, byte v i = statedRoundByte s.narrow.s s.narrow.rk[r.toNat] i

/-- R156, R129. -/
def Obligations.FinAppliesTheFinalRound : Prop :=
  ∀ s : State, ∃ v : Block, exec .fin s = .next (s.setS v) ∧
    ∀ i < 16, byte v i = statedFinalByte s.narrow.s s.narrow.rk[14] i

/-- R157: the block goes to `OUTL + 16·BI`, byte `i` at offset `i`, and nothing else changes. -/
def Obligations.StbStoresTheBlock : Prop :=
  ∀ s : State, Memory.wf s.mem →
    s.inSpace (s.latch.outl.toNat + 16 * s.bi.toNat) 16 = true →
    s.admits .write (s.latch.outl.toNat + 16 * s.bi.toNat) 16 = true →
    ∃ m : Memory, exec .stb s = .next (s.setMem m) ∧ Memory.wf m ∧
      (∀ i < 16, Memory.byteAt m (s.latch.outl.toNat + 16 * s.bi.toNat + i) = byte s.narrow.s i) ∧
      (∀ a, a < s.latch.outl.toNat + 16 * s.bi.toNat ∨ s.latch.outl.toNat + 16 * s.bi.toNat + 16 ≤ a →
        Memory.byteAt m a = Memory.byteAt s.mem a)

/-- R171, R131: the low 32 bits count modulo 2^32, the upper 96 stay. -/
def Obligations.IncIncrementsTheLowWord : Prop :=
  ∀ s : State, ∃ v : Block, exec .inc s = .next (s.setCtr v) ∧
    v.toNat % 2 ^ 32 = (s.narrow.ctr.toNat + 1) % 2 ^ 32 ∧ v.toNat / 2 ^ 32 = s.narrow.ctr.toNat / 2 ^ 32

/-! ## Operations of the wide unit -/

/-- R181. -/
def Obligations.BckBroadcastsTheRoundKey : Prop :=
  ∀ (s : State) (w : WideBank) (r : KeyIndex) (h : r.toNat ≤ 14), s.wide = some w →
    ∃ v : Lanes, exec (.bck r) s = .next (s.setWide { w with wk := w.wk.set r.toNat v }) ∧
      ∀ j : Fin 4, v.lane j = s.narrow.rk[r.toNat]

/-- R182. -/
def Obligations.BccBroadcastsTheCounter : Prop :=
  ∀ (s : State) (w : WideBank), s.wide = some w →
    ∃ v : Lanes, exec .bcc s = .next (s.setWide { w with ctrv := v }) ∧ ∀ j : Fin 4, v.lane j = s.narrow.ctr

/-- R183. -/
def Obligations.AofAddsTheLaneOffsets : Prop :=
  ∀ (s : State) (w : WideBank), s.wide = some w →
    ∃ v : Lanes, exec .aof s = .next (s.setWide { w with ctrv := v }) ∧
      ∀ j : Fin 4, (v.lane j).toNat % 2 ^ 32 = ((w.ctrv.lane j).toNat + j.val) % 2 ^ 32 ∧
        (v.lane j).toNat / 2 ^ 32 = (w.ctrv.lane j).toNat / 2 ^ 32

/-- R184. -/
def Obligations.Bsw4ReversesEachLane : Prop :=
  ∀ (s : State) (w : WideBank), s.wide = some w →
    ∃ v : Lanes, exec .bsw4 s = .next (s.setWide { w with sv := v }) ∧
      ∀ j : Fin 4, ∀ i < 16, byte (v.lane j) i = byte (w.ctrv.lane j) (15 - i)

/-- R185. -/
def Obligations.Ark4XorsRoundKeyZero : Prop :=
  ∀ (s : State) (w : WideBank), s.wide = some w →
    ∃ v : Lanes, exec .ark4 s = .next (s.setWide { w with sv := v }) ∧
      ∀ j : Fin 4, ∀ i < 16, byte (v.lane j) i = byte (w.sv.lane j) i ^^^ byte ((w.wk[0]).lane j) i

/-- R186. -/
def Obligations.Rnd4AppliesOneRoundPerLane : Prop :=
  ∀ (s : State) (w : WideBank) (r : KeyIndex), s.wide = some w → 1 ≤ r.toNat → (h : r.toNat ≤ 13) →
    ∃ v : Lanes, exec (.rnd4 r) s = .next (s.setWide { w with sv := v }) ∧
      ∀ j : Fin 4, ∀ i < 16,
        byte (v.lane j) i = statedRoundByte (w.sv.lane j) ((w.wk[r.toNat]).lane j) i

/-- R187. -/
def Obligations.Fin4AppliesTheFinalRoundPerLane : Prop :=
  ∀ (s : State) (w : WideBank), s.wide = some w →
    ∃ v : Lanes, exec .fin4 s = .next (s.setWide { w with sv := v }) ∧
      ∀ j : Fin 4, ∀ i < 16, byte (v.lane j) i = statedFinalByte (w.sv.lane j) ((w.wk[14]).lane j) i

/-- Lane `j` goes to offset `16·j` of `OUTL + 16·BI`, and nothing else changes (the pseudocode of R188). -/
def Obligations.Stb4StoresTheFourLanes : Prop :=
  ∀ (s : State) (w : WideBank), s.wide = some w → Memory.wf s.mem →
    s.inSpace (s.latch.outl.toNat + 16 * s.bi.toNat) 64 = true →
    s.admits .write (s.latch.outl.toNat + 16 * s.bi.toNat) 64 = true →
    ∃ m : Memory, exec .stb4 s = .next (s.setMem m) ∧ Memory.wf m ∧
      (∀ j : Fin 4, ∀ i < 16,
        Memory.byteAt m (s.latch.outl.toNat + 16 * s.bi.toNat + 16 * j.val + i) = byte (w.sv.lane j) i) ∧
      (∀ a, a < s.latch.outl.toNat + 16 * s.bi.toNat ∨ s.latch.outl.toNat + 16 * s.bi.toNat + 64 ≤ a →
        Memory.byteAt m a = Memory.byteAt s.mem a)

/-- R189. -/
def Obligations.Inc4AdvancesEachLaneByFour : Prop :=
  ∀ (s : State) (w : WideBank), s.wide = some w →
    ∃ v : Lanes, exec .inc4 s = .next (s.setWide { w with ctrv := v }) ∧
      ∀ j : Fin 4, (v.lane j).toNat % 2 ^ 32 = ((w.ctrv.lane j).toNat + 4) % 2 ^ 32 ∧
        (v.lane j).toNat / 2 ^ 32 = (w.ctrv.lane j).toNat / 2 ^ 32

/-- R190. -/
def Obligations.Xl0HandsOverLaneZero : Prop :=
  ∀ (s : State) (w : WideBank), s.wide = some w →
    ∃ v : Block, exec .xl0 s = .next (s.setCtr v) ∧ ∀ i < 16, byte v i = byte (w.ctrv.lane 0) i

/-- R200: every register of both banks is zero afterwards, and nothing else changes. -/
def Obligations.ClrClearsEveryVectorRegister : Prop :=
  ∀ s : State, ∃ t : State, exec .clr s = .next t ∧
    t.narrow.s = 0 ∧ t.narrow.ctr = 0 ∧ (∀ r : Fin 15, t.narrow.rk[r] = 0) ∧
    (∀ w, t.wide = some w → ∀ j : Fin 4, w.sv.lane j = 0 ∧ w.ctrv.lane j = 0 ∧ ∀ r : Fin 15, (w.wk[r]).lane j = 0) ∧
    t.wide.isSome = s.wide.isSome ∧
    t = { s with narrow := t.narrow, wide := t.wide }

/-! ## Acceptance and faults -/

/-- What the acceptance step does with any descriptor whatever: the order of R104, the next states of R212 and R245
(with R241 to R244). The range check is that of spec/20_memory.md R70, its sums in unbounded integers; that it passes
`OUT = 2^AW` with a count of 0, against spec/30_encoding.md R95, is the model's reading (assumption 5). The latched
addresses are the `AW` low bits of the fields (spec/10_state.md R30), which differ from the fields for that one
descriptor only (assumption 21). -/
def Obligations.AcceptanceFollowsTheDecodingOrder : Prop :=
  ∀ (s : State) (cmd : Descriptor), s.offers cmd →
    let opc  := cmd.toNat % 2 ^ 8
    let rsv0 := cmd.toNat / 2 ^ 8 % 2 ^ 24
    let nblk := cmd.toNat / 2 ^ 32 % 2 ^ 32
    let ks   := cmd.toNat / 2 ^ 64 % 2 ^ 64
    let inp  := cmd.toNat / 2 ^ 128 % 2 ^ 64
    let out  := cmd.toNat / 2 ^ 192
    let n    := if opc = 1 then 1 else nblk
    let rangesOK :=
      ks + 240 ≤ 2 ^ s.aw ∧ inp + 16 ≤ 2 ^ s.aw ∧ out + 16 * n ≤ 2 ^ s.aw ∧
      s.admits .read ks 240 = true ∧ s.admits .read inp 16 = true ∧
      (n = 0 ∨ s.admits .write out (16 * n) = true)
    (rsv0 ≠ 0 ∨ (opc ≠ 1 ∧ opc ≠ 2 ∧ opc ≠ 3) → step s = .next (statedRefused s .fOpc)) ∧
    (rsv0 = 0 → opc = 3 → s.wide = none → step s = .next (statedRefused s .fCap)) ∧
    (rsv0 = 0 → opc = 1 ∨ opc = 2 ∨ (opc = 3 ∧ s.wide ≠ none) → ¬ rangesOK →
      step s = .next (statedRefused s .fRange)) ∧
    (rsv0 = 0 → opc = 1 ∨ opc = 2 ∨ (opc = 3 ∧ s.wide ≠ none) → rangesOK →
      step s = .next (statedTaken s
        { opl := BitVec.ofNat 8 opc, nbl := BitVec.ofNat 32 n, ksl := BitVec.ofNat 64 (ks % 2 ^ s.aw),
          inl := BitVec.ofNat 64 (inp % 2 ^ s.aw), outl := BitVec.ofNat 64 (out % 2 ^ s.aw) }))

/-- A refused command takes three steps, acceptance included, and leaves memory, latch and counters as they were,
every vector register zero, and its code in `STATUS` (spec/60_exceptions.md R245). -/
def Obligations.RefusedCommandEndsInThreeSteps : Prop :=
  ∀ (s : State) (cmd : Descriptor) (f : CmdFault), s.offers cmd →
    step s = .next (statedRefused s f) →
    ∃ t, run 3 s = .next t ∧
      t = { s.clearVectors with done := true, err := some f, fsticky := true, port := none } ∧
      t.status = BitVec.ofNat 32 (0x102 + 16 * (errCode (some f)).toNat)

/-- R246: `FSTICKY`, once set, stays set until a reset: every step but the host's reset keeps it. -/
def Obligations.FstickyStaysUntilReset : Prop :=
  ∀ s t : State, step s = .next t → s.fsticky = true → t.fsticky = false →
    ∃ rest, s.script = .reset :: rest

/-! ## Whole commands -/

/-- `ENC1` in range on an idle core is taken, and 38 further steps end in the state of the command-level
pseudocode of R150 (spec/45_sequencer_and_host.md R221), 39 steps in all (R223). The counter field is ignored. -/
def Obligations.Enc1RunsToItsCiphertext : Prop :=
  ∀ (s : State) (n : Count) (ks inp out : Addr), s.upc = .idle → s.script = [] →
    s.rangesOk 1 ks inp out = true →
    ∃ t, exec (.enc1 n ks inp out) s = .next t ∧
      run 38 t = .next (s.afterCommand { opl := 1, nbl := 1, ksl := ks, inl := inp, outl := out }
        (enc1Memory s.mem ks.toNat inp.toNat out.toNat))

/-- `GENSEQ` in range on an idle core is taken, and `20 + 20·n` further steps end in the state of the command-level
pseudocode of R170 (R221, R223). That a count of 0 with `OUT = 2^AW` is in range, and what `OUTL` then holds, is the
model's reading (assumptions 5 and 21). -/
def Obligations.GenseqRunsToItsKeystream : Prop :=
  ∀ (s : State) (n : Count) (ks ctr out : Addr), s.upc = .idle → s.script = [] →
    s.rangesOk n.toNat ks ctr out = true →
    ∃ t, exec (.genseq n ks ctr out) s = .next t ∧
      run (20 + 20 * n.toNat) t =
        .next (s.afterCommand
            { opl := 2, nbl := n, ksl := ks, inl := ctr, outl := BitVec.ofNat 64 (out.toNat % 2 ^ s.aw) }
          (genseqMemory s.mem n.toNat ks.toNat ctr.toNat out.toNat))

/-- `GENPAR` in range on an idle core with the wide unit is taken, and the further steps of R223 end in the state
of the command-level pseudocode of R180 (R221). That a count of 0 with `OUT = 2^AW` is in range, and what `OUTL` then
holds, is the model's reading (assumptions 5 and 21). -/
def Obligations.GenparRunsToItsKeystream : Prop :=
  ∀ (s : State) (n : Count) (ks ctr out : Addr), s.upc = .idle → s.script = [] → s.wide ≠ none →
    s.rangesOk n.toNat ks ctr out = true →
    ∃ t, exec (.genpar n ks ctr out) s = .next t ∧
      run (37 + 20 * (n.toNat / 4) + (if n.toNat % 4 ≠ 0 then 3 + 20 * (n.toNat % 4) else 0)) t =
        .next (s.afterCommand
            { opl := 3, nbl := n, ksl := ks, inl := ctr, outl := BitVec.ofNat 64 (out.toNat % 2 ^ s.aw) }
          (genparMemory s.mem n.toNat ks.toNat ctr.toNat out.toNat))

/-- The operations `ENC1` issues, in order (spec/41_single_block.md R158). -/
def Obligations.Enc1IssuesItsSequence : Prop :=
  ∀ (s : State) (n : Count) (ks inp out : Addr), s.offers (descriptor 0x01 n ks inp out) →
    s.rangesOk 1 ks inp out = true →
    issuedOperations 39 s = statedLoadWords ++ [0x0011, 0x0012] ++ statedBlockWords ++ [0x003F]

/-- The operations `GENSEQ` issues, in order (spec/42_sequential_ctr.md R172). What is in range at a count of 0 is
the model's reading (assumption 5). -/
def Obligations.GenseqIssuesItsSequence : Prop :=
  ∀ (s : State) (n : Count) (ks ctr out : Addr), s.offers (descriptor 0x02 n ks ctr out) →
    s.rangesOk n.toNat ks ctr out = true →
    issuedOperations (21 + 20 * n.toNat) s =
      statedLoadWords ++ [0x0011, 0x0012] ++ statedNarrowLoop n.toNat ++ [0x003F] ∧
    (issuedOperations (21 + 20 * n.toNat) s).length = 18 + 18 * n.toNat

/-- The operations `GENPAR` issues, in order (spec/43_parallel_ctr.md R191). What is in range at a count of 0 is the
model's reading (assumption 5). -/
def Obligations.GenparIssuesItsSequence : Prop :=
  ∀ (s : State) (n : Count) (ks ctr out : Addr), s.offers (descriptor 0x03 n ks ctr out) → s.wide ≠ none →
    s.rangesOk n.toNat ks ctr out = true →
    issuedOperations (genparSteps n.toNat) s =
      statedLoadWords ++ [0x0011] ++ statedBroadcastWords ++ [0x0021, 0x0022, 0x0023] ++
        (List.replicate (n.toNat / 4) statedGroupWords).flatten ++
        (if n.toNat % 4 ≠ 0 then [0x0029, 0x0012] ++ statedNarrowLoop (n.toNat % 4) else []) ++ [0x003F] ∧
    (issuedOperations (genparSteps n.toNat) s).length =
      34 + 18 * (n.toNat / 4) + (if n.toNat % 4 ≠ 0 then 2 + 18 * (n.toNat % 4) else 0) + 1

/-- Parallel and sequential equivalence at the command level, for every schedule, counter and count, wrap and
overlapping buffers included (spec/43_parallel_ctr.md R193), and `ENC1` as `GENSEQ` with one block
(spec/41_single_block.md R159). -/
def Obligations.ParallelWritesWhatSequentialWrites : Prop :=
  (∀ (m : Memory) (n ks ctr out : Nat), genparMemory m n ks ctr out = genseqMemory m n ks ctr out) ∧
  (∀ (m : Memory) (ks inp out : Nat), enc1Memory m ks inp out = genseqMemory m 1 ks inp out)

/-- The bytes of the keystream buffer after `GENSEQ`, and no others: block `i` is `Cipher256` of the reversed
`i`-th counter, byte `k` of it at `out + 16i + k` (spec/20_memory.md R63; spec/42_sequential_ctr.md R170). -/
def Obligations.GenseqFillsExactlyItsBuffer : Prop :=
  ∀ (m : Memory) (n ks ctr out : Nat), Memory.wf m →
    (∀ i < n, ∀ k < 16,
      Memory.byteAt (genseqMemory m n ks ctr out) (out + 16 * i + k) =
        byte (cipher256 (rev16 (add32Lo (Memory.readBlock m ctr) (BitVec.ofNat 32 i))) (Memory.schedule m ks)) k) ∧
    (∀ a, a < out ∨ out + 16 * n ≤ a →
      Memory.byteAt (genseqMemory m n ks ctr out) a = Memory.byteAt m a)

/-- Sharding: a stream of `n` blocks is a stream of `m` followed by one of `n - m` from the counter advanced by
`m`, at `out + 16·m` (spec/60_exceptions.md R252). -/
def Obligations.StreamsCanBeSharded : Prop :=
  ∀ (k : Vector Block 15) (c : Block) (out m n : Nat) (mem : Memory), m ≤ n →
    writeStream k c out n mem =
      writeStream k (add32Lo c (BitVec.ofNat 32 m)) (out + 16 * m) (n - m) (writeStream k c out m mem)

/-! ## Invariants -/

/-- The reset state of every part satisfies the invariant, whatever canonical memory it finds, whatever the host
offers and whatever moves the host will make. The zero latch it rests on is the model's choice (assumption 2). -/
def Obligations.ResetSatisfiesTheInvariant : Prop :=
  Inv State.reset ∧
  ∀ (p : Part) (m : Memory) (offer : Option Descriptor) (moves : List HostMove),
    1 ≤ p.aw → p.aw ≤ 64 → Memory.wf m →
    Inv { State.resetOf p with mem := m, port := offer, script := moves }

/-- Every step, of the core or of the host, keeps the invariant: idle means cleared, memory stays canonical, the
latched addresses stay `AW` bits wide, `BI` stays at most `NBL`, `RC` fits its position, a running command stays
admitted. -/
def Obligations.EveryStepKeepsTheInvariant : Prop :=
  ∀ s t : State, Inv s → step s = .next t → Inv t

/-- No step of the core stops: there is no fault after acceptance and no stuck state inside a command
(spec/60_exceptions.md R240; spec/45_sequencer_and_host.md R222, R223), from every state that meets the invariant and
whatever the host's script says, be the core's step one that the script lets it make or one in which an offer waits.
The host's own moves go on too, but for its stores and loads, which the model may stop (assumptions 8 and 11). -/
def Obligations.CoreNeverStops : Prop :=
  ∀ s : State, Inv s →
    (∀ (a : Addr) (b : Byte) (rest : List HostMove), s.script ≠ .store a b :: rest) →
    (∀ (a : Addr) (rest : List HostMove), s.script ≠ .load a :: rest) →
    ∃ t, step s = .next t

/-- From the reset state of any part, with any memory, offers and host moves, the core is cleared whenever it is
idle, after any number of steps (spec/10_state.md R35): what the two statements about the invariant give for a run. -/
def Obligations.IdleCoreHoldsNoSecret : Prop :=
  ∀ (p : Part) (m : Memory) (offer : Option Descriptor) (moves : List HostMove) (k : Nat) (s : State),
    1 ≤ p.aw → p.aw ≤ 64 → Memory.wf m →
    run k { State.resetOf p with mem := m, port := offer, script := moves } = .next s →
    s.upc = .idle → s.vectorsZero

/-- The core writes only into the keystream buffer of the running command, and only in the steps that issue `STB`
or `STB4` (spec/20_memory.md R63). -/
def Obligations.CoreWritesOnlyTheKeystreamBuffer : Prop :=
  ∀ s t : State, Inv s → s.script = [] → step s = .next t →
    ∀ a, Memory.byteAt t.mem a ≠ Memory.byteAt s.mem a →
      (s.upc = .nst ∨ s.upc = .wst) ∧
      s.latch.outl.toNat ≤ a ∧ a < s.latch.outl.toNat + 16 * s.latch.nbl.toNat

/-- The sequence of positions, counters, addresses and status bits never depends on key, counter or state bytes:
two states that agree on everything but vector registers and memory step to states that agree so
(spec/70_reset_and_hazards.md R281). -/
def Obligations.ControlNeverDependsOnData : Prop :=
  ∀ s s' t : State, s.script = [] → s.control = s'.control → step s = .next t →
    ∃ t', step s' = .next t' ∧ t.control = t'.control

/-- R31: the value of `CAP` is fixed for the life of the part; no step of the core or the host, reset included,
changes it, nor `AW` or `Admit`. -/
def Obligations.PartNeverChanges : Prop :=
  ∀ s t : State, step s = .next t → t.cap = s.cap ∧ t.aw = s.aw ∧ t.ranges = s.ranges

/-! ## Status, reset and host -/

/-- R32, R31: the fields of `STATUS` and `CAP` at their bits, every other bit zero. -/
def Obligations.StatusAndCapReadAsTheirFields : Prop :=
  ∀ s : State,
    s.status.toNat = (if s.upc = .idle then 0 else 1) + (if s.done then 2 else 0) +
      16 * (match s.err with | none => 0 | some .fOpc => 1 | some .fCap => 2 | some .fRange => 3) +
      (if s.fsticky then 256 else 0) ∧
    s.cap.toNat = (if s.wide = none then 0 else 1)

/-- R37: the reset state of a part, for the values the rule gives; the latch, which the rule leaves unspecified,
is not mentioned. -/
def Obligations.ResetLeavesTheStatedValues : Prop :=
  ∀ p : Part, let s := State.resetOf p
    s.narrow.s = 0 ∧ s.narrow.ctr = 0 ∧ (∀ r : Fin 15, s.narrow.rk[r] = 0) ∧
    (s.wide ≠ none ↔ p.hasWide = true) ∧
    (∀ w, s.wide = some w → ∀ j : Fin 4, w.sv.lane j = 0 ∧ w.ctrv.lane j = 0 ∧ ∀ r : Fin 15, (w.wk[r]).lane j = 0) ∧
    s.upc.code = 0 ∧ s.rc = 0 ∧ s.bi = 0 ∧ s.status = 0 ∧ s.cap = (if p.hasWide then 1 else 0)

/-- The `reset` input, also in mid-command: vector registers zero, the core idle, `STATUS` zero, no `DONE`, `CAP` at
its value, memory untouched (spec/70_reset_and_hazards.md R270). Of the latch, which the rule leaves unspecified, and of
the keystream buffer of a command cut short (R271; spec/93_implementation_defined.md U11) nothing is said. That the
reset takes the place of one whole step is the model's choice (assumption 9). -/
def Obligations.ResetInputAbandonsTheCommand : Prop :=
  ∀ (s : State) (rest : List HostMove), s.script = .reset :: rest →
    ∃ t, step s = .next t ∧ t.vectorsZero ∧ t.upc = .idle ∧ t.rc = 0 ∧ t.bi = 0 ∧ t.status = 0 ∧
      t.cap = s.cap ∧
      (∀ a, ¬ (s.upc ≠ .idle ∧ s.err = none ∧
          s.latch.outl.toNat ≤ a ∧ a < s.latch.outl.toNat + 16 * s.latch.nbl.toNat) →
        Memory.byteAt t.mem a = Memory.byteAt s.mem a)

/-- From acceptance to `DONE` a host store into any of the three buffers, or a host load from the keystream
buffer, is refused; a store anywhere else is an ordinary store and a load anywhere else changes nothing (spec/20_memory.md R73, as
spec/93_implementation_defined.md U4 and U12 treat it; the window is the model's reading, assumption 8). -/
def Obligations.HostMayNotTouchLentBuffers : Prop :=
  ∀ (s : State) (a : Addr) (b : Byte) (rest : List HostMove), a.toNat + 1 ≤ 2 ^ s.aw →
    let inOut := s.latch.outl.toNat ≤ a.toNat ∧ a.toNat < s.latch.outl.toNat + 16 * s.latch.nbl.toNat
    let inKey := s.latch.ksl.toNat ≤ a.toNat ∧ a.toNat < s.latch.ksl.toNat + 240
    let inIn  := s.latch.inl.toNat ≤ a.toNat ∧ a.toNat < s.latch.inl.toNat + 16
    let lent  := s.upc ≠ .idle ∧ s.err = none
    (lent → inOut ∨ inKey ∨ inIn → s.script = .store a b :: rest → step s = .refused .bufferInUse) ∧
    (lent → inOut → s.script = .load a :: rest → step s = .refused .bufferInUse) ∧
    (¬ (lent ∧ (inOut ∨ inKey ∨ inIn)) → s.script = .store a b :: rest →
      step s = .next { s with mem := Memory.storeByte s.mem a.toNat b, script := rest }) ∧
    (¬ (lent ∧ inOut) → s.script = .load a :: rest → step s = .next { s with script := rest })

/-- R217: reading `STATUS` or `CAP` has no side effect and is allowed at any time. -/
def Obligations.StatusReadsHaveNoSideEffect : Prop :=
  ∀ (s : State) (rest : List HostMove),
    s.script = .pollStatus :: rest ∨ s.script = .probeCap :: rest → step s = .next { s with script := rest }

/-- The pseudo-command `GEN` never meets `F_CAP`: what the host's software makes of it from `CAP` is a command this
part can execute (spec/30_encoding.md R102). -/
def Obligations.GenIsNeverRefusedForCapability : Prop :=
  ∀ (s : State) (n : Count) (ks ctr out : Addr), s.upc = .idle →
    ∃ t, exec (Instr.gen s.cap n ks ctr out) s = .next t ∧ t.err ≠ some .fCap ∧
      (s.rangesOk n.toNat ks ctr out = true → t.err = none ∧ t.upc = .kld)

/-! ## The functions of the cipher -/

/-- R123: the printed substitution table is the algebraic one: `SBox(0)` is the affine map of 0, and every other
byte has an inverse `x` with `gmul(a, x) = 1` whose affine map is `SBox(a)`. -/
def Obligations.SboxIsInverseThenAffine : Prop :=
  sbox 0 = sboxAffine 0 ∧ ∀ a : Byte, a ≠ 0 → ∃ x : Byte, gmul a x = 1 ∧ sbox a = sboxAffine x

/-- The pure functions of the pipeline: `xtime` is that of R121, `gmul` the product of R122, so that `gmul(a, 2)` is
`xtime(a)` and `gmul(a, 3)` is `xtime(a) ^ a`; and the identities of the others: `Rev16` is its own inverse (R130), `SubBytes` and `ShiftRows` commute
(R133), `MixColumns` is linear (R126), counter additions compose (R131). -/
def Obligations.CipherFunctionIdentities : Prop :=
  (∀ a : Byte, xtime a = statedXtime a) ∧
  (∀ a b : Byte, gmul a b = statedProduct a b) ∧
  (∀ a : Byte, gmul a 2 = statedXtime a ∧ gmul a 3 = statedXtime a ^^^ a) ∧
  (∀ v : Block, rev16 (rev16 v) = v) ∧
  (∀ v : Block, shiftRows (subBytes v) = subBytes (shiftRows v)) ∧
  (∀ v w : Block, mixColumns (v ^^^ w) = mixColumns v ^^^ mixColumns w) ∧
  (∀ (v : Block) (a b : BitVec 32), add32Lo (add32Lo v a) b = add32Lo v (a + b))

/-- The counters of a run of `n` blocks are those of a true 128-bit counter if and only if the low 32 bits do not
overflow, `C[31:0] + n <= 2^32` (spec/70_reset_and_hazards.md R273, at the level of counters). -/
def Obligations.CountersAreTrueExactlyWithoutOverflow : Prop :=
  ∀ (c : Block) (n : Nat), 1 ≤ n → n < 2 ^ 32 →
    ((∀ i < n, add32Lo c (BitVec.ofNat 32 i) = c + BitVec.ofNat 128 i) ↔ c.toNat % 2 ^ 32 + n ≤ 2 ^ 32)
end

