-- ==== Sys2Proof/Laws/State.lean ====
section
/-! SUPPORT. One lemma per field and update, true by `rfl`, so that no later proof unfolds a record update. -/

namespace Sys2Proof.Machine

/-! ## `setS` -/

@[simp] theorem State.setS_wide (v : Block) (s : State) : (State.setS v s).wide = s.wide := rfl
@[simp] theorem State.setS_upc (v : Block) (s : State) : (State.setS v s).upc = s.upc := rfl
@[simp] theorem State.setS_rc (v : Block) (s : State) : (State.setS v s).rc = s.rc := rfl
@[simp] theorem State.setS_bi (v : Block) (s : State) : (State.setS v s).bi = s.bi := rfl
@[simp] theorem State.setS_latch (v : Block) (s : State) : (State.setS v s).latch = s.latch := rfl
@[simp] theorem State.setS_done (v : Block) (s : State) : (State.setS v s).done = s.done := rfl
@[simp] theorem State.setS_err (v : Block) (s : State) : (State.setS v s).err = s.err := rfl
@[simp] theorem State.setS_fsticky (v : Block) (s : State) : (State.setS v s).fsticky = s.fsticky := rfl
@[simp] theorem State.setS_mem (v : Block) (s : State) : (State.setS v s).mem = s.mem := rfl
@[simp] theorem State.setS_port (v : Block) (s : State) : (State.setS v s).port = s.port := rfl
@[simp] theorem State.setS_script (v : Block) (s : State) : (State.setS v s).script = s.script := rfl
@[simp] theorem State.setS_aw (v : Block) (s : State) : (State.setS v s).aw = s.aw := rfl
@[simp] theorem State.setS_ranges (v : Block) (s : State) : (State.setS v s).ranges = s.ranges := rfl

/-! ## `setCtr` -/

@[simp] theorem State.setCtr_wide (v : Block) (s : State) : (State.setCtr v s).wide = s.wide := rfl
@[simp] theorem State.setCtr_upc (v : Block) (s : State) : (State.setCtr v s).upc = s.upc := rfl
@[simp] theorem State.setCtr_rc (v : Block) (s : State) : (State.setCtr v s).rc = s.rc := rfl
@[simp] theorem State.setCtr_bi (v : Block) (s : State) : (State.setCtr v s).bi = s.bi := rfl
@[simp] theorem State.setCtr_latch (v : Block) (s : State) : (State.setCtr v s).latch = s.latch := rfl
@[simp] theorem State.setCtr_done (v : Block) (s : State) : (State.setCtr v s).done = s.done := rfl
@[simp] theorem State.setCtr_err (v : Block) (s : State) : (State.setCtr v s).err = s.err := rfl
@[simp] theorem State.setCtr_fsticky (v : Block) (s : State) : (State.setCtr v s).fsticky = s.fsticky := rfl
@[simp] theorem State.setCtr_mem (v : Block) (s : State) : (State.setCtr v s).mem = s.mem := rfl
@[simp] theorem State.setCtr_port (v : Block) (s : State) : (State.setCtr v s).port = s.port := rfl
@[simp] theorem State.setCtr_script (v : Block) (s : State) : (State.setCtr v s).script = s.script := rfl
@[simp] theorem State.setCtr_aw (v : Block) (s : State) : (State.setCtr v s).aw = s.aw := rfl
@[simp] theorem State.setCtr_ranges (v : Block) (s : State) : (State.setCtr v s).ranges = s.ranges := rfl

/-! ## `setRK` -/

@[simp] theorem State.setRK_wide (r : Fin 15) (v : Block) (s : State) : (State.setRK r v s).wide = s.wide := rfl
@[simp] theorem State.setRK_upc (r : Fin 15) (v : Block) (s : State) : (State.setRK r v s).upc = s.upc := rfl
@[simp] theorem State.setRK_rc (r : Fin 15) (v : Block) (s : State) : (State.setRK r v s).rc = s.rc := rfl
@[simp] theorem State.setRK_bi (r : Fin 15) (v : Block) (s : State) : (State.setRK r v s).bi = s.bi := rfl
@[simp] theorem State.setRK_latch (r : Fin 15) (v : Block) (s : State) : (State.setRK r v s).latch = s.latch := rfl
@[simp] theorem State.setRK_done (r : Fin 15) (v : Block) (s : State) : (State.setRK r v s).done = s.done := rfl
@[simp] theorem State.setRK_err (r : Fin 15) (v : Block) (s : State) : (State.setRK r v s).err = s.err := rfl
@[simp] theorem State.setRK_fsticky (r : Fin 15) (v : Block) (s : State) : (State.setRK r v s).fsticky = s.fsticky := rfl
@[simp] theorem State.setRK_mem (r : Fin 15) (v : Block) (s : State) : (State.setRK r v s).mem = s.mem := rfl
@[simp] theorem State.setRK_port (r : Fin 15) (v : Block) (s : State) : (State.setRK r v s).port = s.port := rfl
@[simp] theorem State.setRK_script (r : Fin 15) (v : Block) (s : State) : (State.setRK r v s).script = s.script := rfl
@[simp] theorem State.setRK_aw (r : Fin 15) (v : Block) (s : State) : (State.setRK r v s).aw = s.aw := rfl
@[simp] theorem State.setRK_ranges (r : Fin 15) (v : Block) (s : State) : (State.setRK r v s).ranges = s.ranges := rfl

/-! ## `setMem` -/

@[simp] theorem State.setMem_narrow (m : Memory) (s : State) : (State.setMem m s).narrow = s.narrow := rfl
@[simp] theorem State.setMem_wide (m : Memory) (s : State) : (State.setMem m s).wide = s.wide := rfl
@[simp] theorem State.setMem_upc (m : Memory) (s : State) : (State.setMem m s).upc = s.upc := rfl
@[simp] theorem State.setMem_rc (m : Memory) (s : State) : (State.setMem m s).rc = s.rc := rfl
@[simp] theorem State.setMem_bi (m : Memory) (s : State) : (State.setMem m s).bi = s.bi := rfl
@[simp] theorem State.setMem_latch (m : Memory) (s : State) : (State.setMem m s).latch = s.latch := rfl
@[simp] theorem State.setMem_done (m : Memory) (s : State) : (State.setMem m s).done = s.done := rfl
@[simp] theorem State.setMem_err (m : Memory) (s : State) : (State.setMem m s).err = s.err := rfl
@[simp] theorem State.setMem_fsticky (m : Memory) (s : State) : (State.setMem m s).fsticky = s.fsticky := rfl
@[simp] theorem State.setMem_mem (m : Memory) (s : State) : (State.setMem m s).mem = m := rfl
@[simp] theorem State.setMem_port (m : Memory) (s : State) : (State.setMem m s).port = s.port := rfl
@[simp] theorem State.setMem_script (m : Memory) (s : State) : (State.setMem m s).script = s.script := rfl
@[simp] theorem State.setMem_aw (m : Memory) (s : State) : (State.setMem m s).aw = s.aw := rfl
@[simp] theorem State.setMem_ranges (m : Memory) (s : State) : (State.setMem m s).ranges = s.ranges := rfl

/-! ## `setWide` -/

@[simp] theorem State.setWide_narrow (w : WideBank) (s : State) : (State.setWide w s).narrow = s.narrow := rfl
@[simp] theorem State.setWide_wide (w : WideBank) (s : State) : (State.setWide w s).wide = some w := rfl
@[simp] theorem State.setWide_upc (w : WideBank) (s : State) : (State.setWide w s).upc = s.upc := rfl
@[simp] theorem State.setWide_rc (w : WideBank) (s : State) : (State.setWide w s).rc = s.rc := rfl
@[simp] theorem State.setWide_bi (w : WideBank) (s : State) : (State.setWide w s).bi = s.bi := rfl
@[simp] theorem State.setWide_latch (w : WideBank) (s : State) : (State.setWide w s).latch = s.latch := rfl
@[simp] theorem State.setWide_done (w : WideBank) (s : State) : (State.setWide w s).done = s.done := rfl
@[simp] theorem State.setWide_err (w : WideBank) (s : State) : (State.setWide w s).err = s.err := rfl
@[simp] theorem State.setWide_fsticky (w : WideBank) (s : State) : (State.setWide w s).fsticky = s.fsticky := rfl
@[simp] theorem State.setWide_mem (w : WideBank) (s : State) : (State.setWide w s).mem = s.mem := rfl
@[simp] theorem State.setWide_port (w : WideBank) (s : State) : (State.setWide w s).port = s.port := rfl
@[simp] theorem State.setWide_script (w : WideBank) (s : State) : (State.setWide w s).script = s.script := rfl
@[simp] theorem State.setWide_aw (w : WideBank) (s : State) : (State.setWide w s).aw = s.aw := rfl
@[simp] theorem State.setWide_ranges (w : WideBank) (s : State) : (State.setWide w s).ranges = s.ranges := rfl

/-! ## `clearVectors` -/

@[simp] theorem State.clearVectors_narrow (s : State) : (s.clearVectors).narrow = NarrowBank.zero := rfl
@[simp] theorem State.clearVectors_wide (s : State) : (s.clearVectors).wide = s.wide.map fun _ => WideBank.zero := rfl
@[simp] theorem State.clearVectors_upc (s : State) : (s.clearVectors).upc = s.upc := rfl
@[simp] theorem State.clearVectors_rc (s : State) : (s.clearVectors).rc = s.rc := rfl
@[simp] theorem State.clearVectors_bi (s : State) : (s.clearVectors).bi = s.bi := rfl
@[simp] theorem State.clearVectors_latch (s : State) : (s.clearVectors).latch = s.latch := rfl
@[simp] theorem State.clearVectors_done (s : State) : (s.clearVectors).done = s.done := rfl
@[simp] theorem State.clearVectors_err (s : State) : (s.clearVectors).err = s.err := rfl
@[simp] theorem State.clearVectors_fsticky (s : State) : (s.clearVectors).fsticky = s.fsticky := rfl
@[simp] theorem State.clearVectors_mem (s : State) : (s.clearVectors).mem = s.mem := rfl
@[simp] theorem State.clearVectors_port (s : State) : (s.clearVectors).port = s.port := rfl
@[simp] theorem State.clearVectors_script (s : State) : (s.clearVectors).script = s.script := rfl
@[simp] theorem State.clearVectors_aw (s : State) : (s.clearVectors).aw = s.aw := rfl
@[simp] theorem State.clearVectors_ranges (s : State) : (s.clearVectors).ranges = s.ranges := rfl

/-! ## `recordAcceptance` -/

@[simp] theorem State.recordAcceptance_narrow (e : Option CmdFault) (s : State) : (State.recordAcceptance e s).narrow = s.narrow := rfl
@[simp] theorem State.recordAcceptance_wide (e : Option CmdFault) (s : State) : (State.recordAcceptance e s).wide = s.wide := rfl
@[simp] theorem State.recordAcceptance_upc (e : Option CmdFault) (s : State) : (State.recordAcceptance e s).upc = s.upc := rfl
@[simp] theorem State.recordAcceptance_rc (e : Option CmdFault) (s : State) : (State.recordAcceptance e s).rc = s.rc := rfl
@[simp] theorem State.recordAcceptance_bi (e : Option CmdFault) (s : State) : (State.recordAcceptance e s).bi = s.bi := rfl
@[simp] theorem State.recordAcceptance_latch (e : Option CmdFault) (s : State) : (State.recordAcceptance e s).latch = s.latch := rfl
@[simp] theorem State.recordAcceptance_done (e : Option CmdFault) (s : State) : (State.recordAcceptance e s).done = false := rfl
@[simp] theorem State.recordAcceptance_err (e : Option CmdFault) (s : State) : (State.recordAcceptance e s).err = e := rfl
@[simp] theorem State.recordAcceptance_fsticky (e : Option CmdFault) (s : State) : (State.recordAcceptance e s).fsticky = (s.fsticky || e.isSome) := rfl
@[simp] theorem State.recordAcceptance_mem (e : Option CmdFault) (s : State) : (State.recordAcceptance e s).mem = s.mem := rfl
@[simp] theorem State.recordAcceptance_port (e : Option CmdFault) (s : State) : (State.recordAcceptance e s).port = s.port := rfl
@[simp] theorem State.recordAcceptance_script (e : Option CmdFault) (s : State) : (State.recordAcceptance e s).script = s.script := rfl
@[simp] theorem State.recordAcceptance_aw (e : Option CmdFault) (s : State) : (State.recordAcceptance e s).aw = s.aw := rfl
@[simp] theorem State.recordAcceptance_ranges (e : Option CmdFault) (s : State) : (State.recordAcceptance e s).ranges = s.ranges := rfl

/-! ## `accept` -/

@[simp] theorem State.accept_narrow (l : Latch) (s : State) : (State.accept l s).narrow = s.narrow := rfl
@[simp] theorem State.accept_wide (l : Latch) (s : State) : (State.accept l s).wide = s.wide := rfl
@[simp] theorem State.accept_upc (l : Latch) (s : State) : (State.accept l s).upc = .kld := rfl
@[simp] theorem State.accept_rc (l : Latch) (s : State) : (State.accept l s).rc = 0 := rfl
@[simp] theorem State.accept_bi (l : Latch) (s : State) : (State.accept l s).bi = 0 := rfl
@[simp] theorem State.accept_latch (l : Latch) (s : State) : (State.accept l s).latch = Latch.fit s.aw l := rfl
@[simp] theorem State.accept_done (l : Latch) (s : State) : (State.accept l s).done = false := rfl
@[simp] theorem State.accept_err (l : Latch) (s : State) : (State.accept l s).err = none := rfl
@[simp] theorem State.accept_mem (l : Latch) (s : State) : (State.accept l s).mem = s.mem := rfl
@[simp] theorem State.accept_port (l : Latch) (s : State) : (State.accept l s).port = s.port := rfl
@[simp] theorem State.accept_script (l : Latch) (s : State) : (State.accept l s).script = s.script := rfl
@[simp] theorem State.accept_aw (l : Latch) (s : State) : (State.accept l s).aw = s.aw := rfl
@[simp] theorem State.accept_ranges (l : Latch) (s : State) : (State.accept l s).ranges = s.ranges := rfl

/-! ## `takeFault` -/

@[simp] theorem State.takeFault_narrow (f : CmdFault) (s : State) : (State.takeFault f s).narrow = s.narrow := rfl
@[simp] theorem State.takeFault_wide (f : CmdFault) (s : State) : (State.takeFault f s).wide = s.wide := rfl
@[simp] theorem State.takeFault_upc (f : CmdFault) (s : State) : (State.takeFault f s).upc = .clrs := rfl
@[simp] theorem State.takeFault_rc (f : CmdFault) (s : State) : (State.takeFault f s).rc = s.rc := rfl
@[simp] theorem State.takeFault_bi (f : CmdFault) (s : State) : (State.takeFault f s).bi = s.bi := rfl
@[simp] theorem State.takeFault_latch (f : CmdFault) (s : State) : (State.takeFault f s).latch = s.latch := rfl
@[simp] theorem State.takeFault_done (f : CmdFault) (s : State) : (State.takeFault f s).done = false := rfl
@[simp] theorem State.takeFault_err (f : CmdFault) (s : State) : (State.takeFault f s).err = some f := rfl
@[simp] theorem State.takeFault_mem (f : CmdFault) (s : State) : (State.takeFault f s).mem = s.mem := rfl
@[simp] theorem State.takeFault_port (f : CmdFault) (s : State) : (State.takeFault f s).port = s.port := rfl
@[simp] theorem State.takeFault_script (f : CmdFault) (s : State) : (State.takeFault f s).script = s.script := rfl
@[simp] theorem State.takeFault_aw (f : CmdFault) (s : State) : (State.takeFault f s).aw = s.aw := rfl
@[simp] theorem State.takeFault_ranges (f : CmdFault) (s : State) : (State.takeFault f s).ranges = s.ranges := rfl

/-! ## `complete` -/

@[simp] theorem State.complete_narrow (s : State) : (s.complete).narrow = s.narrow := rfl
@[simp] theorem State.complete_wide (s : State) : (s.complete).wide = s.wide := rfl
@[simp] theorem State.complete_upc (s : State) : (s.complete).upc = .idle := rfl
@[simp] theorem State.complete_rc (s : State) : (s.complete).rc = s.rc := rfl
@[simp] theorem State.complete_bi (s : State) : (s.complete).bi = s.bi := rfl
@[simp] theorem State.complete_latch (s : State) : (s.complete).latch = s.latch := rfl
@[simp] theorem State.complete_done (s : State) : (s.complete).done = true := rfl
@[simp] theorem State.complete_err (s : State) : (s.complete).err = s.err := rfl
@[simp] theorem State.complete_fsticky (s : State) : (s.complete).fsticky = s.fsticky := rfl
@[simp] theorem State.complete_mem (s : State) : (s.complete).mem = s.mem := rfl
@[simp] theorem State.complete_port (s : State) : (s.complete).port = s.port := rfl
@[simp] theorem State.complete_script (s : State) : (s.complete).script = s.script := rfl
@[simp] theorem State.complete_aw (s : State) : (s.complete).aw = s.aw := rfl
@[simp] theorem State.complete_ranges (s : State) : (s.complete).ranges = s.ranges := rfl

/-! ## `goto` -/

@[simp] theorem State.goto_narrow (p : Pos) (s : State) : (State.goto p s).narrow = s.narrow := rfl
@[simp] theorem State.goto_wide (p : Pos) (s : State) : (State.goto p s).wide = s.wide := rfl
@[simp] theorem State.goto_upc (p : Pos) (s : State) : (State.goto p s).upc = p := rfl
@[simp] theorem State.goto_rc (p : Pos) (s : State) : (State.goto p s).rc = s.rc := rfl
@[simp] theorem State.goto_bi (p : Pos) (s : State) : (State.goto p s).bi = s.bi := rfl
@[simp] theorem State.goto_latch (p : Pos) (s : State) : (State.goto p s).latch = s.latch := rfl
@[simp] theorem State.goto_done (p : Pos) (s : State) : (State.goto p s).done = s.done := rfl
@[simp] theorem State.goto_err (p : Pos) (s : State) : (State.goto p s).err = s.err := rfl
@[simp] theorem State.goto_fsticky (p : Pos) (s : State) : (State.goto p s).fsticky = s.fsticky := rfl
@[simp] theorem State.goto_mem (p : Pos) (s : State) : (State.goto p s).mem = s.mem := rfl
@[simp] theorem State.goto_port (p : Pos) (s : State) : (State.goto p s).port = s.port := rfl
@[simp] theorem State.goto_script (p : Pos) (s : State) : (State.goto p s).script = s.script := rfl
@[simp] theorem State.goto_aw (p : Pos) (s : State) : (State.goto p s).aw = s.aw := rfl
@[simp] theorem State.goto_ranges (p : Pos) (s : State) : (State.goto p s).ranges = s.ranges := rfl

/-! ## Registers inside the narrow bank -/

@[simp] theorem State.setS_s (v : Block) (s : State) : (State.setS v s).narrow.s = v := rfl
@[simp] theorem State.setS_ctr (v : Block) (s : State) : (State.setS v s).narrow.ctr = s.narrow.ctr := rfl
@[simp] theorem State.setS_rk (v : Block) (s : State) : (State.setS v s).narrow.rk = s.narrow.rk := rfl
@[simp] theorem State.setCtr_s (v : Block) (s : State) : (State.setCtr v s).narrow.s = s.narrow.s := rfl
@[simp] theorem State.setCtr_ctr (v : Block) (s : State) : (State.setCtr v s).narrow.ctr = v := rfl
@[simp] theorem State.setCtr_rk (v : Block) (s : State) : (State.setCtr v s).narrow.rk = s.narrow.rk := rfl
@[simp] theorem State.setRK_s (r : Fin 15) (v : Block) (s : State) :
    (State.setRK r v s).narrow.s = s.narrow.s := rfl
@[simp] theorem State.setRK_ctr (r : Fin 15) (v : Block) (s : State) :
    (State.setRK r v s).narrow.ctr = s.narrow.ctr := rfl
@[simp] theorem State.setRK_rk (r : Fin 15) (v : Block) (s : State) :
    (State.setRK r v s).narrow.rk = s.narrow.rk.set r v := rfl
@[simp] theorem State.accept_fsticky (l : Latch) (s : State) : (State.accept l s).fsticky = s.fsticky := by
  simp [State.accept, State.recordAcceptance]
@[simp] theorem State.takeFault_fsticky (f : CmdFault) (s : State) : (State.takeFault f s).fsticky = true := by
  simp [State.takeFault, State.recordAcceptance]

/-! ## `Latch.fit` -/

@[simp] theorem Latch.fit_opl (aw : Nat) (l : Latch) : (Latch.fit aw l).opl = l.opl := rfl
@[simp] theorem Latch.fit_nbl (aw : Nat) (l : Latch) : (Latch.fit aw l).nbl = l.nbl := rfl
@[simp] theorem Latch.fit_ksl (aw : Nat) (l : Latch) : (Latch.fit aw l).ksl = fitAddr aw l.ksl := rfl
@[simp] theorem Latch.fit_inl (aw : Nat) (l : Latch) : (Latch.fit aw l).inl = fitAddr aw l.inl := rfl
@[simp] theorem Latch.fit_outl (aw : Nat) (l : Latch) : (Latch.fit aw l).outl = fitAddr aw l.outl := rfl

/-- The number an `AW`-bit address register holds. -/
@[simp] theorem fitAddr_toNat (aw : Nat) (a : Addr) : (fitAddr aw a).toNat = a.toNat % 2 ^ aw := by
  have h : a.toNat % 2 ^ aw ≤ a.toNat := Nat.mod_le _ _
  simp only [fitAddr, BitVec.toNat_ofNat]
  exact Nat.mod_eq_of_lt (Nat.lt_of_le_of_lt h a.isLt)

/-- A latched address is below `2^AW`. -/
theorem fitAddr_lt (aw : Nat) (a : Addr) : (fitAddr aw a).toNat < 2 ^ aw := by
  rw [fitAddr_toNat]; exact Nat.mod_lt _ (Nat.two_pow_pos aw)

/-- An address that exists is latched as it is. -/
theorem fitAddr_of_lt {aw : Nat} {a : Addr} (h : a.toNat < 2 ^ aw) : fitAddr aw a = a := by
  apply BitVec.eq_of_toNat_eq
  rw [fitAddr_toNat, Nat.mod_eq_of_lt h]

/-! ## What the range check and the effective addresses depend on -/

@[simp] theorem State.inSpace_setMem (m : Memory) (s : State) (a n : Nat) :
    (State.setMem m s).inSpace a n = s.inSpace a n := rfl
@[simp] theorem State.admits_setMem (m : Memory) (s : State) (k : AccessKind) (a n : Nat) :
    (State.setMem m s).admits k a n = s.admits k a n := rfl
@[simp] theorem State.status_setS (v : Block) (s : State) : (State.setS v s).status = s.status := rfl
@[simp] theorem State.status_setCtr (v : Block) (s : State) : (State.setCtr v s).status = s.status := rfl
@[simp] theorem State.status_setRK (r : Fin 15) (v : Block) (s : State) :
    (State.setRK r v s).status = s.status := rfl
@[simp] theorem State.status_setMem (m : Memory) (s : State) : (State.setMem m s).status = s.status := rfl
@[simp] theorem State.status_setWide (w : WideBank) (s : State) : (State.setWide w s).status = s.status := rfl
@[simp] theorem State.status_clearVectors (s : State) : s.clearVectors.status = s.status := rfl

/-- Clearing keeps the wide bank present or absent. -/
@[simp] theorem State.clearVectors_hasWide (s : State) : s.clearVectors.hasWide = s.hasWide := by
  simp [State.hasWide]

/-- Clearing twice is clearing once (spec/44_secret_hygiene.md R200). -/
@[simp] theorem State.clearVectors_clearVectors (s : State) : s.clearVectors.clearVectors = s.clearVectors := by
  cases s with
  | mk narrow wide => cases wide <;> rfl

end Sys2Proof.Machine
end

