-- ==== Sys2Proof/Laws/Bytes.lean ====
section
/-! SUPPORT. Bytes of blocks: reading a byte of each function of the cipher pipeline, and the two halves of a
counter (spec/00_scope.md R6, R7; spec/40_aes_round_functions.md). -/

namespace Sys2Proof.Machine

/-- The lowest byte of a concatenation. -/
theorem extract_append_low {n : Nat} (x : BitVec n) (y : Byte) : (x ++ y).extractLsb' 0 8 = y := by
  apply BitVec.eq_of_getLsbD_eq
  intro j hj
  simp [BitVec.getLsbD_append, hj]

/-- A byte of a concatenation above its lowest byte. -/
theorem extract_append_high {n : Nat} (x : BitVec n) (y : Byte) (k : Nat) :
    (x ++ y).extractLsb' (k + 8) 8 = x.extractLsb' k 8 := by
  apply BitVec.eq_of_getLsbD_eq
  intro j hj
  simp only [BitVec.getLsbD_extractLsb', BitVec.getLsbD_append]
  rw [if_neg (by omega), show k + 8 + j - 8 = k + j by omega]

/-- Byte `i` of `ofBytes f` is `f i`. -/
theorem byte_ofBytes (f : Nat → Byte) (i : Nat) (h : i < 16) : byte (ofBytes f) i = f i := by
  unfold byte ofBytes
  interval_cases i <;>
    first
    | exact extract_append_low _ _
    | (simp only [Nat.reduceMul]
       repeat refine (extract_append_high _ _ _).trans ?_
       first | exact extract_append_low _ _ | simp)

theorem byte_getLsbD (v : Block) (i j : Nat) :
    (byte v i).getLsbD j = (decide (j < 8) && v.getLsbD (8 * i + j)) := by
  simp [byte, BitVec.getLsbD_extractLsb']

/-- Two blocks with the same 16 bytes are the same block. -/
theorem block_ext {v w : Block} (h : ∀ i < 16, byte v i = byte w i) : v = w := by
  apply BitVec.eq_of_getLsbD_eq
  intro j hj
  have hb := congrArg (fun b => BitVec.getLsbD b (j % 8)) (h (j / 8) (by omega))
  simp only [byte_getLsbD] at hb
  have e : 8 * (j / 8) + j % 8 = j := by omega
  have e2 : j % 8 < 8 := by omega
  simpa [e, e2] using hb

theorem byte_rev16 (v : Block) (i : Nat) (h : i < 16) : byte (rev16 v) i = byte v (15 - i) :=
  byte_ofBytes _ i h

theorem byte_subBytes (v : Block) (i : Nat) (h : i < 16) : byte (subBytes v) i = sbox (byte v i) :=
  byte_ofBytes _ i h

theorem byte_shiftRows (v : Block) (i : Nat) (h : i < 16) :
    byte (shiftRows v) i = byte v (shiftRowsSource i) :=
  byte_ofBytes _ i h

theorem byte_mixColumns (v : Block) (i : Nat) (h : i < 16) :
    byte (mixColumns v) i =
      mixEntry (byte v (4 * (i / 4))) (byte v (4 * (i / 4) + 1))
        (byte v (4 * (i / 4) + 2)) (byte v (4 * (i / 4) + 3)) (i % 4) :=
  byte_ofBytes _ i h

theorem byte_addRoundKey (v k : Block) (i : Nat) : byte (addRoundKey v k) i = byte v i ^^^ byte k i := by
  apply BitVec.eq_of_getLsbD_eq
  intro j hj
  rw [BitVec.getLsbD_xor, byte_getLsbD, byte_getLsbD, byte_getLsbD, addRoundKey, BitVec.getLsbD_xor]
  simp [hj]

theorem shiftRowsSource_lt (i : Nat) : shiftRowsSource i < 16 := by
  unfold shiftRowsSource; omega

/-- The low 32 bits after an addition. -/
@[simp] theorem low32_add32Lo (v : Block) (k : BitVec 32) : low32 (add32Lo v k) = low32 v + k := by
  apply BitVec.eq_of_getLsbD_eq
  intro j hj
  rw [low32, add32Lo, BitVec.getLsbD_extractLsb', BitVec.getLsbD_append, if_pos (by omega), Nat.zero_add]
  simp [hj]

/-- The upper 96 bits after an addition. -/
@[simp] theorem high96_add32Lo (v : Block) (k : BitVec 32) : high96 (add32Lo v k) = high96 v := by
  apply BitVec.eq_of_getLsbD_eq
  intro j hj
  rw [high96, add32Lo, BitVec.getLsbD_extractLsb', BitVec.getLsbD_append, if_neg (by omega),
    show 32 + j - 32 = j by omega]
  simp [hj]

/-- A counter is its two halves. -/
theorem counter_ext {v w : Block} (hl : low32 v = low32 w) (hh : high96 v = high96 w) : v = w := by
  apply BitVec.eq_of_getLsbD_eq
  intro j hj
  by_cases h : j < 32
  · have := congrArg (fun b => BitVec.getLsbD b j) hl
    simpa [low32, h] using this
  · have := congrArg (fun b => BitVec.getLsbD b (j - 32)) hh
    have e : 32 + (j - 32) = j := by omega
    have e2 : j - 32 < 96 := by omega
    simpa [high96, e, e2] using this

/-- The bytes of a block are 16. -/
@[simp] theorem bytes_length (v : Block) : (bytes v).length = 16 := by simp [bytes]

theorem bytes_getElem (v : Block) (i : Nat) (h : i < (bytes v).length) : (bytes v)[i] = byte v i := by
  simp [bytes]

/-- A lane of a lane-wise map. -/
@[simp] theorem lane_mapWithLane (f : Nat → Block → Block) (w : Lanes) (j : Fin 4) :
    (w.mapWithLane f).lane j = f j.val (w.lane j) := by
  match j with
  | 0 => rfl
  | 1 => rfl
  | 2 => rfl
  | 3 => rfl

@[simp] theorem lane_map4 (f : Block → Block) (w : Lanes) (j : Fin 4) :
    (w.map4 f).lane j = f (w.lane j) := by
  simp [Lanes.map4]

@[simp] theorem lane_zip4 (f : Block → Block → Block) (w x : Lanes) (j : Fin 4) :
    (w.zip4 f x).lane j = f (w.lane j) (x.lane j) := by
  match j with
  | 0 => rfl
  | 1 => rfl
  | 2 => rfl
  | 3 => rfl

@[simp] theorem lane_broadcast (v : Block) (j : Fin 4) : (Lanes.broadcast v).lane j = v := by
  match j with
  | 0 => rfl
  | 1 => rfl
  | 2 => rfl
  | 3 => rfl

end Sys2Proof.Machine
end

