-- ==== Sys2Proof/Laws/Memory.lean ====
section
/-! SUPPORT. Memory: a read after a write, what a write leaves alone, and the canonical form
(spec/20_memory.md R60, R64, R65). -/

namespace Sys2Proof.Machine

/-! ## One byte -/

/-- In a memory whose addresses all lie above `a`, the byte at `a` is unlisted. -/
theorem byteAt_of_all_above (m : Memory) (a : Nat) (h : ∀ c ∈ m, a < c.1) :
    Memory.byteAt m a = unlistedByte := by
  induction m with
  | nil => rfl
  | cons c m ih =>
    have hc := h c (by simp)
    have hne : c.1 ≠ a := by omega
    simp only [Memory.byteAt, hne, if_false]
    exact ih fun d hd => h d (by simp [hd])

/-- The tail of a canonical memory is canonical. -/
theorem wf_tail {c : Host.Cell} {m : Memory} (h : Memory.wf (c :: m)) : Memory.wf m :=
  ⟨(List.pairwise_cons.mp h.1).2, fun d hd => h.2 d (by simp [hd])⟩

/-- The addresses after the head of a canonical memory lie above the head's. -/
theorem wf_above {c : Host.Cell} {m : Memory} (h : Memory.wf (c :: m)) : ∀ d ∈ m, c.1 < d.1 :=
  (List.pairwise_cons.mp h.1).1

/-- A read after a byte store, in a canonical memory. -/
theorem byteAt_storeByte (m : Memory) (hm : Memory.wf m) (a : Nat) (b : Byte) (x : Nat) :
    Memory.byteAt (Memory.storeByte m a b) x = if x = a then b else Memory.byteAt m x := by
  induction m with
  | nil =>
    by_cases hb : b = unlistedByte
    · by_cases hx : x = a <;> simp [Memory.storeByte, Memory.byteAt, hb, hx]
    · by_cases hx : x = a
      · simp [Memory.storeByte, Memory.byteAt, hb, hx]
      · simp [Memory.storeByte, Memory.byteAt, hb, hx, Ne.symm hx]
  | cons c m ih =>
    obtain ⟨k, v⟩ := c
    have ih := ih (wf_tail hm)
    have habove := wf_above hm
    simp only [Memory.storeByte]
    split
    · rename_i hlt
      have hout : Memory.byteAt ((k, v) :: m) a = unlistedByte :=
        byteAt_of_all_above _ a (by
          intro d hd
          rcases List.mem_cons.mp hd with rfl | hd
          · exact hlt
          · exact Nat.lt_trans hlt (habove d hd))
      split
      · rename_i hb
        by_cases hx : x = a
        · subst hx; simp [hout, hb]
        · simp [hx]
      · by_cases hx : x = a
        · subst hx; simp [Memory.byteAt]
        · simp [Memory.byteAt, hx, Ne.symm hx]
    · split
      · rename_i heq
        subst heq
        split
        · rename_i hb
          by_cases hx : x = a
          · subst hx
            simp [byteAt_of_all_above m x habove, hb]
          · simp [Memory.byteAt, hx, Ne.symm hx]
        · by_cases hx : x = a
          · simp [Memory.byteAt, hx]
          · simp [Memory.byteAt, hx, Ne.symm hx]
      · rename_i hne
        simp only [Memory.byteAt, ih]
        by_cases hk : k = x
        · subst hk
          simp [Ne.symm hne]
        · simp [hk]

/-- Every address a byte store lists was listed before or is the one stored to. -/
theorem mem_storeByte {m : Memory} {a : Nat} {b : Byte} {c : Host.Cell} (h : c ∈ Memory.storeByte m a b) :
    c ∈ m ∨ (c.1 = a ∧ c.2 = b ∧ b ≠ unlistedByte) := by
  induction m with
  | nil =>
    simp only [Memory.storeByte] at h
    split at h
    · simp at h
    · simp at h; subst h; exact .inr ⟨rfl, rfl, ‹_›⟩
  | cons d m ih =>
    obtain ⟨k, v⟩ := d
    simp only [Memory.storeByte] at h
    split at h
    · split at h
      · exact .inl h
      · rcases List.mem_cons.mp h with rfl | h
        · exact .inr ⟨rfl, rfl, ‹_›⟩
        · exact .inl h
    · split at h
      · rename_i heq
        split at h
        · exact .inl (by simp [h])
        · rcases List.mem_cons.mp h with rfl | h
          · exact .inr ⟨heq.symm, rfl, ‹_›⟩
          · exact .inl (by simp [h])
      · rcases List.mem_cons.mp h with rfl | h
        · exact .inl (by simp)
        · rcases ih h with h | h
          · exact .inl (by simp [h])
          · exact .inr h

/-- A byte store keeps the canonical form. -/
theorem storeByte_wf (m : Memory) (hm : Memory.wf m) (a : Nat) (b : Byte) :
    Memory.wf (Memory.storeByte m a b) := by
  refine ⟨?_, ?_⟩
  · induction m with
    | nil =>
      simp only [Memory.storeByte]
      split <;> simp
    | cons d m ih =>
      obtain ⟨k, v⟩ := d
      have habove := wf_above hm
      simp only [Memory.storeByte]
      split
      · rename_i hlt
        split
        · exact hm.1
        · refine List.pairwise_cons.mpr ⟨?_, hm.1⟩
          intro e he
          rcases List.mem_cons.mp he with rfl | he
          · exact hlt
          · exact Nat.lt_trans hlt (habove e he)
      · split
        · split
          · exact (wf_tail hm).1
          · exact List.pairwise_cons.mpr ⟨habove, (wf_tail hm).1⟩
        · rename_i hlt hne
          refine List.pairwise_cons.mpr ⟨?_, ih (wf_tail hm)⟩
          intro e he
          rcases mem_storeByte he with he | ⟨he, -, -⟩
          · exact habove e he
          · simp only [he]; omega
  · intro c hc
    rcases mem_storeByte hc with hc | ⟨-, h2, h3⟩
    · exact hm.2 c hc
    · rw [h2]; exact h3

/-! ## Byte strings and blocks -/

theorem storeBytes_wf (bs : List Byte) (m : Memory) (hm : Memory.wf m) (a : Nat) :
    Memory.wf (Memory.storeBytes m a bs) := by
  induction bs generalizing m a with
  | nil => exact hm
  | cons b bs ih => exact ih _ (storeByte_wf m hm a b) _

/-- A read after a byte string was stored. -/
theorem byteAt_storeBytes (bs : List Byte) (m : Memory) (hm : Memory.wf m) (a x : Nat) :
    Memory.byteAt (Memory.storeBytes m a bs) x =
      if a ≤ x ∧ x < a + bs.length then bs.getD (x - a) 0 else Memory.byteAt m x := by
  induction bs generalizing m a with
  | nil =>
    have : ¬ (a ≤ x ∧ x < a + ([] : List Byte).length) := by simp
    rw [if_neg this]; rfl
  | cons b bs ih =>
    rw [Memory.storeBytes, ih _ (storeByte_wf m hm a b), byteAt_storeByte m hm]
    simp only [List.length_cons]
    by_cases hxa : x = a
    · subst hxa
      rw [if_neg (by omega), if_pos rfl, if_pos (by omega)]
      simp
    · by_cases hin : a + 1 ≤ x ∧ x < a + 1 + bs.length
      · rw [if_pos hin, if_pos (by omega), show x - a = (x - (a + 1)) + 1 by omega]
        simp
      · rw [if_neg hin, if_neg hxa, if_neg (by omega)]

/-- A block store keeps the canonical form. -/
theorem writeBlock_wf (m : Memory) (hm : Memory.wf m) (a : Nat) (v : Block) :
    Memory.wf (Memory.writeBlock m a v) :=
  storeBytes_wf _ m hm a

/-- A read after a block store. -/
theorem byteAt_writeBlock (m : Memory) (hm : Memory.wf m) (a x : Nat) (v : Block) :
    Memory.byteAt (Memory.writeBlock m a v) x =
      if a ≤ x ∧ x < a + 16 then byte v (x - a) else Memory.byteAt m x := by
  rw [Memory.writeBlock, byteAt_storeBytes _ m hm, bytes_length]
  by_cases h : a ≤ x ∧ x < a + 16
  · rw [if_pos h, if_pos h]
    have hlt : x - a < (bytes v).length := by rw [bytes_length]; omega
    rw [List.getD_eq_getElem _ _ hlt, bytes_getElem]
  · rw [if_neg h, if_neg h]

/-- Byte `i` of a block load. -/
theorem byte_readBlock (m : Memory) (a i : Nat) (h : i < 16) :
    byte (Memory.readBlock m a) i = Memory.byteAt m (a + i) :=
  byte_ofBytes _ i h

/-- A block load depends on its 16 bytes only. -/
theorem readBlock_congr (m m' : Memory) (a : Nat)
    (h : ∀ i < 16, Memory.byteAt m (a + i) = Memory.byteAt m' (a + i)) :
    Memory.readBlock m a = Memory.readBlock m' a :=
  block_ext fun i hi => by rw [byte_readBlock _ _ _ hi, byte_readBlock _ _ _ hi, h i hi]

/-- A block load after a store of the same block. -/
theorem readBlock_writeBlock (m : Memory) (hm : Memory.wf m) (a : Nat) (v : Block) :
    Memory.readBlock (Memory.writeBlock m a v) a = v :=
  block_ext fun i hi => by
    rw [byte_readBlock _ _ _ hi, byteAt_writeBlock m hm, if_pos (by omega), show a + i - a = i by omega]

/-- Storing four lanes keeps the canonical form. -/
theorem writeLanes_wf (m : Memory) (hm : Memory.wf m) (a : Nat) (w : Lanes) :
    Memory.wf (Memory.writeLanes m a w) :=
  writeBlock_wf _ (writeBlock_wf _ (writeBlock_wf _ (writeBlock_wf _ hm _ _) _ _) _ _) _ _

/-- Storing four lanes leaves every byte outside their 64 alone. -/
theorem byteAt_writeLanes_outside (m : Memory) (hm : Memory.wf m) (a x : Nat) (w : Lanes)
    (h : ¬ (a ≤ x ∧ x < a + 64)) :
    Memory.byteAt (Memory.writeLanes m a w) x = Memory.byteAt m x := by
  have h0 := writeBlock_wf m hm a w.lane0
  have h1 := writeBlock_wf _ h0 (a + 16) w.lane1
  have h2 := writeBlock_wf _ h1 (a + 32) w.lane2
  rw [Memory.writeLanes, byteAt_writeBlock _ h2, if_neg (by omega), byteAt_writeBlock _ h1, if_neg (by omega),
    byteAt_writeBlock _ h0, if_neg (by omega), byteAt_writeBlock _ hm, if_neg (by omega)]

/-- Byte `i` of lane `j` after storing four lanes. -/
theorem byteAt_writeLanes_inside (m : Memory) (hm : Memory.wf m) (a : Nat) (w : Lanes) (j : Fin 4) (i : Nat)
    (hi : i < 16) :
    Memory.byteAt (Memory.writeLanes m a w) (a + 16 * j.val + i) = byte (w.lane j) i := by
  have h0 := writeBlock_wf m hm a w.lane0
  have h1 := writeBlock_wf _ h0 (a + 16) w.lane1
  have h2 := writeBlock_wf _ h1 (a + 32) w.lane2
  rw [Memory.writeLanes]
  match j with
  | 0 =>
    rw [byteAt_writeBlock _ h2, if_neg (by simp; omega), byteAt_writeBlock _ h1, if_neg (by simp; omega),
      byteAt_writeBlock _ h0, if_neg (by simp; omega), byteAt_writeBlock _ hm, if_pos (by simp; omega)]
    simp [Lanes.lane]
  | 1 =>
    rw [byteAt_writeBlock _ h2, if_neg (by simp; omega), byteAt_writeBlock _ h1, if_neg (by simp; omega),
      byteAt_writeBlock _ h0, if_pos (by simp; omega)]
    simp only [Lanes.lane]; congr 1; simp
  | 2 =>
    rw [byteAt_writeBlock _ h2, if_neg (by simp; omega), byteAt_writeBlock _ h1, if_pos (by simp; omega)]
    simp only [Lanes.lane]; congr 1; simp
  | 3 =>
    rw [byteAt_writeBlock _ h2, if_pos (by simp; omega)]
    simp only [Lanes.lane]; congr 1; simp

/-! ## Equal memories are equal data -/

/-- Two canonical memories that read the same everywhere are the same list. -/
theorem memory_ext (m m' : Memory) (hm : Memory.wf m) (hm' : Memory.wf m')
    (h : ∀ x, Memory.byteAt m x = Memory.byteAt m' x) : m = m' := by
  induction m generalizing m' with
  | nil =>
    cases m' with
    | nil => rfl
    | cons c m' =>
      have hc := h c.1
      simp only [Memory.byteAt, if_true] at hc
      exact absurd hc.symm (hm'.2 c (by simp))
  | cons c m ih =>
    cases m' with
    | nil =>
      have hc := h c.1
      simp only [Memory.byteAt, if_true] at hc
      exact absurd hc (hm.2 c (by simp))
    | cons d m' =>
      have hca := wf_above hm
      have hda := wf_above hm'
      have hkey : c.1 = d.1 := by
        rcases Nat.lt_trichotomy c.1 d.1 with hlt | heq | hgt
        · have hc := h c.1
          rw [byteAt_of_all_above (d :: m') c.1 (by
            intro e he
            rcases List.mem_cons.mp he with rfl | he
            · exact hlt
            · exact Nat.lt_trans hlt (hda e he))] at hc
          simp only [Memory.byteAt, if_true] at hc
          exact absurd hc (hm.2 c (by simp))
        · exact heq
        · have hd := h d.1
          rw [byteAt_of_all_above (c :: m) d.1 (by
            intro e he
            rcases List.mem_cons.mp he with rfl | he
            · exact hgt
            · exact Nat.lt_trans hgt (hca e he))] at hd
          simp only [Memory.byteAt, if_true] at hd
          exact absurd hd.symm (hm'.2 d (by simp))
      have hval : c.2 = d.2 := by
        have hc := h c.1
        simpa [Memory.byteAt, hkey] using hc
      have htail : m = m' := ih m' (wf_tail hm) (wf_tail hm') fun x => by
        by_cases hx : c.1 = x
        · rw [byteAt_of_all_above m x (by rw [← hx]; exact hca),
            byteAt_of_all_above m' x (by rw [← hx, hkey]; exact hda)]
        · have := h x
          simpa [Memory.byteAt, hx, ← hkey] using this
      rw [htail, show c = d from Prod.ext hkey hval]

end Sys2Proof.Machine
end

