-- ==== Sys2Proof/Laws/Ops.lean ====
section
/-! SUPPORT. One lemma per shared operation that says once what it can do: guards of memory, bank and key index,
the range check and its parts, acceptance. -/

namespace Sys2Proof.Machine

open Host (Outcome)

/-! ## Guards -/

/-- A guarded access that is in space and admitted runs. -/
theorem onMemory_ok {s : State} {kind : AccessKind} {a len : Nat} {k : Outcome State Fault Refusal}
    (h1 : s.inSpace a len = true) (h2 : s.admits kind a len = true) : s.onMemory kind a len k = k := by
  simp [State.onMemory, h1, h2]

/-- A guarded access outside the address space faults. -/
theorem onMemory_outside {s : State} {kind : AccessKind} {a len : Nat} {k : Outcome State Fault Refusal}
    (h : 2 ^ s.aw < a + len) : s.onMemory kind a len k = .fault .noSuchAddress := by
  have h' : ¬ a + len ≤ 2 ^ s.aw := by omega
  simp [State.onMemory, State.inSpace, h']

/-- A guarded access in space that is not admitted is refused. -/
theorem onMemory_notAdmitted {s : State} {kind : AccessKind} {a len : Nat} {k : Outcome State Fault Refusal}
    (h1 : a + len ≤ 2 ^ s.aw) (h2 : s.admits kind a len = false) :
    s.onMemory kind a len k = .refused .notAdmitted := by
  simp [State.onMemory, State.inSpace, h1, h2]

/-- A guarded access with a next state was in space and admitted. -/
theorem onMemory_next {s t : State} {kind : AccessKind} {a len : Nat} {k : Outcome State Fault Refusal}
    (h : s.onMemory kind a len k = .next t) :
    s.inSpace a len = true ∧ s.admits kind a len = true ∧ k = .next t := by
  unfold State.onMemory at h
  split at h
  · split at h
    · exact ⟨‹_›, ‹_›, h⟩
    · cases h
  · cases h

/-- An operation of the wide unit with a next state ran on the part's wide bank. -/
theorem onWide_next {s t : State} {k : WideBank → Outcome State Fault Refusal} (h : s.onWide k = .next t) :
    ∃ w, s.wide = some w ∧ k w = .next t := by
  unfold State.onWide at h
  split at h
  · exact ⟨_, ‹_›, h⟩
  · cases h

/-- An operation of the wide unit on a part that has the bank. -/
theorem onWide_some {s : State} {w : WideBank} (k : WideBank → Outcome State Fault Refusal)
    (h : s.wide = some w) : s.onWide k = k w := by
  simp [State.onWide, h]

/-- An operation on a key register with a next state had a key index that names one. -/
theorem onKey_next {r : Option (Fin 15)} {t : State} {k : Fin 15 → Outcome State Fault Refusal}
    (h : onKey r k = .next t) : ∃ i, r = some i ∧ k i = .next t := by
  unfold onKey at h
  split at h
  · exact ⟨_, rfl, h⟩
  · cases h

/-- The register of a key index 0..14. -/
theorem keyNumber?_isKey {r : KeyIndex} (h : KeyIndex.isKey r = true) :
    keyNumber? r = some ⟨r.toNat, by simp [KeyIndex.isKey] at h; omega⟩ := by
  have : r.toNat < 15 := by simp [KeyIndex.isKey] at h; omega
  simp [keyNumber?, this]

/-- The register of a key index 1..13. -/
theorem middleNumber?_isMiddle {r : KeyIndex} (h : KeyIndex.isMiddle r = true) :
    middleNumber? r = some ⟨r.toNat, by simp [KeyIndex.isMiddle] at h; omega⟩ := by
  have : 1 ≤ r.toNat ∧ r.toNat ≤ 13 := by simpa [KeyIndex.isMiddle] using h
  simp [middleNumber?, this]

/-! ## The range check -/

/-- A range inside an admitted range is admitted. -/
theorem admits_sub {s : State} {kind : AccessKind} {a n b m : Nat} (h : s.admits kind a n = true)
    (h1 : a ≤ b) (h2 : b + m ≤ a + n) : s.admits kind b m = true := by
  simp only [State.admits, List.any_eq_true] at h ⊢
  obtain ⟨g, hg, ha⟩ := h
  refine ⟨g, hg, ?_⟩
  simp only [Region.admits, Bool.and_eq_true, decide_eq_true_eq] at ha ⊢
  exact ⟨⟨ha.1.1, by omega⟩, by omega⟩

/-- A range inside a range that exists exists. -/
theorem inSpace_sub {s : State} {a n b m : Nat} (h : s.inSpace a n = true) (h2 : b + m ≤ a + n) :
    s.inSpace b m = true := by
  simp only [State.inSpace, decide_eq_true_eq] at h ⊢
  omega

/-- The six parts of the range check (spec/20_memory.md R70). -/
theorem rangesOk_iff (s : State) (n : Nat) (ks inp out : Addr) :
    s.rangesOk n ks inp out = true ↔
      s.inSpace ks.toNat 240 = true ∧ s.inSpace inp.toNat 16 = true ∧ s.inSpace out.toNat (16 * n) = true ∧
      s.admits .read ks.toNat 240 = true ∧ s.admits .read inp.toNat 16 = true ∧
      (n = 0 ∨ s.admits .write out.toNat (16 * n) = true) := by
  simp [State.rangesOk, and_assoc]

/-- The range check looks at the part only. -/
theorem rangesOk_congr {s t : State} (h1 : t.aw = s.aw) (h2 : t.ranges = s.ranges) (n : Nat) (ks inp out : Addr) :
    t.rangesOk n ks inp out = s.rangesOk n ks inp out := by
  simp [State.rangesOk, State.inSpace, State.admits, h1, h2]

/-- A descriptor that passed the check has its schedule and input below `2^AW`, and its output too unless it is
empty. -/
theorem rangesOk_lt {s : State} {n : Nat} {ks inp out : Addr} (h : s.rangesOk n ks inp out = true) :
    ks.toNat < 2 ^ s.aw ∧ inp.toNat < 2 ^ s.aw ∧ (0 < n → out.toNat < 2 ^ s.aw) := by
  obtain ⟨h1, h2, h3, -⟩ := (rangesOk_iff s n ks inp out).1 h
  simp only [State.inSpace, decide_eq_true_eq] at h1 h2 h3
  exact ⟨by omega, by omega, fun _ => by omega⟩

/-- What the latch holds of a descriptor that passed the check passes it too. -/
theorem rangesOk_fit {s : State} {l : Latch} (h : s.rangesOk l.nbl.toNat l.ksl l.inl l.outl = true) :
    s.rangesOk (Latch.fit s.aw l).nbl.toNat (Latch.fit s.aw l).ksl (Latch.fit s.aw l).inl
      (Latch.fit s.aw l).outl = true := by
  obtain ⟨hk, hi, ho⟩ := rangesOk_lt h
  simp only [Latch.fit_nbl, Latch.fit_ksl, Latch.fit_inl, Latch.fit_outl, fitAddr_of_lt hk, fitAddr_of_lt hi]
  by_cases hn : 0 < l.nbl.toNat
  · rw [fitAddr_of_lt (ho hn)]; exact h
  · have hz : l.nbl.toNat = 0 := by omega
    have hlt := fitAddr_lt s.aw l.outl
    rw [rangesOk_iff] at h ⊢
    refine ⟨h.1, h.2.1, ?_, h.2.2.2.1, h.2.2.2.2.1, .inl hz⟩
    simp only [State.inSpace, hz, decide_eq_true_eq]
    omega

/-- Of a descriptor that passed the check and has an output, the latch holds every address as it is. -/
theorem fit_of_rangesOk {s : State} {l : Latch} (h : s.rangesOk l.nbl.toNat l.ksl l.inl l.outl = true)
    (hn : 0 < l.nbl.toNat) : Latch.fit s.aw l = l := by
  obtain ⟨hk, hi, ho⟩ := rangesOk_lt h
  simp only [Latch.fit, fitAddr_of_lt hk, fitAddr_of_lt hi, fitAddr_of_lt (ho hn)]

/-! ## Acceptance -/

/-- A command on an idle core. -/
theorem whenReady_idle {s t : State} (h : s.upc = .idle) : s.whenReady t = .next t := by
  simp [State.whenReady, State.cmdReady, h]

/-- A command on a busy core waits. -/
theorem whenReady_busy {s t : State} (h : s.upc ≠ .idle) : s.whenReady t = .next s := by
  simp [State.whenReady, State.cmdReady, h]

/-- Acceptance in range takes the latch; out of range it takes `F_RANGE`. -/
theorem acceptInRange_cases (l : Latch) (s : State) :
    (s.rangesOk l.nbl.toNat l.ksl l.inl l.outl = true ∧ s.acceptInRange l = s.accept l) ∨
    (s.rangesOk l.nbl.toNat l.ksl l.inl l.outl = false ∧ s.acceptInRange l = s.takeFault .fRange) := by
  cases h : s.rangesOk l.nbl.toNat l.ksl l.inl l.outl with
  | true => exact .inl ⟨rfl, by simp [State.acceptInRange, h]⟩
  | false => exact .inr ⟨rfl, by simp [State.acceptInRange, h]⟩

end Sys2Proof.Machine
end

