-- ==== Sys2Proof/Laws/PerInstr.lean ====
section
/-! SUPPORT. Statements made per instruction. Family `EncodesOnItsRow`: the code of an instruction has its row's
format and its row's fixed bits (`match` and `mask` of spec/opcode_table.json). -/

namespace Sys2Proof.Laws

/-- One row of the opcode table: how many bits the format has, the fixed bits and their mask. -/
structure Row where
  width : Nat
  fixed : Nat
  mask  : Nat
  deriving DecidableEq, Repr

/-- A command's row: `OPC` and `RSV0` are fixed (spec/30_encoding.md R91, R92). -/
def Row.command (opc : Nat) : Row := { width := 256, fixed := opc, mask := 0xFFFFFFFF }

/-- The row of a control word without operand (spec/30_encoding.md R97). -/
def Row.word (fixed : Nat) : Row := { width := 16, fixed := fixed, mask := 0xFFFF }

/-- The row of a control word whose key index is an operand (spec/30_encoding.md R97). -/
def Row.keyed (fixed : Nat) : Row := { width := 16, fixed := fixed, mask := 0xF0FF }

/-- The row of each instruction, as spec/opcode_table.json writes it. -/
def tableRow : Instr → Row
  | .enc1 _ _ _ _   => Row.command 0x00000001
  | .genseq _ _ _ _ => Row.command 0x00000002
  | .genpar _ _ _ _ => Row.command 0x00000003
  | .nop    => Row.word 0x0000
  | .ldk _  => Row.keyed 0x0010
  | .ldc    => Row.word 0x0011
  | .bsw    => Row.word 0x0012
  | .ark    => Row.word 0x0013
  | .rnd _  => Row.keyed 0x0014
  | .fin    => Row.word 0x0E15
  | .stb    => Row.word 0x0016
  | .inc    => Row.word 0x0017
  | .bck _  => Row.keyed 0x0020
  | .bcc    => Row.word 0x0021
  | .aof    => Row.word 0x0022
  | .bsw4   => Row.word 0x0023
  | .ark4   => Row.word 0x0024
  | .rnd4 _ => Row.keyed 0x0025
  | .fin4   => Row.word 0x0E26
  | .stb4   => Row.word 0x0027
  | .inc4   => Row.word 0x0028
  | .xl0    => Row.word 0x0029
  | .clr    => Row.word 0x003F

/-- A code lies on a row: the row's width and fixed bits. -/
def Row.holds (w : Row) : Code → Prop
  | .command cmd => w.width = 256 ∧ cmd.toNat &&& w.mask = w.fixed
  | .control u   => w.width = 16 ∧ u.toNat &&& w.mask = w.fixed

/-- The low 32 bits of a descriptor are `RSV0` and `OPC`. -/
theorem descriptor_low (opc : BitVec 8) (nblk : Count) (ks inp out : Addr) :
    (descriptor opc nblk ks inp out).toNat &&& 0xFFFFFFFF = opc.toNat := by
  have h : (descriptor opc nblk ks inp out).toNat % 2 ^ 32 = opc.toNat := by
    have ho := opc.isLt
    simp only [descriptor, BitVec.toNat_append, Nat.shiftLeft_eq]
    simp only [← Nat.shiftLeft_eq, Nat.shiftLeft_or_distrib, ← Nat.shiftLeft_add]
    apply Nat.eq_of_testBit_eq
    intro i
    simp only [Nat.testBit_mod_two_pow, Nat.testBit_or, Nat.testBit_shiftLeft]
    by_cases hi : i < 32
    · simp [hi]
      omega
    · have : opc.toNat.testBit i = false := Nat.testBit_lt_two_pow (by
        calc opc.toNat < 2 ^ 8 := ho
          _ ≤ 2 ^ i := Nat.pow_le_pow_right (by decide) (by omega))
      simp [hi, this]
  rw [← h]
  exact Nat.and_two_pow_sub_one_eq_mod _ 32

/-- The fixed bits of a control word with a key index. -/
theorem controlWord_fixed (r : KeyIndex) (uop : BitVec 8) :
    (controlWord r uop).toNat &&& 0xF0FF = uop.toNat := by
  revert uop r
  decide +kernel

namespace EncodesOnItsRow

/-- The code of a well-formed instruction lies on its row. -/
def Statement (i : Instr) : Prop := i.wf = true → (tableRow i).holds (encode i)

theorem enc1 (nblk : Count) (ks inp out : Addr) : Statement (.enc1 nblk ks inp out) :=
  fun _ => ⟨rfl, descriptor_low 0x01 nblk ks inp out⟩
theorem genseq (nblk : Count) (ks inp out : Addr) : Statement (.genseq nblk ks inp out) :=
  fun _ => ⟨rfl, descriptor_low 0x02 nblk ks inp out⟩
theorem genpar (nblk : Count) (ks inp out : Addr) : Statement (.genpar nblk ks inp out) :=
  fun _ => ⟨rfl, descriptor_low 0x03 nblk ks inp out⟩
theorem nop : Statement .nop := fun _ => ⟨rfl, rfl⟩
theorem ldk (r : KeyIndex) : Statement (.ldk r) := fun _ => ⟨rfl, controlWord_fixed r 0x10⟩
theorem ldc : Statement .ldc := fun _ => ⟨rfl, rfl⟩
theorem bsw : Statement .bsw := fun _ => ⟨rfl, rfl⟩
theorem ark : Statement .ark := fun _ => ⟨rfl, rfl⟩
theorem rnd (r : KeyIndex) : Statement (.rnd r) := fun _ => ⟨rfl, controlWord_fixed r 0x14⟩
theorem fin : Statement .fin := fun _ => ⟨rfl, rfl⟩
theorem stb : Statement .stb := fun _ => ⟨rfl, rfl⟩
theorem inc : Statement .inc := fun _ => ⟨rfl, rfl⟩
theorem bck (r : KeyIndex) : Statement (.bck r) := fun _ => ⟨rfl, controlWord_fixed r 0x20⟩
theorem bcc : Statement .bcc := fun _ => ⟨rfl, rfl⟩
theorem aof : Statement .aof := fun _ => ⟨rfl, rfl⟩
theorem bsw4 : Statement .bsw4 := fun _ => ⟨rfl, rfl⟩
theorem ark4 : Statement .ark4 := fun _ => ⟨rfl, rfl⟩
theorem rnd4 (r : KeyIndex) : Statement (.rnd4 r) := fun _ => ⟨rfl, controlWord_fixed r 0x25⟩
theorem fin4 : Statement .fin4 := fun _ => ⟨rfl, rfl⟩
theorem stb4 : Statement .stb4 := fun _ => ⟨rfl, rfl⟩
theorem inc4 : Statement .inc4 := fun _ => ⟨rfl, rfl⟩
theorem xl0 : Statement .xl0 := fun _ => ⟨rfl, rfl⟩
theorem clr : Statement .clr := fun _ => ⟨rfl, rfl⟩

end EncodesOnItsRow

end Sys2Proof.Laws
end

