-- ==== Sys2Proof/Laws/Step.lean ====
section
/-! SUPPORT. What a step can do: a silent host leaves the step to the core, and at each position the core issues
the operation of spec/45_sequencer_and_host.md R213. -/

namespace Sys2Proof.Machine

open Host (Outcome)

/-- With a silent host the step is the core's. -/
theorem step_of_silent {s : State} (h : s.hostSilent) : step s = coreStep s := by
  simp [step, systemStep, h]

/-- A busy core issues its position's control word. -/
theorem coreStep_of_busy {s : State} (h : s.upc ≠ .idle) : coreStep s = s.issue := by
  unfold coreStep
  split
  · exact absurd ‹_› h
  · rfl

/-- An idle core takes the descriptor on its port. -/
theorem coreStep_of_offer {s : State} {cmd : Descriptor} (h : s.upc = .idle) (hp : s.port = some cmd) :
    coreStep s = s.takeOffer cmd := by
  simp [coreStep, h, hp]

/-- Issuing an operation, once its control word is decoded. -/
theorem issue_of_decode {s : State} {i : Instr} (h : decodeControl (s.upc.issues s.rc) = .ok i) :
    s.issue = s.thenAdvance (exec i s) := by
  simp [State.issue, h]

/-- Bookkeeping follows a next state only. -/
theorem thenAdvance_next {s t : State} {o : Outcome State Fault Refusal} (h : s.thenAdvance o = .next t) :
    ∃ u, o = .next u ∧ t = s.advance u := by
  cases o with
  | next u => exact ⟨u, rfl, by simpa [State.thenAdvance] using h.symm⟩
  | fault f => simp [State.thenAdvance] at h
  | refused r => simp [State.thenAdvance] at h

/-- The control words with a key index decode to the operation, for the key indices of their column. -/
theorem decode_ldk : ∀ r : KeyIndex, KeyIndex.isKey r = true → decodeControl (controlWord r 0x10) = .ok (.ldk r) := by
  decide
theorem decode_bck : ∀ r : KeyIndex, KeyIndex.isKey r = true → decodeControl (controlWord r 0x20) = .ok (.bck r) := by
  decide
theorem decode_rnd : ∀ r : KeyIndex, KeyIndex.isMiddle r = true → decodeControl (controlWord r 0x14) = .ok (.rnd r) := by
  decide
theorem decode_rnd4 : ∀ r : KeyIndex, KeyIndex.isMiddle r = true → decodeControl (controlWord r 0x25) = .ok (.rnd4 r) := by
  decide

/-- The operation a position issues (R213, column "issues"). -/
def Pos.operation (p : Pos) (rc : KeyIndex) : Instr :=
  match p with
  | .idle | .nchk | .nadv | .wchk | .wadv | .done => .nop
  | .kld  => .ldk rc
  | .cld  => .ldc
  | .nsw | .nrsw | .hsw => .bsw
  | .nark => .ark
  | .nrnd => .rnd rc
  | .nfin => .fin
  | .nst  => .stb
  | .ninc => .inc
  | .wbk  => .bck rc
  | .wbc  => .bcc
  | .wof  => .aof
  | .wsw | .wrsw => .bsw4
  | .wark => .ark4
  | .wrnd => .rnd4 rc
  | .wfin => .fin4
  | .wst  => .stb4
  | .winc => .inc4
  | .hxl  => .xl0
  | .clrs => .clr

/-- The word a position issues decodes to its operation, for every value of `RC` the position admits. -/
theorem decode_issues (p : Pos) (rc : KeyIndex) (h : p.admitsRC rc = true) :
    decodeControl (p.issues rc) = .ok (p.operation rc) := by
  cases p with
  | kld => exact decode_ldk rc h
  | wbk => exact decode_bck rc h
  | nrnd => exact decode_rnd rc h
  | wrnd => exact decode_rnd4 rc h
  | _ => revert h; revert rc; decide

/-- The step of a busy core with a silent host, at a position whose `RC` fits. -/
theorem step_busy {s : State} (hs : s.hostSilent) (hb : s.upc ≠ .idle) (hr : s.upc.admitsRC s.rc = true) :
    step s = s.thenAdvance (exec (s.upc.operation s.rc) s) := by
  rw [step_of_silent hs, coreStep_of_busy hb, issue_of_decode (decode_issues _ _ hr)]

/-! ## What a step can do, said once -/

/-- The bookkeeping of a position writes `UPC`, `RC`, `BI` and `DONE` only. -/
theorem advance_frame (s u : State) :
    s.advance u =
      { u with upc := (s.advance u).upc, rc := (s.advance u).rc, bi := (s.advance u).bi, done := (s.advance u).done } := by
  unfold State.advance State.countTo State.goto State.complete
  repeat' split
  all_goals rfl

/-- A control word never decodes to a command. -/
theorem decodeControl_notCommand {u : CtrlWord} {i : Instr} (h : decodeControl u = .ok i) : i.isCommand = false := by
  unfold decodeControl fixedKeyIndex operandKeyIndex at h
  repeat' split at h
  all_goals first | (cases h; done) | (simp only [Except.ok.injEq] at h; subst h; rfl)

/-- The operation of a position is no command. -/
theorem operation_notCommand (p : Pos) (rc : KeyIndex) : (p.operation rc).isCommand = false := by
  cases p <;> rfl

/-- An issuing step with a next state ran a datapath operation and did the bookkeeping. -/
theorem issue_next {s t : State} (h : s.issue = .next t) :
    ∃ i u, decodeControl (s.upc.issues s.rc) = .ok i ∧ i.isCommand = false ∧ exec i s = .next u ∧ t = s.advance u := by
  unfold State.issue at h
  split at h
  · rename_i i hd
    obtain ⟨u, h1, h2⟩ := thenAdvance_next h
    exact ⟨i, u, hd, decodeControl_notCommand hd, h1, h2⟩
  · cases h

/-- An idle core with nothing offered stays as it is. -/
theorem coreStep_of_idle {s : State} (h : s.upc = .idle) (hp : s.port = none) : coreStep s = .next s := by
  have hd : decodeControl (s.upc.issues s.rc) = .ok .nop := by
    rw [h]; show decodeControl 0x0000 = _; decide
  unfold coreStep
  rw [hp]
  split
  · contradiction
  · rw [issue_of_decode hd]; simp [exec, execNop, State.thenAdvance, State.advance, h]

/-- Taking an offer on an idle core ends in a fault entry or in the acceptance of a legal, capable, admitted
command. -/
theorem takeOffer_cases {s : State} (cmd : Descriptor) (hp : s.upc = .idle) :
    (∃ f, s.takeOffer cmd = .next (State.takeFault f { s with port := none })) ∨
    (∃ l, s.takeOffer cmd = .next (State.accept l { s with port := none }) ∧
      (l.opl = 1 ∧ l.nbl = 1 ∨ l.opl = 2 ∨ l.opl = 3) ∧ (l.opl = 3 → s.hasWide = true) ∧
      s.rangesOk l.nbl.toNat l.ksl l.inl l.outl = true) := by
  have hp' : ({ s with port := none } : State).upc = .idle := hp
  have key : ∀ l : Latch, (l.opl = 1 ∧ l.nbl = 1 ∨ l.opl = 2 ∨ l.opl = 3) → (l.opl = 3 → s.hasWide = true) →
      (∃ f, Outcome.next (State.acceptInRange l { s with port := none }) =
        (.next (State.takeFault f { s with port := none }) : Outcome State Fault Refusal)) ∨
      (∃ l', Outcome.next (State.acceptInRange l { s with port := none }) =
          (.next (State.accept l' { s with port := none }) : Outcome State Fault Refusal) ∧
        (l'.opl = 1 ∧ l'.nbl = 1 ∨ l'.opl = 2 ∨ l'.opl = 3) ∧ (l'.opl = 3 → s.hasWide = true) ∧
        s.rangesOk l'.nbl.toNat l'.ksl l'.inl l'.outl = true) := by
    intro l ho hw
    rcases acceptInRange_cases l { s with port := none } with ⟨h, e⟩ | ⟨_, e⟩ <;> rw [e]
    · exact .inr ⟨l, rfl, ho, hw, h⟩
    · exact .inl ⟨_, rfl⟩
  unfold State.takeOffer decodeDescriptor
  split
  · rename_i i hd
    split at hd
    · cases hd
    split at hd
    · simp only [Except.ok.injEq] at hd; subst hd
      simp only [exec, execEnc1, whenReady_idle hp']
      exact key _ (.inl ⟨rfl, rfl⟩) (by simp)
    split at hd
    · simp only [Except.ok.injEq] at hd; subst hd
      simp only [exec, execGenseq, whenReady_idle hp']
      exact key _ (.inr (.inl rfl)) (by simp)
    split at hd
    · simp only [Except.ok.injEq] at hd; subst hd
      simp only [exec, execGenpar, whenReady_idle hp']
      by_cases hw : s.hasWide = true
      · rw [if_pos (show ({ s with port := none } : State).hasWide = true from hw)]
        exact key _ (.inr (.inr rfl)) fun _ => hw
      · rw [if_neg (show ¬ ({ s with port := none } : State).hasWide = true from hw)]
        exact .inl ⟨_, rfl⟩
    · cases hd
  · exact .inl ⟨_, rfl⟩

/-- The four shapes of a step of the core: nothing, a fault entry, an acceptance, an issuing step. -/
theorem coreStep_cases {s t : State} (h : coreStep s = .next t) :
    (s.upc = .idle ∧ s.port = none ∧ t = s) ∨
    (s.upc = .idle ∧ ∃ f, t = State.takeFault f { s with port := none }) ∨
    (s.upc = .idle ∧ ∃ l, t = State.accept l { s with port := none } ∧
      (l.opl = 1 ∧ l.nbl = 1 ∨ l.opl = 2 ∨ l.opl = 3) ∧ (l.opl = 3 → s.hasWide = true) ∧
      s.rangesOk l.nbl.toNat l.ksl l.inl l.outl = true) ∨
    (s.upc ≠ .idle ∧ s.issue = .next t) := by
  by_cases hp : s.upc = .idle
  · cases hq : s.port with
    | none =>
      rw [coreStep_of_idle hp hq, Outcome.next.injEq] at h
      exact .inl ⟨hp, rfl, h.symm⟩
    | some cmd =>
      rw [coreStep_of_offer hp hq] at h
      rcases takeOffer_cases cmd hp with ⟨f, e⟩ | ⟨l, e, hl⟩ <;> rw [e, Outcome.next.injEq] at h
      · exact .inr (.inl ⟨hp, f, h.symm⟩)
      · exact .inr (.inr (.inl ⟨hp, l, h.symm, hl⟩))
  · exact .inr (.inr (.inr ⟨hp, by rwa [coreStep_of_busy hp] at h⟩))

/-! ## Placing a control word -/

/-- A control word is its three fields. -/
theorem controlWord_of_fields (u : CtrlWord) : u = CtrlWord.high u ++ CtrlWord.r u ++ CtrlWord.uop u := by
  apply BitVec.eq_of_getLsbD_eq
  intro j hj
  simp only [CtrlWord.high, CtrlWord.r, CtrlWord.uop, BitVec.getLsbD_append, BitVec.getLsbD_extractLsb']
  by_cases h1 : j < 8
  · simp [h1]
  · by_cases h2 : j - 8 < 4
    · simp [h1, h2, show 8 + (j - 8) = j by omega]
    · simp [h1, h2, show 12 + (j - 8 - 4) = j by omega, show j - 8 - 4 < 4 by omega]

/-- The operation codes of the table (spec/30_encoding.md R97). -/
def tableUops : List (BitVec 8) :=
  [0x00, 0x10, 0x11, 0x12, 0x13, 0x14, 0x15, 0x16, 0x17, 0x20, 0x21, 0x22, 0x23, 0x24, 0x25, 0x26, 0x27, 0x28, 0x29, 0x3F]

/-- A word that decodes has an operation code of the table. -/
theorem uop_of_decode {u : CtrlWord} {i : Instr} (h : decodeControl u = .ok i) : CtrlWord.uop u ∈ tableUops := by
  unfold decodeControl at h
  split at h
  · cases h
  · split at h
    case h_21 => cases h
    all_goals
      rename_i heq
      have hu : CtrlWord.uop u = BitVec.ofNat 8 (CtrlWord.uop u).toNat := by simp
      rw [heq] at hu
      rw [hu]
      decide

/-- The position chosen for a word of the table issues that word. -/
theorem issuingPos?_issues : ∀ uop ∈ tableUops, ∀ r : KeyIndex,
    (decodeControl (controlWord r uop)).toOption.isSome = true →
      (issuingPos? uop).map (fun p => p.issues r) = some (controlWord r uop) := by
  decide +kernel

/-- A placed word that decodes is the word the next step issues. -/
theorem withControlWord_issues {u : CtrlWord} {i : Instr} (s : State) (h : decodeControl u = .ok i) :
    (s.withControlWord u).upc.issues (s.withControlWord u).rc = u := by
  have hz : CtrlWord.high u = 0#4 := by
    by_contra hn
    simp [decodeControl, hn] at h
  have hu : u = controlWord (CtrlWord.r u) (CtrlWord.uop u) := by
    have hf := controlWord_of_fields u
    rwa [hz] at hf
  have hp := issuingPos?_issues _ (uop_of_decode h) (CtrlWord.r u) (by rw [← hu, h]; rfl)
  rw [← hu] at hp
  obtain ⟨p, hq, hw⟩ := Option.map_eq_some_iff.mp hp
  simp only [State.withControlWord, h, hq]
  exact hw

/-- A placed word that does not decode is refused by the next step. -/
theorem step_withControlWord_reserved {u : CtrlWord} {e : DecodeError} (s : State) (h : decodeControl u = .error e) :
    step (s.withControlWord u) = .refused .reservedControlWord := by
  have hr : decodeControl (Pos.issues .kld 15) = .error .reservedKeyIndex := by decide
  have hw : s.withControlWord u = { s with upc := .kld, rc := 15, port := none, script := [] } := by
    simp only [State.withControlWord, h]
  rw [hw, step_of_silent rfl, coreStep_of_busy (by simp)]
  simp only [State.issue, hr]

end Sys2Proof.Machine
end

