-- ==== Sys2Proof/Tests/Slice0.lean ====
section
/-! SUPPORT. Small tests of the model against the worked values of spec/95_test_vectors.md and
spec/96_test_vectors_control.md, and one witness for the hypotheses of every statement that has hypotheses. -/

namespace Sys2Proof.Tests

open Sys2Proof.Machine
open Host (Outcome)

/-! ## Helpers -/

/-- The block with these 16 bytes, byte 0 first (the notation of the spec's vectors). -/
def val (bs : List Byte) : Block := BitVec.ofNat 128 (leValue bs)

/-- The next state of an outcome. -/
def next? : Outcome State Fault Refusal → Option State
  | .next t    => some t
  | .fault _   => none
  | .refused _ => none

/-- The fault of an outcome. -/
def fault? : Outcome State Fault Refusal → Option Fault
  | .next _    => none
  | .fault f   => some f
  | .refused _ => none

/-- The refusal of an outcome. -/
def refusal? : Outcome State Fault Refusal → Option Refusal
  | .next _    => none
  | .fault _   => none
  | .refused r => some r

theorem next_of_isSome {o : Outcome State Fault Refusal} (h : (next? o).isSome = true) : ∃ t, o = .next t := by
  cases o with
  | next t => exact ⟨t, rfl⟩
  | fault f => cases h
  | refused r => cases h

theorem next_of_eq {o : Outcome State Fault Refusal} {t : State} (h : next? o = some t) : o = .next t := by
  cases o with
  | next u => rw [next?, Option.some.injEq] at h; rw [h]
  | fault f => cases h
  | refused r => cases h

/-- A next state with a decided property. -/
theorem next_with {o : Outcome State Fault Refusal} (p : State → Bool)
    (h : (next? o).any p = true) : ∃ t, o = .next t ∧ p t = true := by
  cases o with
  | next t => exact ⟨t, rfl, h⟩
  | fault f => cases h
  | refused r => cases h

/-- The address operands of the spec's vectors. -/
def latch (opl : BitVec 8) (n : Count) : Latch := { opl := opl, nbl := n, ksl := 0x1000, inl := 0x2000, outl := 0x3000 }

/-- A narrow bank with one round key set. -/
def narrow (s ctr : Block) (r : Fin 15) (k : Block) : NarrowBank :=
  { s := s, ctr := ctr, rk := (Vector.replicate 15 0).set r k }

/-- A reset core with this memory and a latched command. -/
def latched (m : Memory) : State := { State.reset with mem := m, latch := latch 2 1 }

/-- A reset core with this narrow bank. -/
def withNarrow (n : NarrowBank) : State := { State.reset with narrow := n }

/-- A reset core with this wide bank. -/
def withWide (w : WideBank) : State := { State.reset with wide := some w }

/-- A narrow part after reset. -/
def narrowPart : State := State.resetOf { Config.part with hasWide := false }

/-- A part with a 16-bit address space of which `[0x1000, 0x4000)` is admitted. -/
def smallPart : State :=
  State.resetOf { hasWide := true, aw := 16, ranges := [{ base := 0x1000, size := 0x3000, readable := true, writable := true }] }

/-- An idle core with this descriptor offered. -/
def offered (s : State) (cmd : Descriptor) : State := { s with port := some cmd }

/-! ## Well-formedness refuses ill-formed terms -/

theorem test_wf_ldk_15 : (Instr.ldk 15).wf = false := by decide
theorem test_wf_rnd_0 : (Instr.rnd 0).wf = false := by decide
theorem test_wf_rnd_14 : (Instr.rnd 14).wf = false := by decide
theorem test_wf_bck_15 : (Instr.bck 15).wf = false := by decide
theorem test_wf_rnd4_0 : (Instr.rnd4 0).wf = false := by decide
theorem test_wf_rnd4_14 : (Instr.rnd4 14).wf = false := by decide

/-! ## Decoding: the words of spec/96_test_vectors_control.md 4.7 -/

theorem test_decode_enc1 : decodeBytes
    [0x01, 0, 0, 0, 0, 0, 0, 0, 0, 0x10, 0, 0, 0, 0, 0, 0, 0, 0x20, 0, 0, 0, 0, 0, 0, 0, 0x30, 0, 0, 0, 0, 0, 0]
      = .ok (.enc1 0 0x1000 0x2000 0x3000) := by decide
theorem test_decode_genseq : decodeBytes
    [0x02, 0, 0, 0, 0xff, 0xff, 0xff, 0xff, 0, 0x10, 0, 0, 0, 0, 0, 0, 0, 0x20, 0, 0, 0, 0, 0, 0, 0, 0x30, 0, 0, 0, 0, 0, 0]
      = .ok (.genseq 0xFFFFFFFF 0x1000 0x2000 0x3000) := by decide
theorem test_decode_genpar : decodeBytes
    [0x03, 0, 0, 0, 0x04, 0x03, 0x02, 0x01, 0xef, 0xcd, 0xab, 0x89, 0x67, 0x45, 0x23, 0x01,
     0x88, 0x77, 0x66, 0x55, 0x44, 0x33, 0x22, 0x11, 0x00, 0xff, 0xee, 0xdd, 0xcc, 0xbb, 0xaa, 0x99]
      = .ok (.genpar 0x01020304 0x0123456789ABCDEF 0x1122334455667788 0x99AABBCCDDEEFF00) := by decide
theorem test_decode_rsv0 : decodeDescriptor 0x0000000300000102 = .error .reservedBits := by decide
theorem test_decode_opc_0 : decodeDescriptor 0 = .error .reservedOpcode := by decide
theorem test_decode_opc_4 : decodeDescriptor 0x0000000300000004 = .error .reservedOpcode := by decide
theorem test_decode_nop : decodeControl 0x0000 = .ok .nop := by decide
theorem test_decode_ldk : decodeControl 0x0E10 = .ok (.ldk 14) := by decide
theorem test_decode_ldc : decodeControl 0x0011 = .ok .ldc := by decide
theorem test_decode_bsw : decodeControl 0x0012 = .ok .bsw := by decide
theorem test_decode_ark : decodeControl 0x0013 = .ok .ark := by decide
theorem test_decode_rnd : decodeControl 0x0D14 = .ok (.rnd 13) := by decide
theorem test_decode_fin : decodeControl 0x0E15 = .ok .fin := by decide
theorem test_decode_stb : decodeControl 0x0016 = .ok .stb := by decide
theorem test_decode_inc : decodeControl 0x0017 = .ok .inc := by decide
theorem test_decode_bck : decodeControl 0x0E20 = .ok (.bck 14) := by decide
theorem test_decode_bcc : decodeControl 0x0021 = .ok .bcc := by decide
theorem test_decode_aof : decodeControl 0x0022 = .ok .aof := by decide
theorem test_decode_bsw4 : decodeControl 0x0023 = .ok .bsw4 := by decide
theorem test_decode_ark4 : decodeControl 0x0024 = .ok .ark4 := by decide
theorem test_decode_rnd4 : decodeControl 0x0125 = .ok (.rnd4 1) := by decide
theorem test_decode_fin4 : decodeControl 0x0E26 = .ok .fin4 := by decide
theorem test_decode_stb4 : decodeControl 0x0027 = .ok .stb4 := by decide
theorem test_decode_inc4 : decodeControl 0x0028 = .ok .inc4 := by decide
theorem test_decode_xl0 : decodeControl 0x0029 = .ok .xl0 := by decide
theorem test_decode_clr : decodeControl 0x003F = .ok .clr := by decide
/-- The words that spec/96_test_vectors_control.md 4.7 lists as never issued. -/
theorem test_decode_reserved :
    ([0x0014, 0x0E14, 0x0F10, 0x0015, 0x0018, 0x002A, 0x1010].all fun w =>
      (decodeControl w).toOption.isNone) = true := by decide
theorem test_table_word : decodeTableWord 32 0x00000003 = some (.genpar 0 0 0 0) ∧
    decodeTableWord 16 0x003F = some .clr ∧ decodeTableWord 16 0x0014 = none := by decide
theorem test_asm : (Instr.genseq 3 0x1000 0x2000 0x3000).asm = "GENSEQ 4096, 8192, 12288, 3" := by decide

/-- A placed descriptor is taken by the very next step, a placed control word is issued by it. -/
theorem test_fetch_command :
    (next? (step (State.reset.withFetchWord 32 0x00000001))).map (fun t => (t.upc, t.latch.nbl)) =
      some (.kld, 1) := by decide
theorem test_fetch_word :
    (next? (step ({ State.reset with narrow := narrow 0 0x0f0e0d0c0b0a09080706050403020100 0 0 }.withFetchWord 16 0x0012))).map
      (fun t => (t.narrow.s, t.upc)) = some (0x000102030405060708090a0b0c0d0e0f, .nchk) := by decide

/-- A placed reserved word is refused, also one whose `UOP` is in the table: the words that
spec/96_test_vectors_control.md 4.7 lists as having no meaning. -/
theorem test_fetch_reserved :
    ([0x0014, 0x0E14, 0x0F10, 0x0015, 0x0018, 0x002A, 0x1010].all fun w =>
      refusal? (step (State.reset.withFetchWord 16 w)) = some .reservedControlWord) = true := by decide

/-! ## Functions of the cipher: spec/95_test_vectors.md 4.1 -/

theorem test_xtime : xtime 0x57 = 0xae ∧ xtime 0x80 = 0x1b ∧ xtime 0xff = 0xe5 := by decide
theorem test_gmul : gmul 0x57 0x13 = 0xfe ∧ gmul 0x57 0x83 = 0xc1 ∧ gmul 0xff 0x03 = 0x1a := by decide
theorem test_sbox : sbox 0x10 = 0xca ∧ sbox 0x53 = 0xed ∧ sbox 0xff = 0x16 := by decide
theorem test_shiftRows :
    shiftRows (val [0, 1, 2, 3, 4, 5, 6, 7, 8, 9, 0xa, 0xb, 0xc, 0xd, 0xe, 0xf]) =
      val [0x00, 0x05, 0x0a, 0x0f, 0x04, 0x09, 0x0e, 0x03, 0x08, 0x0d, 0x02, 0x07, 0x0c, 0x01, 0x06, 0x0b] := by
  decide
theorem test_mixColumns :
    mixColumns (val [0xdb, 0x13, 0x53, 0x45]) = val [0x8e, 0x4d, 0xa1, 0xbc] ∧
    mixColumns (val [0x2d, 0x26, 0x31, 0x4c]) = val [0x4d, 0x7e, 0xbd, 0xf8] := by decide
theorem test_add32Lo :
    add32Lo (val [0xfe, 0xff, 0xff, 0xff, 0x11, 0x22, 0x33, 0x44]) 3 =
      val [0x01, 0, 0, 0, 0x11, 0x22, 0x33, 0x44] := by decide
/-- Fifteen zero round keys: `d2` in every byte. -/
theorem test_cipher256 :
    cipher256 0 (Vector.replicate 15 0) = BitVec.ofNat 128 0xd2d2d2d2d2d2d2d2d2d2d2d2d2d2d2d2 := by decide +kernel

/-! ## Operations: spec/95_test_vectors.md 4.2 to 4.5, one step each -/

/-- `RK[2]` of schedule 2.2 at its place in memory. -/
def keyTwo : List Byte :=
  [0xa5, 0x73, 0xc2, 0x9f, 0xa1, 0x76, 0xc4, 0x98, 0xa9, 0x7f, 0xce, 0x93, 0xa5, 0x72, 0xc0, 0x9c]
/-- The published plaintext. -/
def plain : List Byte :=
  [0x00, 0x11, 0x22, 0x33, 0x44, 0x55, 0x66, 0x77, 0x88, 0x99, 0xaa, 0xbb, 0xcc, 0xdd, 0xee, 0xff]
/-- Its reversal, the input of T2. -/
def input : List Byte :=
  [0xff, 0xee, 0xdd, 0xcc, 0xbb, 0xaa, 0x99, 0x88, 0x77, 0x66, 0x55, 0x44, 0x33, 0x22, 0x11, 0x00]
/-- `S` after `ARK` in T2. -/
def whitened : List Byte :=
  [0x00, 0x10, 0x20, 0x30, 0x40, 0x50, 0x60, 0x70, 0x80, 0x90, 0xa0, 0xb0, 0xc0, 0xd0, 0xe0, 0xf0]
/-- `RK[1]` of schedule 2.2. -/
def keyOne : List Byte :=
  [0x10, 0x11, 0x12, 0x13, 0x14, 0x15, 0x16, 0x17, 0x18, 0x19, 0x1a, 0x1b, 0x1c, 0x1d, 0x1e, 0x1f]
/-- `S` after `RND 1` in T2. -/
def roundOne : List Byte :=
  [0x4f, 0x63, 0x76, 0x06, 0x43, 0xe0, 0xaa, 0x85, 0xef, 0xa7, 0x21, 0x32, 0x01, 0xa4, 0xe7, 0x05]
/-- `S` before `FIN` in T2. -/
def roundThirteen : List Byte :=
  [0x62, 0x7b, 0xce, 0xb9, 0x99, 0x9d, 0x5a, 0xaa, 0xc9, 0x45, 0xec, 0xf4, 0x23, 0xf5, 0x6d, 0xa5]
/-- `RK[14]` of schedule 2.2. -/
def keyFourteen : List Byte :=
  [0x24, 0xfc, 0x79, 0xcc, 0xbf, 0x09, 0x79, 0xe9, 0x37, 0x1a, 0xc2, 0x3c, 0x6d, 0x68, 0xde, 0x36]
/-- The published ciphertext. -/
def cipherText : List Byte :=
  [0x8e, 0xa2, 0xb7, 0xca, 0x51, 0x67, 0x45, 0xbf, 0xea, 0xfc, 0x49, 0x90, 0x4b, 0x49, 0x60, 0x89]
/-- The counter of T6 with its lowest byte given. -/
def counter (b0 b1 : Byte) : Block :=
  val [b0, b1, b1, b1, 0xfb, 0xfa, 0xf9, 0xf8, 0xf7, 0xf6, 0xf5, 0xf4, 0xf3, 0xf2, 0xf1, 0xf0]
/-- The four counters of T6 after `AOF`. -/
def counters : Lanes :=
  { lane0 := counter 0xfc 0xff, lane1 := counter 0xfd 0xff, lane2 := counter 0xfe 0xff, lane3 := counter 0xff 0xff }

theorem test_ldk :
    (next? (exec (.ldk 2) (latched (Memory.storeBytes [] 0x1020 keyTwo)))).map (fun t => t.narrow.rk[2]) =
      some (val keyTwo) := by decide
theorem test_ldc :
    (next? (exec .ldc (latched (Memory.storeBytes [] 0x2000 input)))).map (fun t => t.narrow.ctr) =
      some (val input) := by decide
theorem test_bsw :
    (next? (exec .bsw (withNarrow (narrow 0 (val input) 0 0)))).map (fun t => t.narrow.s) =
      some (val plain) := by decide
theorem test_ark :
    (next? (exec .ark (withNarrow (narrow (val plain) 0 0
      (val [0, 1, 2, 3, 4, 5, 6, 7, 8, 9, 0xa, 0xb, 0xc, 0xd, 0xe, 0xf]))))).map (fun t => t.narrow.s) =
      some (val whitened) := by decide
theorem test_rnd :
    (next? (exec (.rnd 1) (withNarrow (narrow (val whitened) 0 1 (val keyOne))))).map (fun t => t.narrow.s) =
      some (val roundOne) := by decide +kernel
theorem test_fin :
    (next? (exec .fin (withNarrow (narrow (val roundThirteen) 0 14 (val keyFourteen))))).map (fun t => t.narrow.s) =
      some (val cipherText) := by decide
/-- `8e` lands at `OUT`, `a2` at `OUT + 1` (T19), and `OUT + 16` stays. -/
theorem test_stb :
    (next? (exec .stb { latched [] with narrow := narrow (val cipherText) 0 0 0 })).map (fun t =>
      [0x2fff, 0x3000, 0x3001, 0x300f, 0x3010].map (Memory.byteAt t.mem)) =
      some [0, 0x8e, 0xa2, 0x89, 0] := by decide
theorem test_inc_wraps :
    (next? (exec .inc (withNarrow (narrow 0 (counter 0xff 0xff) 0 0)))).map (fun t => t.narrow.ctr) =
      some (counter 0x00 0x00) := by decide
theorem test_bck :
    (next? (exec (.bck 14) (withNarrow (narrow 0 0 14 (val keyFourteen))))).map (fun t =>
      t.wide.map fun w => w.wk[14]) = some (some (Lanes.broadcast (val keyFourteen))) := by decide
theorem test_bcc :
    (next? (exec .bcc (withNarrow (narrow 0 (counter 0xfc 0xff) 0 0)))).map (fun t =>
      t.wide.map fun w => w.ctrv.lane3) = some (some (counter 0xfc 0xff)) := by decide
theorem test_aof :
    (next? (exec .aof (withWide { WideBank.zero with ctrv := Lanes.broadcast (counter 0xfc 0xff) }))).map (fun t =>
      t.wide.map fun w => w.ctrv) = some (some counters) := by decide
theorem test_bsw4 :
    (next? (exec .bsw4 (withWide { WideBank.zero with ctrv := counters }))).map (fun t =>
      t.wide.map fun w => w.sv.lane1) =
      some (some (val [0xf0, 0xf1, 0xf2, 0xf3, 0xf4, 0xf5, 0xf6, 0xf7, 0xf8, 0xf9, 0xfa, 0xfb, 0xff, 0xff, 0xff, 0xfd])) := by
  decide
theorem test_ark4 :
    (next? (exec .ark4 (withWide { WideBank.zero with
      sv := { Lanes.zero with lane2 := val plain }
      wk := (Vector.replicate 15 Lanes.zero).set 0 (Lanes.broadcast (val keyOne)) }))).map (fun t =>
      t.wide.map fun w => (w.sv.lane2, w.sv.lane3)) =
      some (some (val plain ^^^ val keyOne, val keyOne)) := by decide
theorem test_rnd4 :
    (next? (exec (.rnd4 1) (withWide { WideBank.zero with
      sv := { Lanes.zero with lane1 := val whitened }
      wk := (Vector.replicate 15 Lanes.zero).set 1 (Lanes.broadcast (val keyOne)) }))).map (fun t =>
      t.wide.map fun w => w.sv.lane1) = some (some (val roundOne)) := by decide +kernel
theorem test_fin4 :
    (next? (exec .fin4 (withWide { WideBank.zero with
      sv := { Lanes.zero with lane3 := val roundThirteen }
      wk := (Vector.replicate 15 Lanes.zero).set 14 (Lanes.broadcast (val keyFourteen)) }))).map (fun t =>
      t.wide.map fun w => (w.sv.lane3, w.sv.lane0)) =
      some (some (val cipherText, val (List.replicate 16 0x63) ^^^ val keyFourteen)) := by decide
theorem test_stb4 :
    (next? (exec .stb4 { latched [] with wide := some { WideBank.zero with sv := counters } })).map (fun t =>
      [0x3000, 0x3010, 0x3020, 0x3030, 0x303f, 0x3040].map (Memory.byteAt t.mem)) =
      some [0xfc, 0xfd, 0xfe, 0xff, 0xf0, 0] := by decide
theorem test_inc4 :
    (next? (exec .inc4 (withWide { WideBank.zero with ctrv := counters }))).map (fun t =>
      t.wide.map fun w => (w.ctrv.lane0, w.ctrv.lane3)) =
      some (some (counter 0x00 0x00, counter 0x03 0x00)) := by decide
theorem test_xl0 :
    (next? (exec .xl0 (withWide { WideBank.zero with ctrv := counters }))).map (fun t => t.narrow.ctr) =
      some (counter 0xfc 0xff) := by decide
theorem test_clr :
    (next? (exec .clr { withNarrow (narrow 1 2 3 4) with wide := some { WideBank.zero with sv := counters } })).map
      (fun t => (t.narrow, t.wide)) = some (NarrowBank.zero, some WideBank.zero) := by decide
theorem test_nop : next? (exec .nop State.reset) = some State.reset := by decide

/-! ## Acceptance and faults: spec/96_test_vectors_control.md 4.8, the acceptance step alone -/

theorem test_enc1_count_is_one :
    (next? (exec (.enc1 7 0x1000 0x2000 0x3000) State.reset)).map (fun t => (t.upc, t.latch)) =
      some (.kld, { opl := 1, nbl := 1, ksl := 0x1000, inl := 0x2000, outl := 0x3000 }) := by decide
theorem test_genseq_range_T14 :
    (next? (exec (.genseq 1 0x1000 0x2000 0xFFFFFFFFFFFFFFF8) State.reset)).map (fun t => t.status) =
      some 0x131 := by decide
theorem test_genseq_empty_output_is_admitted :
    (next? (exec (.genseq 0 0x1000 0x2000 0x9000) smallPart)).map (fun t => t.status) = some 0x001 := by
  decide
/-- `OUT = 2^AW` with a count of 0 is taken (R175); a 16-bit `OUTL` has no bit for it (R30). -/
theorem test_genseq_empty_output_at_the_end :
    (next? (exec (.genseq 0 0x1000 0x2000 0x10000) smallPart)).map (fun t => (t.status, t.latch.outl)) =
      some (0x001, 0) := by decide
theorem test_genpar_capability_T13a :
    (next? (exec (.genpar 6 0x1000 0x2000 0xFFFFFFFFFFFFFFF8) narrowPart)).map (fun t => t.status) =
      some 0x121 := by decide
theorem test_opcode_T13b :
    (next? (step (offered narrowPart 0x0000000600000103))).map (fun t => t.status) = some 0x111 := by decide
/-- T11, step 39: the `DONE` step. -/
theorem test_done_step :
    (next? (step { State.reset with upc := .done, latch := latch 1 1, bi := 1 })).map (fun t => (t.status, t.upc)) =
      some (0x002, .idle) := by decide
/-- T21: `FSTICKY` back to 0 by the `reset` input. -/
theorem test_reset_input :
    (next? (step { State.reset with upc := .clrs, err := some .fOpc, fsticky := true, script := [.reset] })).map
      (fun t => (t.status, t.upc)) = some (0x000, .idle) := by decide

/-! ## Witnesses: concrete states and operands that meet the hypotheses of each statement -/

/-- A core in the middle of `GENSEQ`, about to store its one block. -/
def atStb : State :=
  { latched [] with upc := .nst, narrow := narrow (val cipherText) 7 0 9 }

/-- A core in the middle of `GENPAR`, about to store its one group. -/
def atStb4 : State :=
  { State.reset with upc := .wst, latch := latch 3 4, wide := some { WideBank.zero with sv := counters } }

/-- A core in the middle of `GENPAR`, in the last step of its first key loop. -/
def atLastKey : State := { State.reset with upc := .kld, rc := 14, latch := latch 3 6 }

theorem inv_atStb : Inv atStb :=
  ⟨by decide, by decide, by decide, by decide, by decide, by decide, by decide, by decide, by decide,
    by decide, by decide, by decide, by decide, by decide⟩

theorem inv_atStb4 : Inv atStb4 :=
  ⟨by decide, by decide, by decide, by decide, by decide, by decide, by decide, by decide, by decide,
    by decide, by decide, by decide, by decide, by decide⟩

/-! Encoding. -/

theorem witness_DecodeOfEncode : (Instr.ldk 0).wf = true ∧ (Instr.ldk 14).wf = true ∧ (Instr.rnd 1).wf = true ∧
    (Instr.rnd4 13).wf = true ∧ (Instr.genpar 0xFFFFFFFF 1 2 3).wf = true := by decide
theorem witness_EncodeOfDecode : decode (.control 0x0125) = .ok (.rnd4 1) ∧
    decode (.command 0x0000000600000003) = .ok (.genpar 6 0 0 0) := by decide
theorem witness_ReservedAndAbsent_reserved :
    ((Instr.ldk 15).wf = false ∧ ¬ wideOperation (.ldk 15)) ∧ ((Instr.rnd 14).wf = false ∧ ¬ wideOperation (.rnd 14)) ∧
    ((Instr.bck 15).wf = false ∧ State.reset.wide ≠ none) ∧ ((Instr.rnd4 0).wf = false ∧ State.reset.wide ≠ none) :=
  ⟨⟨rfl, fun h => h⟩, ⟨rfl, fun h => h⟩, by decide, by decide⟩
theorem witness_ReservedAndAbsent_absent : wideOperation (.bck 0) ∧ wideOperation .xl0 ∧ narrowPart.wide = none :=
  ⟨trivial, trivial, rfl⟩
/-- A core of the small part whose latch holds these addresses. -/
def pointing (ks inp out : Addr) : State := { smallPart with latch := { latch 2 1 with ksl := ks, inl := inp, outl := out } }

/-- The last key of a schedule one byte too far, and a schedule just below the admitted range. -/
theorem witness_AccessOutside_ldk :
    ((14 : KeyIndex).toNat ≤ 14 ∧
      2 ^ (pointing 0xFF11 0 0).aw < (pointing 0xFF11 0 0).latch.ksl.toNat + 16 * (14 : KeyIndex).toNat + 16) ∧
    ((pointing 0x0F80 0 0).latch.ksl.toNat + 16 * (0 : KeyIndex).toNat + 16 ≤ 2 ^ (pointing 0x0F80 0 0).aw ∧
      (pointing 0x0F80 0 0).admits .read
        ((pointing 0x0F80 0 0).latch.ksl.toNat + 16 * (0 : KeyIndex).toNat) 16 = false) := by decide
/-- One byte beyond the address space, one byte beyond the admitted range. -/
theorem witness_AccessOutside_block :
    2 ^ (pointing 0 0xFFF1 0xFFF1).aw < (pointing 0 0xFFF1 0xFFF1).latch.inl.toNat + 16 ∧
    2 ^ (pointing 0 0xFFF1 0xFFF1).aw <
      (pointing 0 0xFFF1 0xFFF1).latch.outl.toNat + 16 * (pointing 0 0xFFF1 0xFFF1).bi.toNat + 16 ∧
    ((pointing 0 0x3FF1 0x3FF1).latch.inl.toNat + 16 ≤ 2 ^ (pointing 0 0x3FF1 0x3FF1).aw ∧
      (pointing 0 0x3FF1 0x3FF1).admits .read (pointing 0 0x3FF1 0x3FF1).latch.inl.toNat 16 = false) ∧
    ((pointing 0 0x3FF1 0x3FF1).latch.outl.toNat + 16 * (pointing 0 0x3FF1 0x3FF1).bi.toNat + 16 ≤
        2 ^ (pointing 0 0x3FF1 0x3FF1).aw ∧
      (pointing 0 0x3FF1 0x3FF1).admits .write
        ((pointing 0 0x3FF1 0x3FF1).latch.outl.toNat + 16 * (pointing 0 0x3FF1 0x3FF1).bi.toNat) 16 = false) := by
  decide
theorem witness_AccessOutside_group :
    ((pointing 0 0 0xFFC1).wide ≠ none ∧ 2 ^ (pointing 0 0 0xFFC1).aw <
      (pointing 0 0 0xFFC1).latch.outl.toNat + 16 * (pointing 0 0 0xFFC1).bi.toNat + 64) ∧
    ((pointing 0 0 0x3FC1).wide ≠ none ∧
      (pointing 0 0 0x3FC1).latch.outl.toNat + 16 * (pointing 0 0 0x3FC1).bi.toNat + 64 ≤
        2 ^ (pointing 0 0 0x3FC1).aw ∧
      (pointing 0 0 0x3FC1).admits .write
        ((pointing 0 0 0x3FC1).latch.outl.toNat + 16 * (pointing 0 0 0x3FC1).bi.toNat) 64 = false) := by decide

/-! Steps. -/

theorem witness_StepRunsTheIssuedOperation :
    atLastKey.script = [] ∧ (atLastKey.upc = .idle → atLastKey.port = none) ∧
    decodeControl (atLastKey.upc.issues atLastKey.rc) = .ok (.ldk 14) := by decide
theorem witness_StepRunsTheOfferedCommand :
    (offered State.reset 0x0000000300000002).offers 0x0000000300000002 ∧
    decodeDescriptor 0x0000000300000002 = .ok (.genseq 3 0 0 0) := by decide
theorem witness_IdleStep : State.reset.script = [] ∧ State.reset.upc = .idle ∧ State.reset.port = none := by decide
theorem witness_OfferWaits : atStb.script = [] ∧ atStb.upc ≠ .idle ∧ (∃ t, step atStb = .next t) ∧
    (Instr.enc1 0 0 0 0).isCommand = true :=
  ⟨rfl, by decide, next_of_isSome (by decide), rfl⟩
theorem witness_OnlyWayBack_idle : ∃ t, step { State.reset with upc := .done } = .next t ∧
    decide (t.upc = .idle) = true := next_with _ (by decide)
theorem witness_OnlyWayBack_done : ∃ t, step { atStb with upc := .clrs } = .next t ∧
    decide (t.upc = .done) = true := next_with _ (by decide)
/-- `INC` keeps `S`, `RK[r]` and memory; it is one of the three that write 32 bits only. -/
theorem witness_DatapathOperations_narrow : (∃ t, exec .inc atStb = .next t) ∧ Instr.isCommand .inc = false ∧
    Instr.inc ∉ [.bsw, .ark, .fin, .clr] ∧ (∀ r, Instr.inc ≠ .rnd r) ∧
    (∃ t, exec .bsw atStb = .next t) ∧ Instr.isCommand .bsw = false ∧ Instr.bsw ∉ [.ldc, .inc, .xl0, .clr] :=
  ⟨next_of_isSome (by decide), rfl, by decide, fun r h => Instr.noConfusion h, next_of_isSome (by decide), rfl, by decide⟩
/-- `LDK 14` keeps the other round keys, `RK[13]` the nearest of them. -/
theorem witness_DatapathOperations_key : (∃ t, exec (.ldk 14) atStb = .next t) ∧ Instr.isCommand (.ldk 14) = false ∧
    Instr.ldk 14 ≠ .clr ∧ Instr.ldk 14 ≠ .ldk (BitVec.ofNat 4 (13 : Fin 15).val) :=
  ⟨next_of_isSome (by decide), rfl, by decide, by decide⟩
/-- `AOF` keeps `SV` and `WK[r]`, `BCK 14` keeps `CTRV` and `WK[13]`. -/
theorem witness_DatapathOperations_wide : (∃ t, exec .aof atStb4 = .next t ∧ t.wide.isSome = true) ∧
    atStb4.wide = some { WideBank.zero with sv := counters } ∧ Instr.aof ∉ [.bsw4, .ark4, .fin4, .clr] ∧
    (∃ t, exec (.bck 14) atStb4 = .next t ∧ t.wide.isSome = true) ∧ Instr.bck 14 ∉ [.bcc, .aof, .inc4, .clr] ∧
    Instr.bck 14 ≠ .bck (BitVec.ofNat 4 (13 : Fin 15).val) :=
  ⟨next_with _ (by decide), rfl, by decide, next_with _ (by decide), by decide, by decide⟩
/-- The byte before and the byte after what `STB` and `STB4` store. -/
theorem witness_DatapathOperations_store : (∃ t, exec .stb atStb = .next t) ∧ Memory.wf atStb.mem ∧
    0x2fff < atStb.latch.outl.toNat + 16 * atStb.bi.toNat ∧ atStb.latch.outl.toNat + 16 * atStb.bi.toNat + 16 ≤ 0x3010 ∧
    (∃ t, exec .stb4 atStb4 = .next t) ∧ Memory.wf atStb4.mem ∧
    atStb4.latch.outl.toNat + 16 * atStb4.bi.toNat + 64 ≤ 0x3040 :=
  ⟨next_of_isSome (by decide), by decide, by decide, by decide, next_of_isSome (by decide), by decide, by decide⟩

/-! Operations. -/

theorem witness_Ldk : (14 : KeyIndex).toNat ≤ 14 ∧
    (latched []).inSpace ((latched []).latch.ksl.toNat + 16 * (14 : KeyIndex).toNat) 16 = true ∧
    (latched []).admits .read ((latched []).latch.ksl.toNat + 16 * (14 : KeyIndex).toNat) 16 = true := by decide
theorem witness_Ldc : (latched []).inSpace (latched []).latch.inl.toNat 16 = true ∧
    (latched []).admits .read (latched []).latch.inl.toNat 16 = true := by decide
theorem witness_Rnd : 1 ≤ (1 : KeyIndex).toNat ∧ (1 : KeyIndex).toNat ≤ 13 ∧ 1 ≤ (13 : KeyIndex).toNat ∧
    (13 : KeyIndex).toNat ≤ 13 := by decide
theorem witness_Stb : Memory.wf atStb.mem ∧ atStb.inSpace (atStb.latch.outl.toNat + 16 * atStb.bi.toNat) 16 = true ∧
    atStb.admits .write (atStb.latch.outl.toNat + 16 * atStb.bi.toNat) 16 = true := by decide
/-- The hypotheses of the statements about the wide operations, key indices at their bounds. -/
theorem witness_Wide : State.reset.wide = some WideBank.zero ∧ (0 : KeyIndex).toNat ≤ 14 ∧ (14 : KeyIndex).toNat ≤ 14 ∧
    1 ≤ (13 : KeyIndex).toNat ∧ (13 : KeyIndex).toNat ≤ 13 := by decide
theorem witness_Stb4 : atStb4.wide = some { WideBank.zero with sv := counters } ∧ Memory.wf atStb4.mem ∧
    atStb4.inSpace (atStb4.latch.outl.toNat + 16 * atStb4.bi.toNat) 64 = true ∧
    atStb4.admits .write (atStb4.latch.outl.toNat + 16 * atStb4.bi.toNat) 64 = true := by decide

/-! Acceptance: one descriptor for each clause, at the boundaries of T12 to T15. -/

/-- The `rangesOK` of the statement about acceptance, for a descriptor whose block count is `n`. -/
def fieldsInRange (s : State) (cmd : Descriptor) (n : Nat) : Prop :=
  cmd.toNat / 2 ^ 64 % 2 ^ 64 + 240 ≤ 2 ^ s.aw ∧ cmd.toNat / 2 ^ 128 % 2 ^ 64 + 16 ≤ 2 ^ s.aw ∧
    cmd.toNat / 2 ^ 192 + 16 * n ≤ 2 ^ s.aw ∧
    s.admits .read (cmd.toNat / 2 ^ 64 % 2 ^ 64) 240 = true ∧ s.admits .read (cmd.toNat / 2 ^ 128 % 2 ^ 64) 16 = true ∧
    (n = 0 ∨ s.admits .write (cmd.toNat / 2 ^ 192) (16 * n) = true)

/-- `GENSEQ` of one block whose output ends one byte beyond the admitted range. -/
def tooFar : Descriptor := descriptor 0x02 1 0x1000 0x2000 0x3FF1
/-- `GENSEQ` of one block whose output ends exactly at the end of the admitted range. -/
def justInside : Descriptor := descriptor 0x02 1 0x1000 0x2000 0x3FF0

theorem witness_Acceptance_opcode :
    ((offered State.reset 0x0000000300000102).offers 0x0000000300000102 ∧
      (0x0000000300000102 : Descriptor).toNat / 2 ^ 8 % 2 ^ 24 ≠ 0) ∧
    ((offered State.reset 0x04).offers 0x04 ∧ (0x04 : Descriptor).toNat % 2 ^ 8 ≠ 1 ∧
      (0x04 : Descriptor).toNat % 2 ^ 8 ≠ 2 ∧ (0x04 : Descriptor).toNat % 2 ^ 8 ≠ 3) := by decide
theorem witness_Acceptance_capability :
    (offered narrowPart 0x0000000300000003).offers 0x0000000300000003 ∧
    (0x0000000300000003 : Descriptor).toNat / 2 ^ 8 % 2 ^ 24 = 0 ∧
    (0x0000000300000003 : Descriptor).toNat % 2 ^ 8 = 3 ∧ (offered narrowPart 0x0000000300000003).wide = none := by
  decide
theorem witness_Acceptance_range :
    (offered smallPart tooFar).offers tooFar ∧ tooFar.toNat / 2 ^ 8 % 2 ^ 24 = 0 ∧ tooFar.toNat % 2 ^ 8 = 2 ∧
    ¬ fieldsInRange (offered smallPart tooFar) tooFar (tooFar.toNat / 2 ^ 32 % 2 ^ 32) := by
  unfold fieldsInRange; decide
theorem witness_Acceptance_taken :
    (offered smallPart justInside).offers justInside ∧ justInside.toNat / 2 ^ 8 % 2 ^ 24 = 0 ∧
    justInside.toNat % 2 ^ 8 = 2 ∧
    fieldsInRange (offered smallPart justInside) justInside (justInside.toNat / 2 ^ 32 % 2 ^ 32) := by
  unfold fieldsInRange; decide
theorem witness_RefusedCommand : (offered narrowPart 0x03).offers 0x03 ∧
    step (offered narrowPart 0x03) = .next (statedRefused (offered narrowPart 0x03) .fCap) :=
  ⟨by decide, next_of_eq (by decide)⟩
theorem witness_Fsticky : ∃ t, step { State.reset with fsticky := true, script := [.reset] } = .next t ∧
    decide (t.fsticky = false) = true := next_with _ (by decide)

/-! Whole commands: buffers that end exactly at `2^AW`. -/

theorem witness_Commands : State.reset.upc = .idle ∧ State.reset.script = [] ∧ State.reset.wide ≠ none ∧
    State.reset.rangesOk 1 0xFFFFFFFFFFFFFF10 0xFFFFFFFFFFFFFFF0 0xFFFFFFFFFFFFFFF0 = true ∧
    State.reset.rangesOk (6 : Count).toNat 0x1000 0x2000 0xFFFFFFFFFFFFFFA0 = true ∧
    State.reset.rangesOk (0 : Count).toNat 0x1000 0x2000 0xFFFFFFFFFFFFFFFF = true := by decide
theorem witness_Sequences :
    (offered State.reset (descriptor 0x01 0 0x1000 0x2000 0x3000)).offers (descriptor 0x01 0 0x1000 0x2000 0x3000) ∧
    (offered State.reset (descriptor 0x02 3 0x1000 0x2000 0x3000)).offers (descriptor 0x02 3 0x1000 0x2000 0x3000) ∧
    (offered State.reset (descriptor 0x03 6 0x1000 0x2000 0x3000)).offers (descriptor 0x03 6 0x1000 0x2000 0x3000) ∧
    (offered State.reset (descriptor 0x03 6 0x1000 0x2000 0x3000)).wide ≠ none ∧
    (offered State.reset (descriptor 0x02 3 0x1000 0x2000 0x3000)).rangesOk (3 : Count).toNat 0x1000 0x2000 0x3000 = true ∧
    (offered State.reset (descriptor 0x03 6 0x1000 0x2000 0x3000)).rangesOk (6 : Count).toNat 0x1000 0x2000 0x3000 = true ∧
    (offered State.reset (descriptor 0x01 0 0x1000 0x2000 0x3000)).rangesOk 1 0x1000 0x2000 0x3000 = true := by
  decide
theorem witness_Streams : Memory.wf [(0x2000, 1)] ∧ 3 ≤ 3 ∧ 0 ≤ 3 := by decide
theorem witness_Counters_true : 1 ≤ 1 ∧ 1 < 2 ^ 32 ∧ (0xFFFFFFFF : Block).toNat % 2 ^ 32 + 1 ≤ 2 ^ 32 := by decide
theorem witness_Counters_wrapped : 1 ≤ 2 ∧ 2 < 2 ^ 32 ∧ ¬ ((0xFFFFFFFF : Block).toNat % 2 ^ 32 + 2 ≤ 2 ^ 32) := by decide

/-! Invariants. -/

theorem witness_ResetSatisfies : 1 ≤ smallPart.aw ∧ smallPart.aw ≤ 64 ∧ Memory.wf [(0x1000, 1), (0x1002, 2)] := by
  decide
theorem witness_EveryStep : Inv atStb ∧ ∃ t, step atStb = .next t :=
  ⟨inv_atStb, next_of_isSome (by decide)⟩
/-- A busy core with a silent host, and one whose script lets it move before a store of the host. -/
theorem witness_CoreNeverStops : (Inv atStb4 ∧ (∀ a b rest, atStb4.script ≠ .store a b :: rest) ∧
      (∀ a rest, atStb4.script ≠ .load a :: rest)) ∧
    (Inv { atStb4 with script := [.turn, .store 0x5000 1] } ∧
      (∀ a b rest, [HostMove.turn, .store 0x5000 1] ≠ .store a b :: rest) ∧
      (∀ a rest, [HostMove.turn, .store 0x5000 1] ≠ .load a :: rest)) :=
  ⟨⟨inv_atStb4, fun _ _ _ => nofun, fun _ _ => nofun⟩,
    ⟨by decide, by decide, by decide, by decide, by decide, by decide, by decide, by decide, by decide,
      by decide, by decide, by decide, by decide, by decide⟩, fun _ _ _ => nofun, fun _ _ => nofun⟩
theorem witness_IdleCore : 1 ≤ Config.part.aw ∧ Config.part.aw ≤ 64 ∧ Memory.wf [] ∧
    ∃ t, run 2 { State.resetOf Config.part with script := [.load 0, .turn] } = .next t ∧
    decide (t.upc = .idle) = true := ⟨by decide, by decide, by decide, next_with _ (by decide)⟩
/-- The byte at `OUT` changes in the step that issues `STB`, the one at `OUT + 63` in the step of `STB4`. -/
theorem witness_CoreWrites : (Inv atStb ∧ ∃ t, step atStb = .next t ∧
      decide (Memory.byteAt t.mem 0x3000 ≠ Memory.byteAt atStb.mem 0x3000) = true) ∧
    (Inv atStb4 ∧ ∃ t, step atStb4 = .next t ∧
      decide (Memory.byteAt t.mem 0x303f ≠ Memory.byteAt atStb4.mem 0x303f) = true) :=
  ⟨⟨inv_atStb, next_with _ (by decide)⟩, ⟨inv_atStb4, next_with _ (by decide)⟩⟩
/-- Two states with other key, counter, state and memory bytes. -/
theorem witness_Control : atStb.script = [] ∧
    atStb.control = ({ atStb with narrow := narrow 1 2 3 4, mem := [(0x1000, 5)] }).control ∧
    ∃ t, step atStb = .next t :=
  ⟨rfl, by decide, next_of_isSome (by decide)⟩
theorem witness_PartNeverChanges : ∃ t, step { atStb with script := [.reset] } = .next t :=
  next_of_isSome (by decide)

/-! Host. -/

/-- The reset cuts a command short; the byte after its keystream buffer is one the memory clause speaks of. -/
theorem witness_ResetInput : ({ atStb with script := [.reset] }).script = .reset :: [] ∧
    ({ atStb with script := [.reset] }).upc ≠ .idle ∧
    ¬ (0x3010 < ({ atStb with script := [.reset] }).latch.outl.toNat +
      16 * ({ atStb with script := [.reset] }).latch.nbl.toNat) := by decide
/-- The core of `atStb` with the host about to store a byte. -/
def storing (a : Addr) : State := { atStb with script := [.store a 5] }
/-- The core of `atStb` with the host about to load a byte. -/
def loading (a : Addr) : State := { atStb with script := [.load a] }

/-- The last byte of each buffer is lent. -/
theorem witness_HostMayNot_store : (storing 0x300f).script = .store 0x300f 5 :: [] ∧
    (0x300f : Addr).toNat + 1 ≤ 2 ^ (storing 0x300f).aw ∧ (storing 0x300f).upc ≠ .idle ∧ (storing 0x300f).err = none ∧
    ((storing 0x300f).latch.outl.toNat ≤ (0x300f : Addr).toNat ∧ (0x300f : Addr).toNat <
      (storing 0x300f).latch.outl.toNat + 16 * (storing 0x300f).latch.nbl.toNat) ∧
    ((storing 0x10ef).latch.ksl.toNat ≤ (0x10ef : Addr).toNat ∧
      (0x10ef : Addr).toNat < (storing 0x10ef).latch.ksl.toNat + 240) ∧
    ((storing 0x200f).latch.inl.toNat ≤ (0x200f : Addr).toNat ∧
      (0x200f : Addr).toNat < (storing 0x200f).latch.inl.toNat + 16) := by decide
theorem witness_HostMayNot_load : (loading 0x3000).script = .load 0x3000 :: [] ∧
    (0x3000 : Addr).toNat + 1 ≤ 2 ^ (loading 0x3000).aw ∧ (loading 0x3000).upc ≠ .idle ∧ (loading 0x3000).err = none ∧
    (loading 0x3000).latch.outl.toNat ≤ (0x3000 : Addr).toNat ∧ (0x3000 : Addr).toNat <
      (loading 0x3000).latch.outl.toNat + 16 * (loading 0x3000).latch.nbl.toNat := by decide
/-- The byte after each buffer is not lent, and a load from the schedule is allowed. -/
theorem witness_HostMayNot_free : (storing 0x3010).script = .store 0x3010 5 :: [] ∧
    (0x3010 : Addr).toNat + 1 ≤ 2 ^ (storing 0x3010).aw ∧
    ¬ ((0x3010 : Addr).toNat < (storing 0x3010).latch.outl.toNat + 16 * (storing 0x3010).latch.nbl.toNat) ∧
    ¬ ((0x3010 : Addr).toNat < (storing 0x3010).latch.ksl.toNat + 240) ∧
    ¬ ((0x3010 : Addr).toNat < (storing 0x3010).latch.inl.toNat + 16) ∧
    (loading 0x1000).script = .load 0x1000 :: [] ∧
    ¬ ((loading 0x1000).latch.outl.toNat ≤ (0x1000 : Addr).toNat) := by decide
theorem witness_StatusReads : ({ atStb with script := [.pollStatus] }).script = .pollStatus :: [] ∧
    ({ atStb with script := [.probeCap] }).script = .probeCap :: [] := ⟨rfl, rfl⟩
theorem witness_Gen : State.reset.upc = .idle ∧ narrowPart.upc = .idle ∧
    narrowPart.rangesOk (3 : Count).toNat 0x1000 0x2000 0x3000 = true := by decide
theorem witness_Sbox : (0x53 : Byte) ≠ 0 := by decide

end Sys2Proof.Tests
end

/-! What a datapath operation can do, said once (spec/10_state.md R36). -/

namespace Sys2Proof.Machine

open Host (Outcome)

/-- The outcomes of a datapath operation that has a next state, one constructor per operation of the table of
spec/10_state.md R36, with what its guards have checked. -/
inductive Effect (s : State) : Instr → State → Prop where
  | nop : Effect s .nop s
  | ldk {r : KeyIndex} {i : Fin 15} (key : keyNumber? r = some i) (space : s.inSpace (s.keyAddr i) 16 = true)
      (admitted : s.admits .read (s.keyAddr i) 16 = true) :
      Effect s (.ldk r) (s.setRK i (Memory.readBlock s.mem (s.keyAddr i)))
  | ldc (space : s.inSpace s.inputAddr 16 = true) (admitted : s.admits .read s.inputAddr 16 = true) :
      Effect s .ldc (s.setCtr (Memory.readBlock s.mem s.inputAddr))
  | bsw : Effect s .bsw (s.setS (rev16 s.narrow.ctr))
  | ark : Effect s .ark (s.setS (addRoundKey s.narrow.s s.narrow.rk[0]))
  | rnd {r : KeyIndex} {i : Fin 15} (key : middleNumber? r = some i) :
      Effect s (.rnd r) (s.setS (round s.narrow.s s.narrow.rk[i]))
  | fin : Effect s .fin (s.setS (finalRound s.narrow.s s.narrow.rk[14]))
  | stb (space : s.inSpace s.blockAddr 16 = true) (admitted : s.admits .write s.blockAddr 16 = true) :
      Effect s .stb (s.setMem (Memory.writeBlock s.mem s.blockAddr s.narrow.s))
  | inc : Effect s .inc (s.setCtr (add32Lo s.narrow.ctr 1))
  | bck {r : KeyIndex} {i : Fin 15} {w : WideBank} (bank : s.wide = some w) (key : keyNumber? r = some i) :
      Effect s (.bck r) (s.setWide { w with wk := w.wk.set i (Lanes.broadcast s.narrow.rk[i]) })
  | bcc {w : WideBank} (bank : s.wide = some w) :
      Effect s .bcc (s.setWide { w with ctrv := Lanes.broadcast s.narrow.ctr })
  | aof {w : WideBank} (bank : s.wide = some w) :
      Effect s .aof (s.setWide { w with ctrv := w.ctrv.mapWithLane fun j v => add32Lo v (BitVec.ofNat 32 j) })
  | bsw4 {w : WideBank} (bank : s.wide = some w) :
      Effect s .bsw4 (s.setWide { w with sv := w.ctrv.map4 rev16 })
  | ark4 {w : WideBank} (bank : s.wide = some w) :
      Effect s .ark4 (s.setWide { w with sv := w.sv.zip4 addRoundKey w.wk[0] })
  | rnd4 {r : KeyIndex} {i : Fin 15} {w : WideBank} (bank : s.wide = some w) (key : middleNumber? r = some i) :
      Effect s (.rnd4 r) (s.setWide { w with sv := w.sv.zip4 round w.wk[i] })
  | fin4 {w : WideBank} (bank : s.wide = some w) :
      Effect s .fin4 (s.setWide { w with sv := w.sv.zip4 finalRound w.wk[14] })
  | stb4 {w : WideBank} (bank : s.wide = some w) (space : s.inSpace s.blockAddr 64 = true)
      (admitted : s.admits .write s.blockAddr 64 = true) :
      Effect s .stb4 (s.setMem (Memory.writeLanes s.mem s.blockAddr w.sv))
  | inc4 {w : WideBank} (bank : s.wide = some w) :
      Effect s .inc4 (s.setWide { w with ctrv := w.ctrv.map4 fun v => add32Lo v 4 })
  | xl0 {w : WideBank} (bank : s.wide = some w) : Effect s .xl0 (s.setCtr w.ctrv.lane0)
  | clr : Effect s .clr s.clearVectors

/-- A datapath operation with a next state had its operation's effect. -/
theorem effect_of_exec {i : Instr} {s t : State} (hc : i.isCommand = false) (h : exec i s = .next t) :
    Effect s i t := by
  cases i with
  | enc1 | genseq | genpar => cases hc
  | nop => cases h; exact .nop
  | ldk r =>
    obtain ⟨i, key, h⟩ := onKey_next h
    obtain ⟨space, admitted, h⟩ := onMemory_next h
    cases h; exact .ldk key space admitted
  | ldc => obtain ⟨space, admitted, h⟩ := onMemory_next h; cases h; exact .ldc space admitted
  | bsw => cases h; exact .bsw
  | ark => cases h; exact .ark
  | rnd r => obtain ⟨i, key, h⟩ := onKey_next h; cases h; exact .rnd key
  | fin => cases h; exact .fin
  | stb => obtain ⟨space, admitted, h⟩ := onMemory_next h; cases h; exact .stb space admitted
  | inc => cases h; exact .inc
  | bck r =>
    obtain ⟨w, bank, h⟩ := onWide_next h
    obtain ⟨i, key, h⟩ := onKey_next h
    cases h; exact .bck bank key
  | bcc => obtain ⟨w, bank, h⟩ := onWide_next h; cases h; exact .bcc bank
  | aof => obtain ⟨w, bank, h⟩ := onWide_next h; cases h; exact .aof bank
  | bsw4 => obtain ⟨w, bank, h⟩ := onWide_next h; cases h; exact .bsw4 bank
  | ark4 => obtain ⟨w, bank, h⟩ := onWide_next h; cases h; exact .ark4 bank
  | rnd4 r =>
    obtain ⟨w, bank, h⟩ := onWide_next h
    obtain ⟨i, key, h⟩ := onKey_next h
    cases h; exact .rnd4 bank key
  | fin4 => obtain ⟨w, bank, h⟩ := onWide_next h; cases h; exact .fin4 bank
  | stb4 =>
    obtain ⟨w, bank, h⟩ := onWide_next h
    obtain ⟨space, admitted, h⟩ := onMemory_next h
    cases h; exact .stb4 bank space admitted
  | inc4 => obtain ⟨w, bank, h⟩ := onWide_next h; cases h; exact .inc4 bank
  | xl0 => obtain ⟨w, bank, h⟩ := onWide_next h; cases h; exact .xl0 bank
  | clr => cases h; exact .clr

namespace Effect

variable {s t : State} {i : Instr}

/-- A datapath operation writes the two banks and memory only (R36). -/
theorem frame (h : Effect s i t) : t = { s with narrow := t.narrow, wide := t.wide, mem := t.mem } := by
  cases h with
  | clr => rfl
  | _ => simp only [State.setS, State.setCtr, State.setRK, State.setMem, State.setWide]

/-- A datapath operation keeps the wide bank present or absent (R24). -/
theorem hasWide_eq (h : Effect s i t) : t.hasWide = s.hasWide := by
  cases h with
  | clr => exact State.clearVectors_hasWide s
  | bck bank | bcc bank | aof bank | bsw4 bank | ark4 bank | rnd4 bank | fin4 bank | inc4 bank =>
    simp [State.hasWide, bank]
  | _ => simp [State.hasWide]

/-- Only the two stores write memory (R36). -/
theorem mem_eq (h : Effect s i t) (h1 : i ≠ .stb) (h2 : i ≠ .stb4) : t.mem = s.mem := by
  cases h with
  | stb => exact absurd rfl h1
  | stb4 => exact absurd rfl h2
  | _ => simp

/-- A datapath operation keeps memory canonical. -/
theorem mem_wf (h : Effect s i t) (hm : Memory.wf s.mem) : Memory.wf t.mem := by
  cases h with
  | stb => rw [State.setMem_mem]; exact writeBlock_wf _ hm _ _
  | stb4 => rw [State.setMem_mem]; exact writeLanes_wf _ hm _ _
  | _ => simpa only [State.clearVectors_mem, State.setRK_mem, State.setCtr_mem, State.setS_mem, State.setWide_mem]

end Effect

end Sys2Proof.Machine

/-! What the datapath operations write, register by register (spec/10_state.md R36). -/

namespace Sys2Proof.Machine

/-- The high part of a counter as a quotient. -/
theorem high96_toNat (v : Block) : (high96 v).toNat = v.toNat / 2 ^ 32 := by
  have h := v.isLt
  simp only [high96, BitVec.extractLsb'_toNat, Nat.shiftRight_eq_div_pow]
  omega

/-- Counter addition keeps the upper 96 bits (spec/40_aes_round_functions.md R131). -/
theorem add32Lo_div (v : Block) (k : BitVec 32) : (add32Lo v k).toNat / 2 ^ 32 = v.toNat / 2 ^ 32 := by
  rw [← high96_toNat, ← high96_toNat, high96_add32Lo]

/-- A key index that is not the number of a register names another register. -/
theorem ne_of_keyNumber? {r : KeyIndex} {i q : Fin 15} (h : keyNumber? r = some i)
    (hr : r ≠ BitVec.ofNat 4 q.val) : i ≠ q := by
  rintro rfl
  unfold keyNumber? at h
  split at h
  · cases h; simp at hr
  · cases h

namespace Effect

variable {s t : State} {i : Instr}

/-- `S` is written by `BSW`, `ARK`, `RND`, `FIN` and `CLR` only. -/
theorem s_eq (h : Effect s i t) (h1 : i ∉ [.bsw, .ark, .fin, .clr]) (h2 : ∀ r, i ≠ .rnd r) :
    t.narrow.s = s.narrow.s := by
  cases h with
  | bsw | ark | fin | clr => simp at h1
  | rnd => exact absurd rfl (h2 _)
  | _ => simp

/-- `CTR` is written by `LDC`, `INC`, `XL0` and `CLR` only. -/
theorem ctr_eq (h : Effect s i t) (h1 : i ∉ [.ldc, .inc, .xl0, .clr]) : t.narrow.ctr = s.narrow.ctr := by
  cases h with
  | ldc | inc | xl0 | clr => simp at h1
  | _ => simp

/-- `INC` keeps the upper 96 bits of `CTR`. -/
theorem ctr_high (h : Effect s .inc t) : t.narrow.ctr.toNat / 2 ^ 32 = s.narrow.ctr.toNat / 2 ^ 32 := by
  cases h
  exact add32Lo_div _ _

/-- `RK[q]` is written by `LDK q` and `CLR` only. -/
theorem rk_eq (h : Effect s i t) (q : Fin 15) (h1 : i ≠ .clr) (h2 : i ≠ .ldk (BitVec.ofNat 4 q.val)) :
    t.narrow.rk[q] = s.narrow.rk[q] := by
  cases h with
  | clr => exact absurd rfl h1
  | ldk key =>
    have hne := ne_of_keyNumber? key fun hr => h2 (congrArg _ hr)
    rw [State.setRK_rk]
    exact Vector.getElem_set_ne _ _ (Fin.val_ne_of_ne hne)
  | _ => simp

section wide

variable {w v : WideBank}

/-- Where the wide bank is not written, the two banks a statement names are one. -/
theorem bank_unchanged (h : t.wide = s.wide) (hw : s.wide = some w) (hv : t.wide = some v) : v = w :=
  Option.some.inj (hv.symm.trans (h.trans hw))

/-- `SV` is written by `BSW4`, `ARK4`, `RND4`, `FIN4` and `CLR` only. -/
theorem sv_eq (h : Effect s i t) (hw : s.wide = some w) (hv : t.wide = some v)
    (h1 : i ∉ [.bsw4, .ark4, .fin4, .clr]) (h2 : ∀ r, i ≠ .rnd4 r) : v.sv = w.sv := by
  cases h with
  | bsw4 | ark4 | fin4 | clr => simp at h1
  | rnd4 => exact absurd rfl (h2 _)
  | bck bank | bcc bank | aof bank | inc4 bank => cases bank.symm.trans hw; cases hv; rfl
  | _ => rw [bank_unchanged (by simp) hw hv]

/-- `CTRV` is written by `BCC`, `AOF`, `INC4` and `CLR` only. -/
theorem ctrv_eq (h : Effect s i t) (hw : s.wide = some w) (hv : t.wide = some v)
    (h1 : i ∉ [.bcc, .aof, .inc4, .clr]) : v.ctrv = w.ctrv := by
  cases h with
  | bcc | aof | inc4 | clr => simp at h1
  | bck bank | bsw4 bank | ark4 bank | rnd4 bank | fin4 bank => cases bank.symm.trans hw; cases hv; rfl
  | _ => rw [bank_unchanged (by simp) hw hv]

/-- `AOF` and `INC4` keep the upper 96 bits of every lane's counter. -/
theorem ctrv_high (h : Effect s i t) (hw : s.wide = some w) (hv : t.wide = some v) (hi : i = .aof ∨ i = .inc4)
    (j : Fin 4) : (v.ctrv.lane j).toNat / 2 ^ 32 = (w.ctrv.lane j).toNat / 2 ^ 32 := by
  rcases hi with rfl | rfl
  · cases h with
    | aof bank => cases bank.symm.trans hw; cases hv; rw [lane_mapWithLane, add32Lo_div]
  · cases h with
    | inc4 bank => cases bank.symm.trans hw; cases hv; rw [lane_map4, add32Lo_div]

/-- `WK[q]` is written by `BCK q` and `CLR` only. -/
theorem wk_eq (h : Effect s i t) (hw : s.wide = some w) (hv : t.wide = some v) (q : Fin 15) (h1 : i ≠ .clr)
    (h2 : i ≠ .bck (BitVec.ofNat 4 q.val)) : v.wk[q] = w.wk[q] := by
  cases h with
  | clr => exact absurd rfl h1
  | @bck _ i _ bank key =>
    have hne := ne_of_keyNumber? key fun hr => h2 (congrArg _ hr)
    cases bank.symm.trans hw
    cases hv
    exact Vector.getElem_set_ne i.isLt q.isLt (Fin.val_ne_of_ne hne)
  | bcc bank | aof bank | bsw4 bank | ark4 bank | rnd4 bank | fin4 bank | inc4 bank =>
    cases bank.symm.trans hw; cases hv; rfl
  | _ => rw [bank_unchanged (by simp) hw hv]

end wide

/-- `STB` leaves every byte outside its 16 alone. -/
theorem stb_outside (h : Effect s .stb t) (hm : Memory.wf s.mem) {a : Nat}
    (ha : a < s.blockAddr ∨ s.blockAddr + 16 ≤ a) : Memory.byteAt t.mem a = Memory.byteAt s.mem a := by
  cases h
  rw [State.setMem_mem, byteAt_writeBlock _ hm, if_neg (by omega)]

/-- `STB4` leaves every byte outside its 64 alone. -/
theorem stb4_outside (h : Effect s .stb4 t) (hm : Memory.wf s.mem) {a : Nat}
    (ha : a < s.blockAddr ∨ s.blockAddr + 64 ≤ a) : Memory.byteAt t.mem a = Memory.byteAt s.mem a := by
  cases h
  rw [State.setMem_mem, byteAt_writeLanes_outside _ hm _ _ _ (by omega)]

end Effect

/-- Settles O13: each clause is the lemma about its register. -/
theorem datapathOperationsWriteOnlyTheirRegisters : Obligations.DatapathOperationsWriteOnlyTheirRegisters := by
  intro i s t hc he
  have h := effect_of_exec hc he
  refine ⟨h.frame, h.hasWide_eq, h.s_eq, h.ctr_eq, ?_, h.rk_eq, ?_, h.mem_eq, fun hm a => ⟨?_, ?_⟩⟩
  · rintro rfl; exact h.ctr_high
  · exact fun w v hw hv => ⟨h.sv_eq hw hv, h.ctrv_eq hw hv, h.ctrv_high hw hv, h.wk_eq hw hv⟩
  · rintro rfl; exact h.stb_outside hm
  · rintro rfl; exact h.stb4_outside hm

end Sys2Proof.Machine

/-! The bookkeeping of the sequencer: one lemma per question the invariant asks of it
(spec/45_sequencer_and_host.md R213 to R216). -/

namespace Sys2Proof.Machine

section advance

variable {s u : State}

/-- Bookkeeping starts no command: a running position follows a running position. -/
theorem running_of_advance (hb : s.upc ≠ .idle) (h : (s.advance u).upc.running = true) :
    s.upc.running = true := by
  cases hp : s.upc with
  | idle => exact absurd hp hb
  | clrs | done => simp [State.advance, hp, Pos.running] at h
  | _ => rfl

/-- `IDLE` and `DONE` are entered from `DONE` and `CLRS` only (spec/44_secret_hygiene.md R201). -/
theorem advance_to_idle_or_done (hu : u.upc = s.upc) (hb : s.upc ≠ .idle)
    (h : (s.advance u).upc = .idle ∨ (s.advance u).upc = .done) : s.upc = .clrs ∨ s.upc = .done := by
  cases hp : s.upc with
  | idle => exact absurd hp hb
  | clrs => exact .inl rfl
  | done => exact .inr rfl
  | kld | nrnd | wbk | wrnd | cld | nchk | nst | wchk =>
    simp only [State.advance, State.countTo, hp] at h
    split_ifs at h <;> simp [hu, hp] at h
  | _ => simp [State.advance, hp] at h

/-- Bookkeeping sets `DONE` only where it goes to `IDLE` (R216). -/
theorem advance_done (hu : u.done = false) (h : (s.advance u).done = true) : (s.advance u).upc = .idle := by
  cases hp : s.upc with
  | done => simp [State.advance, hp]
  | kld | nrnd | wbk | wrnd | cld | nchk | nst | wchk =>
    simp only [State.advance, State.countTo, hp] at h
    split_ifs at h <;> simp [hu] at h
  | _ => simp [State.advance, hp, hu] at h

/-- `BI` moves at the ends of the two loop bodies only (R213). -/
theorem advance_bi (hu : u.bi = s.bi) :
    (s.advance u).bi = s.bi ∨
    (s.upc = .nadv ∧ (s.advance u).bi = s.bi + 1 ∧ (s.advance u).upc = .nchk) ∨
    (s.upc = .wadv ∧ (s.advance u).bi = s.bi + 4 ∧ (s.advance u).upc = .wchk) := by
  cases hp : s.upc with
  | nadv | wadv => simp [State.advance, hp]
  | kld | nrnd | wbk | wrnd | cld | nchk | nst | wchk =>
    simp only [State.advance, State.countTo, hp]
    split_ifs <;> simp [hu]
  | _ => simp [State.advance, hp, hu]

/-- The wide positions are entered from `CLD` by `GENPAR` only (R213). -/
theorem wideOnly_of_advance (hu : u.upc = s.upc) (h : (s.advance u).upc.wideOnly = true) :
    s.upc.wideOnly = true ∨ s.latch.opl = 3 := by
  cases hp : s.upc with
  | kld | nrnd | cld | nchk | nst =>
    simp only [State.advance, State.countTo, hp] at h
    split_ifs at h <;> simp_all [Pos.wideOnly]
  | wbk | wbc | wof | wsw | wchk | wark | wrnd | wfin | wst | winc | wrsw | wadv | hxl | hsw => exact .inl rfl
  | _ => simp [State.advance, hp, hu, Pos.wideOnly] at h

/-- The narrow body is entered from `NCHK` only, with a block still wanted (R215). -/
theorem inNarrowBody_of_advance (hu : u.upc = s.upc) (h : (s.advance u).upc.inNarrowBody = true) :
    s.upc.inNarrowBody = true ∨ s.bi ≠ s.latch.nbl := by
  cases hp : s.upc with
  | nark | nrnd | nfin | nst | ninc | nrsw | nadv => exact .inl rfl
  | kld | wbk | wrnd | cld | nchk | wchk =>
    simp only [State.advance, State.countTo, hp] at h
    split_ifs at h <;> simp_all [Pos.inNarrowBody]
  | _ => simp [State.advance, hp, hu, Pos.inNarrowBody] at h

/-- The wide body is entered from `WCHK` only, with four blocks still wanted (R215). -/
theorem inWideBody_of_advance (hu : u.upc = s.upc) (h : (s.advance u).upc.inWideBody = true) :
    s.upc.inWideBody = true ∨ 4 ≤ s.remaining := by
  cases hp : s.upc with
  | wark | wrnd | wfin | wst | winc | wrsw | wadv => exact .inl rfl
  | kld | nrnd | wbk | cld | nchk | nst | wchk =>
    simp only [State.advance, State.countTo, hp] at h
    split_ifs at h <;> simp_all [Pos.inWideBody]
  | _ => simp [State.advance, hp, hu, Pos.inWideBody] at h

/-- Counting a key loop on stays in its range. -/
theorem isKey_succ : ∀ r : KeyIndex, KeyIndex.isKey r = true → r ≠ 14 → KeyIndex.isKey (r + 1) = true := by
  decide

/-- Counting a round loop on stays in its range. -/
theorem isMiddle_succ : ∀ r : KeyIndex, KeyIndex.isMiddle r = true → r ≠ 13 → KeyIndex.isMiddle (r + 1) = true := by
  decide

/-- `RC` fits the next position when it fits this one (R215). -/
theorem advance_admitsRC (hup : u.upc = s.upc) (hu : u.rc = s.rc) (h : s.upc.admitsRC s.rc = true) :
    (s.advance u).upc.admitsRC (s.advance u).rc = true := by
  cases hp : s.upc with
  | kld | wbk =>
    rw [hp] at h
    simp only [State.advance, State.countTo, hp]
    split_ifs with hl
    · rfl
    · simpa only [hup, hp, Pos.admitsRC] using isKey_succ s.rc h hl
  | nrnd | wrnd =>
    rw [hp] at h
    simp only [State.advance, State.countTo, hp]
    split_ifs with hl
    · rfl
    · simpa only [hup, hp, Pos.admitsRC] using isMiddle_succ s.rc h hl
  | nark | wark => simp only [State.advance, hp]; rfl
  | cld | nchk | nst | wchk =>
    have hz : s.rc = 0 := by simpa [hp, Pos.admitsRC] using h
    simp only [State.advance, hp]
    split_ifs <;> simp only [State.goto_upc, State.goto_rc, hu, hz] <;> rfl
  | _ => simpa [State.advance, hup, hu, hp, Pos.admitsRC] using h

/-- Bookkeeping writes no vector register. -/
theorem advance_vectorsZero (h : u.vectorsZero) : (s.advance u).vectorsZero := by
  rw [advance_frame]; exact h

end advance

/-! ## The issuing step -/

/-- An issuing step leaves the latch, `ERR`, `FSTICKY`, the host and the part as they are. -/
theorem issue_frame {s t : State} (h : s.issue = .next t) :
    t = { s with
      narrow := t.narrow, wide := t.wide, upc := t.upc, rc := t.rc, bi := t.bi, done := t.done, mem := t.mem } := by
  obtain ⟨i, u, -, hc, he, rfl⟩ := issue_next h
  have hu := (effect_of_exec hc he).frame
  rw [advance_frame, hu]

/-- An issuing step keeps the wide bank present or absent. -/
theorem issue_hasWide {s t : State} (h : s.issue = .next t) : t.hasWide = s.hasWide := by
  obtain ⟨i, u, -, hc, he, rfl⟩ := issue_next h
  rw [advance_frame]
  exact (effect_of_exec hc he).hasWide_eq

/-! ## The step of the system -/

/-- A step of the system: the core's, an offer put on the port, a store of the host in memory that is not lent, a
reset, or a host move that changes nothing but the script. -/
theorem step_cases {s t : State} (h : step s = .next t) :
    (∃ rest, coreStep { s with script := rest } = .next t) ∨
    (∃ cmd rest, s.script = .offer cmd :: rest ∧ s.port = none ∧ t = { s with script := rest, port := some cmd }) ∨
    (∃ a b rest, s.script = .store a b :: rest ∧ s.inSpace a.toNat 1 = true ∧
      (s.lending && s.inBuffers a.toNat) = false ∧
      t = State.setMem (Memory.storeByte s.mem a.toNat b) { s with script := rest }) ∨
    (∃ rest, s.script = .reset :: rest ∧ t = State.resetInput { s with script := rest }) ∨
    (∃ rest, t = { s with script := rest }) := by
  unfold step systemStep at h
  split at h
  case h_1 => exact .inl ⟨s.script, h⟩
  case h_2 rest _ => exact .inl ⟨rest, h⟩
  case h_3 rest _ =>
    split at h
    · cases h; exact .inr (.inr (.inr (.inr ⟨rest, rfl⟩)))
    · exact .inl ⟨s.script, h⟩
  case h_4 cmd rest hs =>
    split at h
    · rename_i hport
      cases h; exact .inr (.inl ⟨cmd, rest, hs, Option.isNone_iff_eq_none.mp hport, rfl⟩)
    · exact .inl ⟨s.script, h⟩
  case h_5 a b rest hs =>
    unfold hostStore at h
    split at h
    · rename_i hspace
      split at h
      · cases h
      · rename_i hfree
        cases h; exact .inr (.inr (.inl ⟨a, b, rest, hs, hspace, Bool.eq_false_iff.mpr hfree, rfl⟩))
    · cases h
  case h_6 a rest _ =>
    unfold hostLoad at h
    split at h
    · split at h
      · cases h
      · cases h; exact .inr (.inr (.inr (.inr ⟨rest, rfl⟩)))
    · cases h
  case h_7 rest _ | h_8 rest _ => cases h; exact .inr (.inr (.inr (.inr ⟨rest, rfl⟩)))
  case h_9 rest hs => cases h; exact .inr (.inr (.inr (.inl ⟨rest, hs, rfl⟩)))

end Sys2Proof.Machine

/-! The invariant of the machine (Sys2Proof/Safety.lean): it holds of the reset state, and each shape of a step
keeps it. -/

namespace Sys2Proof.Machine

/-- The reset state of a part, whatever canonical memory, offer and script it finds (spec/10_state.md R37). -/
theorem inv_resetOf (p : Part) {m : Memory} (offer : Option Descriptor) (moves : List HostMove)
    (hw : 1 ≤ p.aw ∧ p.aw ≤ 64) (hm : Memory.wf m) :
    Inv { State.resetOf p with mem := m, port := offer, script := moves } where
  memory := hm
  width := hw
  addresses := ⟨Nat.two_pow_pos _, Nat.two_pow_pos _, Nat.two_pow_pos _⟩
  count := Nat.zero_le _
  cleared _ := ⟨rfl, by cases h : p.hasWide <;> simp [State.resetOf, h]⟩
  notDone := nofun
  sticky h := absurd rfl h
  keyIndex := rfl
  opcode := nofun
  admitted := nofun
  capable := nofun
  wideOpcode := nofun
  narrowBody := nofun
  wideBody := nofun

/-- A cleared core is cleared (spec/44_secret_hygiene.md R200). -/
theorem State.clearVectors_vectorsZero (s : State) : s.clearVectors.vectorsZero :=
  ⟨rfl, by simp [Function.comp_def]⟩

namespace Inv

variable {s t : State}

/-- The invariant says nothing of the host's port and script. -/
theorem withHost (hi : Inv s) (offer : Option Descriptor) (moves : List HostMove) :
    Inv { s with port := offer, script := moves } :=
  { hi with }

/-- A byte store of the host keeps the invariant. -/
theorem hostStore (hi : Inv s) (a : Nat) (b : Byte) : Inv (s.setMem (Memory.storeByte s.mem a b)) :=
  { hi with memory := storeByte_wf s.mem hi.memory a b }

/-- The `reset` input keeps the invariant (spec/70_reset_and_hazards.md R270). -/
theorem resetInput (hi : Inv s) : Inv s.resetInput :=
  inv_resetOf s.part s.port s.script hi.width hi.memory

/-- Taking a fault keeps the invariant (spec/60_exceptions.md R245). -/
theorem takeFault (hi : Inv s) (hidle : s.upc = .idle) (f : CmdFault) : Inv (s.takeFault f) where
  memory := hi.memory
  width := hi.width
  addresses := hi.addresses
  count := hi.count
  cleared h := by simp at h
  notDone h := by simp at h
  sticky _ := State.takeFault_fsticky f s
  keyIndex := by simpa [hidle, Pos.admitsRC] using hi.keyIndex
  opcode := nofun
  admitted := nofun
  capable := nofun
  wideOpcode := nofun
  narrowBody := nofun
  wideBody := nofun

/-- Accepting a legal, capable, admitted command keeps the invariant (spec/45_sequencer_and_host.md R212). -/
theorem accept (hi : Inv s) {l : Latch} (hop : l.opl = 1 ∧ l.nbl = 1 ∨ l.opl = 2 ∨ l.opl = 3)
    (hcap : l.opl = 3 → s.hasWide = true) (hr : s.rangesOk l.nbl.toNat l.ksl l.inl l.outl = true) :
    Inv (s.accept l) where
  memory := hi.memory
  width := hi.width
  addresses := ⟨fitAddr_lt _ _, fitAddr_lt _ _, fitAddr_lt _ _⟩
  count := Nat.zero_le _
  cleared h := by simp at h
  notDone h := by simp at h
  sticky h := absurd rfl h
  keyIndex := rfl
  opcode _ := ⟨rfl, hop⟩
  admitted _ := rangesOk_fit hr
  capable _ := hcap
  wideOpcode := nofun
  narrowBody := nofun
  wideBody := nofun

/-- `DONE` is 0 while busy (spec/10_state.md R32). -/
theorem done_eq_false (hi : Inv s) (hb : s.upc ≠ .idle) : s.done = false :=
  Bool.eq_false_iff.mpr fun h => hb (hi.notDone h)

/-- Bookkeeping counts no block beyond `NBL` (spec/45_sequencer_and_host.md R215). -/
theorem advance_count {u : State} (hi : Inv s) (hbi : u.bi = s.bi) :
    (s.advance u).bi.toNat ≤ s.latch.nbl.toNat := by
  have hc := hi.count
  have hn := s.latch.nbl.isLt
  rcases advance_bi hbi with h | ⟨hp, h, -⟩ | ⟨hp, h, -⟩ <;> rw [h]
  · exact hc
  · have hlt := hi.narrowBody (by rw [hp]; rfl)
    rw [BitVec.toNat_add]; simp only [BitVec.reduceToNat]; omega
  · have hlt := hi.wideBody (by rw [hp]; rfl)
    rw [BitVec.toNat_add]; simp only [BitVec.reduceToNat]; omega

/-- A position of a loop body is not where a loop counts its blocks, so `BI` stands still on the way there. -/
theorem advance_bi_of_inBody {u : State} (hbi : u.bi = s.bi)
    (h : (s.advance u).upc.inNarrowBody = true ∨ (s.advance u).upc.inWideBody = true) :
    (s.advance u).bi = s.bi := by
  rcases advance_bi hbi with hs | ⟨-, -, hp⟩ | ⟨-, -, hp⟩
  · exact hs
  · rw [hp] at h; simp [Pos.inNarrowBody, Pos.inWideBody] at h
  · rw [hp] at h; simp [Pos.inNarrowBody, Pos.inWideBody] at h

/-- In the narrow body a block is wanted (spec/45_sequencer_and_host.md R215). -/
theorem advance_narrowBody {u : State} (hi : Inv s) (hupc : u.upc = s.upc) (hbi : u.bi = s.bi)
    (h : (s.advance u).upc.inNarrowBody = true) : (s.advance u).bi.toNat < s.latch.nbl.toNat := by
  rw [advance_bi_of_inBody hbi (.inl h)]
  rcases inNarrowBody_of_advance hupc h with hp | hne
  · exact hi.narrowBody hp
  · exact Nat.lt_of_le_of_ne hi.count fun he => hne (BitVec.eq_of_toNat_eq he)

/-- In the wide body four blocks are wanted (spec/45_sequencer_and_host.md R215). -/
theorem advance_wideBody {u : State} (hi : Inv s) (hupc : u.upc = s.upc) (hbi : u.bi = s.bi)
    (h : (s.advance u).upc.inWideBody = true) : (s.advance u).bi.toNat + 4 ≤ s.latch.nbl.toNat := by
  rw [advance_bi_of_inBody hbi (.inr h)]
  rcases inWideBody_of_advance hupc h with hp | hle
  · exact hi.wideBody hp
  · unfold State.remaining at hle; omega

/-- The issuing step of a busy core keeps the invariant (spec/45_sequencer_and_host.md R214). -/
theorem of_issue (hi : Inv s) (hb : s.upc ≠ .idle) (h : s.issue = .next t) : Inv t := by
  have hframe := issue_frame h
  have hlatch : t.latch = s.latch := by rw [hframe]
  have herr : t.err = s.err := by rw [hframe]
  have hsticky : t.fsticky = s.fsticky := by rw [hframe]
  have haw : t.aw = s.aw := by rw [hframe]
  have hranges : t.ranges = s.ranges := by rw [hframe]
  have hhas : t.hasWide = s.hasWide := issue_hasWide h
  obtain ⟨i, u, hd, hc, he, rfl⟩ := issue_next h
  have heff := effect_of_exec hc he
  obtain rfl : s.upc.operation s.rc = i := by
    rw [decode_issues _ _ hi.keyIndex] at hd; exact Except.ok.inj hd
  have hupc : u.upc = s.upc := by rw [heff.frame]
  have hrc : u.rc = s.rc := by rw [heff.frame]
  have hbi : u.bi = s.bi := by rw [heff.frame]
  have hdone : u.done = s.done := by rw [heff.frame]
  exact {
    memory := by rw [advance_frame]; exact heff.mem_wf hi.memory
    width := by rw [haw]; exact hi.width
    addresses := by rw [haw, hlatch]; exact hi.addresses
    count := by rw [hlatch]; exact hi.advance_count hbi
    cleared := fun hp => by
      rcases advance_to_idle_or_done hupc hb hp with hs | hs <;> rw [hs] at heff <;> cases heff
      · exact advance_vectorsZero s.clearVectors_vectorsZero
      · exact advance_vectorsZero (hi.cleared (.inr hs))
    notDone := advance_done (hdone.trans (hi.done_eq_false hb))
    sticky := by rw [herr, hsticky]; exact hi.sticky
    keyIndex := advance_admitsRC hupc hrc hi.keyIndex
    opcode := fun hp => by rw [herr, hlatch]; exact hi.opcode (running_of_advance hb hp)
    admitted := fun hp => by
      rw [rangesOk_congr haw hranges, hlatch]; exact hi.admitted (running_of_advance hb hp)
    capable := fun hp => by rw [hhas, hlatch]; exact hi.capable (running_of_advance hb hp)
    wideOpcode := fun hp => by
      rw [hlatch]; exact (wideOnly_of_advance hupc hp).elim hi.wideOpcode id
    narrowBody := by rw [hlatch]; exact hi.advance_narrowBody hupc hbi
    wideBody := by rw [hlatch]; exact hi.advance_wideBody hupc hbi }

/-- Every step of the core keeps the invariant (spec/45_sequencer_and_host.md R213, R215). -/
theorem of_coreStep (hi : Inv s) (h : coreStep s = .next t) : Inv t := by
  rcases coreStep_cases h with ⟨-, -, rfl⟩ | ⟨hidle, f, rfl⟩ | ⟨-, l, rfl, hop, hcap, hr⟩ | ⟨hb, h⟩
  · exact hi
  · exact (hi.withHost none s.script).takeFault hidle f
  · exact (hi.withHost none s.script).accept hop hcap hr
  · exact hi.of_issue hb h

/-- Every step of the core or of the host keeps the invariant. -/
theorem of_step (hi : Inv s) (h : step s = .next t) : Inv t := by
  rcases step_cases h with ⟨rest, h⟩ | ⟨cmd, rest, -, -, rfl⟩ | ⟨a, b, rest, -, -, -, rfl⟩ | ⟨rest, -, rfl⟩ |
    ⟨rest, rfl⟩
  · exact (hi.withHost s.port rest).of_coreStep h
  · exact hi.withHost (some cmd) rest
  · exact (hi.withHost s.port rest).hostStore a.toNat b
  · exact (hi.withHost s.port rest).resetInput
  · exact hi.withHost s.port rest

end Inv

/-- What every step keeps, every run keeps. -/
theorem run_keeps {P : State → Prop} (hstep : ∀ s t, P s → step s = .next t → P t) :
    ∀ {k : Nat} {s t : State}, P s → run k s = .next t → P t
  | 0, s, t, hs, h => by cases h; exact hs
  | k + 1, s, t, hs, h => by
    rw [run] at h
    split at h
    · exact run_keeps hstep (hstep _ _ hs ‹_›) h
    · cases h
    · cases h

/-- Settles O46: the invariant is kept by each shape of a step that `step_cases` and `coreStep_cases` list. -/
theorem everyStepKeepsTheInvariant : Obligations.EveryStepKeepsTheInvariant :=
  fun _ _ => Inv.of_step

/-- Settles O48: a run from reset keeps the invariant, whose clause on the idle core is the claim. -/
theorem idleCoreHoldsNoSecret : Obligations.IdleCoreHoldsNoSecret := by
  intro p m offer moves k s hlo hhi hm hrun hidle
  have hi : Inv s := run_keeps (fun _ _ => Inv.of_step) (inv_resetOf p offer moves ⟨hlo, hhi⟩ hm) hrun
  exact hi.cleared (.inl hidle)

end Sys2Proof.Machine

/-! What no step changes: the part (spec/10_state.md R31, R40). -/

namespace Sys2Proof.Machine

/-- An issuing step keeps the part. -/
theorem issue_part {s t : State} (h : s.issue = .next t) : t.part = s.part := by
  have haw : t.aw = s.aw := by rw [issue_frame h]
  have hranges : t.ranges = s.ranges := by rw [issue_frame h]
  simp only [State.part, issue_hasWide h, haw, hranges]

/-- A step of the core keeps the part. -/
theorem coreStep_part {s t : State} (h : coreStep s = .next t) : t.part = s.part := by
  rcases coreStep_cases h with ⟨-, -, rfl⟩ | ⟨-, f, rfl⟩ | ⟨-, l, rfl, -⟩ | ⟨-, h⟩
  · rfl
  · rfl
  · rfl
  · exact issue_part h

/-- The `reset` input keeps the part (spec/70_reset_and_hazards.md R270). -/
theorem resetInput_part (s : State) : s.resetInput.part = s.part := by
  cases h : s.wide <;> simp [State.part, State.hasWide, State.resetInput, State.resetOf, h]

/-- A step of the core or of the host keeps the part. -/
theorem step_part {s t : State} (h : step s = .next t) : t.part = s.part := by
  rcases step_cases h with ⟨rest, h⟩ | ⟨cmd, rest, -, -, rfl⟩ | ⟨a, b, rest, -, -, -, rfl⟩ | ⟨rest, -, rfl⟩ |
    ⟨rest, rfl⟩
  · exact (coreStep_part h :)
  · rfl
  · rfl
  · exact resetInput_part _
  · rfl

/-- Settles O51: `CAP`, `AW` and `Admit` are read off the part, which every step keeps. -/
theorem partNeverChanges : Obligations.PartNeverChanges := by
  intro s t h
  have hpart := step_part h
  have hhas : t.hasWide = s.hasWide := congrArg Part.hasWide hpart
  exact ⟨by rw [State.cap, State.cap, hhas], congrArg Part.aw hpart, congrArg Part.ranges hpart⟩

/-! `STATUS` and `CAP` as numbers (spec/10_state.md R31, R32). -/

/-- `STATUS` as the sum of its fields at their bits (R32). -/
theorem status_toNat (s : State) :
    s.status.toNat = s.busy.toNat + 2 * s.done.toNat + 16 * (errCode s.err).toNat + 256 * s.fsticky.toNat := by
  unfold State.status
  rcases s.err with _ | _ | _ | _ <;> cases s.busy <;> cases s.done <;> cases s.fsticky <;> rfl

/-- `CAP` is its one field (R31). -/
theorem cap_toNat (s : State) : s.cap.toNat = s.hasWide.toNat := by
  unfold State.cap
  cases s.hasWide <;> rfl

/-- Settles O52: the two registers as numbers, each field a case. -/
theorem statusAndCapReadAsTheirFields : Obligations.StatusAndCapReadAsTheirFields := by
  intro s
  have hbit (b : Bool) (n : Nat) : n * b.toNat = if b then n else 0 := by cases b <;> simp
  have hbusy : s.busy.toNat = if s.upc = .idle then 0 else 1 := by
    by_cases h : s.upc = .idle <;> simp [State.busy, h]
  rw [status_toNat, cap_toNat, hbusy, hbit, hbit]
  constructor
  · rcases s.err with _ | _ | _ | _ <;> rfl
  · cases h : s.wide <;> simp [State.hasWide, h]

/-! The values of reset (spec/10_state.md R37). -/

/-- Every register of the zero narrow bank is zero. -/
theorem narrowZero_rk (q : Fin 15) : NarrowBank.zero.rk[q] = 0 := by
  simp [NarrowBank.zero]

/-- A lane of a zero register. -/
theorem lane_zero (j : Fin 4) : Lanes.zero.lane j = 0 := by
  match j with
  | 0 | 1 | 2 | 3 => rfl

/-- Every lane of every register of the zero wide bank is zero. -/
theorem wideZero_lane (j : Fin 4) :
    WideBank.zero.sv.lane j = 0 ∧ WideBank.zero.ctrv.lane j = 0 ∧ ∀ q : Fin 15, WideBank.zero.wk[q].lane j = 0 := by
  simp [WideBank.zero, lane_zero]

/-- The wide bank after reset is the zero bank or absent, with `HAS_WIDE` (spec/10_state.md R24). -/
theorem resetOf_wide (p : Part) : (State.resetOf p).wide = if p.hasWide then some WideBank.zero else none := rfl

/-- `STATUS` is zero after reset. -/
theorem resetOf_status (p : Part) : (State.resetOf p).status = 0 :=
  BitVec.eq_of_toNat_eq (by rw [status_toNat]; rfl)

/-- `CAP` after reset tells whether the part has the wide unit (R31). -/
theorem resetOf_cap (p : Part) : (State.resetOf p).cap = if p.hasWide then 1 else 0 := by
  unfold State.cap State.hasWide
  rw [resetOf_wide]
  cases p.hasWide <;> rfl

/-- Settles O53: the values of the two zero banks and of the two registers. -/
theorem resetLeavesTheStatedValues : Obligations.ResetLeavesTheStatedValues := by
  intro p
  refine ⟨rfl, rfl, narrowZero_rk, ?_, ?_, rfl, rfl, rfl, resetOf_status p, resetOf_cap p⟩
  · rw [resetOf_wide]
    cases p.hasWide <;> simp
  · intro w hw
    rw [resetOf_wide] at hw
    split at hw
    · cases hw; exact wideZero_lane
    · cases hw

end Sys2Proof.Machine

/-! The bytes a keystream of `n` blocks writes, and no others (spec/20_memory.md R63;
spec/42_sequential_ctr.md R170). -/

namespace Sys2Proof.Machine

section stream

variable {m : Memory} (hm : Memory.wf m) (k : Vector Block 15) (c : Block) (out : Nat)

include hm

/-- Writing a keystream keeps the canonical form. -/
theorem writeStream_wf (n : Nat) : Memory.wf (writeStream k c out n m) := by
  induction n with
  | zero => exact hm
  | succ n ih => exact writeBlock_wf _ ih _ _

/-- A keystream leaves every byte outside its `16 n` alone. -/
theorem byteAt_writeStream_outside {n a : Nat} (ha : a < out ∨ out + 16 * n ≤ a) :
    Memory.byteAt (writeStream k c out n m) a = Memory.byteAt m a := by
  induction n with
  | zero => rfl
  | succ n ih =>
    rw [writeStream, byteAt_writeBlock _ (writeStream_wf hm k c out n), if_neg (by omega), ih (by omega)]

/-- Byte `j` of block `i` of a keystream; the blocks written after it lie above it. -/
theorem byteAt_writeStream_inside {n i j : Nat} (hi : i < n) (hj : j < 16) :
    Memory.byteAt (writeStream k c out n m) (out + 16 * i + j) =
      byte (keystreamBlock k (add32Lo c (BitVec.ofNat 32 i))) j := by
  induction n with
  | zero => omega
  | succ n ih =>
    rw [writeStream, byteAt_writeBlock _ (writeStream_wf hm k c out n)]
    rcases Nat.lt_succ_iff_lt_or_eq.mp hi with hlt | rfl
    · rw [if_neg (by omega), ih hlt]
    · rw [if_pos (by omega), Nat.add_sub_cancel_left]

end stream

/-- Settles O43: `GENSEQ` writes one keystream, whose bytes inside and outside its buffer are known. -/
theorem genseqFillsExactlyItsBuffer : Obligations.GenseqFillsExactlyItsBuffer := by
  intro m n ks ctr out hm
  exact ⟨fun i hi j hj => byteAt_writeStream_inside hm _ _ out hi hj,
    fun a ha => byteAt_writeStream_outside hm _ _ out ha⟩

end Sys2Proof.Machine

/-! Where a step of the core writes memory (spec/20_memory.md R63). -/

namespace Sys2Proof.Machine

/-- `STB` is issued at `NST` only (spec/45_sequencer_and_host.md R213). -/
theorem eq_nst_of_operation {p : Pos} {rc : KeyIndex} (h : p.operation rc = .stb) : p = .nst := by
  cases p with
  | nst => rfl
  | _ => cases h

/-- `STB4` is issued at `WST` only (spec/45_sequencer_and_host.md R213). -/
theorem eq_wst_of_operation {p : Pos} {rc : KeyIndex} (h : p.operation rc = .stb4) : p = .wst := by
  cases p with
  | wst => rfl
  | _ => cases h

/-- Bookkeeping writes no memory. -/
theorem advance_mem (s u : State) : (s.advance u).mem = u.mem := by
  rw [advance_frame]

/-- An issuing step at a position whose `RC` fits has the effect of the position's operation (R213, R214). -/
theorem issue_effect {s t : State} (hr : s.upc.admitsRC s.rc = true) (h : s.issue = .next t) :
    ∃ u, Effect s (s.upc.operation s.rc) u ∧ t = s.advance u := by
  obtain ⟨i, u, hd, hc, he, ht⟩ := issue_next h
  obtain rfl : s.upc.operation s.rc = i := Except.ok.inj ((decode_issues _ _ hr).symm.trans hd)
  exact ⟨u, effect_of_exec hc he, ht⟩

/-- An issuing step that changes a byte issues `STB` and the byte is of block `BI` of the output, or issues `STB4` and
the byte is of the four blocks from `BI` on (spec/41_single_block.md R157; spec/43_parallel_ctr.md R188). -/
theorem issue_writes {s t : State} (hi : Inv s) (h : s.issue = .next t) {a : Nat}
    (ha : Memory.byteAt t.mem a ≠ Memory.byteAt s.mem a) :
    (s.upc = .nst ∧ s.blockAddr ≤ a ∧ a < s.blockAddr + 16) ∨
    (s.upc = .wst ∧ s.blockAddr ≤ a ∧ a < s.blockAddr + 64) := by
  obtain ⟨u, heff, rfl⟩ := issue_effect hi.keyIndex h
  rw [advance_mem] at ha
  by_cases h1 : s.upc.operation s.rc = .stb
  · rw [h1] at heff
    refine .inl ⟨eq_nst_of_operation h1, ?_⟩
    by_contra hout
    exact ha (heff.stb_outside hi.memory (by omega))
  · by_cases h2 : s.upc.operation s.rc = .stb4
    · rw [h2] at heff
      refine .inr ⟨eq_wst_of_operation h2, ?_⟩
      by_contra hout
      exact ha (heff.stb4_outside hi.memory (by omega))
    · exact absurd (by rw [heff.mem_eq h1 h2]) ha

/-- Settles O49: only an issuing step writes, and the blocks it stores are wanted ones, `BI` and what follows it
lying below `NBL`. -/
theorem coreWritesOnlyTheKeystreamBuffer : Obligations.CoreWritesOnlyTheKeystreamBuffer := by
  intro s t hi hs h a ha
  rw [step_of_silent hs] at h
  rcases coreStep_cases h with ⟨-, -, rfl⟩ | ⟨-, f, rfl⟩ | ⟨-, l, rfl, -⟩ | ⟨-, h⟩
  · exact absurd rfl ha
  · exact absurd rfl ha
  · exact absurd rfl ha
  · rcases issue_writes hi h ha with ⟨hp, hlo, hhi⟩ | ⟨hp, hlo, hhi⟩ <;> unfold State.blockAddr at hlo hhi
    · have hwanted := hi.narrowBody (by rw [hp]; rfl)
      exact ⟨.inl hp, by omega, by omega⟩
    · have hwanted := hi.wideBody (by rw [hp]; rfl)
      exact ⟨.inr hp, by omega, by omega⟩

end Sys2Proof.Machine

/-! The four operations that access memory, as guarded accesses (spec/20_memory.md R60, R69, R70). -/

namespace Sys2Proof.Machine

/-- `LDK r` is a guarded load where `r` names a register (spec/41_single_block.md R151). -/
theorem exec_ldk_key {r : KeyIndex} {i : Fin 15} (s : State) (hk : keyNumber? r = some i) :
    exec (.ldk r) s =
      s.onMemory .read (s.keyAddr i) 16 (.next (s.setRK i (Memory.readBlock s.mem (s.keyAddr i)))) := by
  rw [exec, execLdk, hk, onKey]

/-- `STB4` is a guarded store on a part with the wide bank (spec/43_parallel_ctr.md R188). -/
theorem exec_stb4_wide {s : State} {w : WideBank} (hw : s.wide = some w) :
    exec .stb4 s = s.onMemory .write s.blockAddr 64 (.next (s.setMem (Memory.writeLanes s.mem s.blockAddr w.sv))) :=
  onWide_some _ hw

/-- Settles O7: each of the four operations is a guarded access, and the guard's two stops are those claimed. -/
theorem accessOutsideItsRangeStops : Obligations.AccessOutsideItsRangeStops := by
  intro s
  refine ⟨fun r hr => ?_, onMemory_outside, onMemory_notAdmitted, onMemory_outside, onMemory_notAdmitted,
    fun hw => ?_, fun hw => ?_⟩
  · rw [exec_ldk_key s (keyNumber?_isKey (decide_eq_true hr))]
    exact ⟨onMemory_outside, onMemory_notAdmitted⟩
  · obtain ⟨w, hw⟩ := Option.ne_none_iff_exists'.mp hw
    rw [exec_stb4_wide hw]
    exact onMemory_outside
  · obtain ⟨w, hw⟩ := Option.ne_none_iff_exists'.mp hw
    rw [exec_stb4_wide hw]
    exact onMemory_notAdmitted

end Sys2Proof.Machine

/-! The host's accesses to memory (spec/20_memory.md R73). -/

namespace Sys2Proof.Machine

/-- `inRange` as inequalities. -/
theorem inRange_iff {base len a : Nat} : inRange base len a = true ↔ base ≤ a ∧ a < base + len := by
  simp [inRange]

/-- Buffers are lent while a command that was not refused is running (R73; assumption 8). -/
theorem lending_iff {s : State} : s.lending = true ↔ s.upc ≠ .idle ∧ s.err = none := by
  simp [State.lending, State.busy]

/-- The addresses of the keystream buffer (spec/20_memory.md R63). -/
theorem inOutput_iff {s : State} {a : Nat} :
    s.inOutput a = true ↔ s.latch.outl.toNat ≤ a ∧ a < s.latch.outl.toNat + 16 * s.latch.nbl.toNat :=
  inRange_iff

/-- A host store meets a lent buffer: any of the three of a running command (spec/20_memory.md R61 to R63, R73). -/
theorem storeMeetsLent_iff {s : State} {a : Nat} :
    (s.lending && s.inBuffers a) = true ↔ (s.upc ≠ .idle ∧ s.err = none) ∧
      ((s.latch.outl.toNat ≤ a ∧ a < s.latch.outl.toNat + 16 * s.latch.nbl.toNat) ∨
       (s.latch.ksl.toNat ≤ a ∧ a < s.latch.ksl.toNat + 240) ∨
       (s.latch.inl.toNat ≤ a ∧ a < s.latch.inl.toNat + 16)) := by
  rw [Bool.and_eq_true, lending_iff, State.inBuffers, Bool.or_eq_true, Bool.or_eq_true, inRange_iff, inRange_iff,
    inOutput_iff, or_comm]

/-- A host load meets a lent buffer: the keystream buffer of a running command (R73). -/
theorem loadMeetsLent_iff {s : State} {a : Nat} :
    (s.lending && s.inOutput a) = true ↔ (s.upc ≠ .idle ∧ s.err = none) ∧
      (s.latch.outl.toNat ≤ a ∧ a < s.latch.outl.toNat + 16 * s.latch.nbl.toNat) := by
  rw [Bool.and_eq_true, lending_iff, inOutput_iff]

section host

variable {s : State} {a : Addr} {rest : List HostMove} (hspace : a.toNat + 1 ≤ 2 ^ s.aw)

include hspace

/-- The step of a host store at an address that exists. -/
theorem step_store {b : Byte} (hs : s.script = .store a b :: rest) :
    step s = if s.lending && s.inBuffers a.toNat then .refused .bufferInUse
      else .next { s with mem := Memory.storeByte s.mem a.toNat b, script := rest } := by
  have hmove : step s = hostStore a b { s with script := rest } := by rw [step, systemStep, hs]
  rw [hmove]
  exact if_pos (decide_eq_true hspace)

/-- The step of a host load at an address that exists. -/
theorem step_load (hs : s.script = .load a :: rest) :
    step s = if s.lending && s.inOutput a.toNat then .refused .bufferInUse else .next { s with script := rest } := by
  have hmove : step s = hostLoad a { s with script := rest } := by rw [step, systemStep, hs]
  rw [hmove]
  exact if_pos (decide_eq_true hspace)

end host

/-- Settles O55: a store and a load are refused exactly where they meet a lent buffer. -/
theorem hostMayNotTouchLentBuffers : Obligations.HostMayNotTouchLentBuffers := by
  intro s a b rest hspace
  refine ⟨fun hlent hin hs => ?_, fun hlent hin hs => ?_, fun hfree hs => ?_, fun hfree hs => ?_⟩
  · rw [step_store hspace hs, if_pos (storeMeetsLent_iff.mpr ⟨hlent, hin⟩)]
  · rw [step_load hspace hs, if_pos (loadMeetsLent_iff.mpr ⟨hlent, hin⟩)]
  · rw [step_store hspace hs, if_neg fun h => hfree (storeMeetsLent_iff.mp h)]
  · rw [step_load hspace hs, if_neg fun h => hfree (loadMeetsLent_iff.mp h)]

end Sys2Proof.Machine

/-! The fields of the two formats, and the codes that decode (spec/30_encoding.md R91 to R98). -/

namespace Sys2Proof

/-! ## Fields of a descriptor -/

section fields

variable (opc : BitVec 8) (nblk : Count) (ks inp out : Addr)

@[simp] theorem descriptor_opc : Descriptor.opc (descriptor opc nblk ks inp out) = opc :=
  BitVec.extractLsb'_append_eq_right

@[simp] theorem descriptor_rsv0 : Descriptor.rsv0 (descriptor opc nblk ks inp out) = 0#24 := by
  rw [Descriptor.rsv0, descriptor, BitVec.extractLsb'_append_eq_of_le (by decide)]
  exact BitVec.extractLsb'_append_eq_right

@[simp] theorem descriptor_nblk : Descriptor.nblk (descriptor opc nblk ks inp out) = nblk := by
  rw [Descriptor.nblk, descriptor, BitVec.extractLsb'_append_eq_of_le (by decide),
    BitVec.extractLsb'_append_eq_of_le (by decide)]
  exact BitVec.extractLsb'_append_eq_right

@[simp] theorem descriptor_ks : Descriptor.ks (descriptor opc nblk ks inp out) = ks := by
  rw [Descriptor.ks, descriptor, BitVec.extractLsb'_append_eq_of_le (by decide),
    BitVec.extractLsb'_append_eq_of_le (by decide), BitVec.extractLsb'_append_eq_of_le (by decide)]
  exact BitVec.extractLsb'_append_eq_right

@[simp] theorem descriptor_inp : Descriptor.inp (descriptor opc nblk ks inp out) = inp := by
  rw [Descriptor.inp, descriptor, BitVec.extractLsb'_append_eq_of_le (by decide),
    BitVec.extractLsb'_append_eq_of_le (by decide), BitVec.extractLsb'_append_eq_of_le (by decide),
    BitVec.extractLsb'_append_eq_of_le (by decide)]
  exact BitVec.extractLsb'_append_eq_right

@[simp] theorem descriptor_out : Descriptor.out (descriptor opc nblk ks inp out) = out := by
  rw [Descriptor.out, descriptor, BitVec.extractLsb'_append_eq_of_le (by decide),
    BitVec.extractLsb'_append_eq_of_le (by decide), BitVec.extractLsb'_append_eq_of_le (by decide),
    BitVec.extractLsb'_append_eq_of_le (by decide)]
  exact BitVec.extractLsb'_append_eq_left

end fields

section numbers

variable (cmd : Descriptor)

/-- A descriptor whose reserved bits are zero is made of its other five fields (R91). -/
theorem descriptor_of_fields {opc : BitVec 8} (hr : Descriptor.rsv0 cmd = 0#24) (ho : Descriptor.opc cmd = opc) :
    descriptor opc (Descriptor.nblk cmd) (Descriptor.ks cmd) (Descriptor.inp cmd) (Descriptor.out cmd) = cmd := by
  rw [descriptor, ← hr, ← ho, Descriptor.out, Descriptor.inp, Descriptor.ks, Descriptor.nblk, Descriptor.rsv0,
    Descriptor.opc,
    BitVec.extractLsb'_append_extractLsb'_eq_extractLsb' (start₂ := 192) (start₁ := 128) rfl,
    BitVec.extractLsb'_append_extractLsb'_eq_extractLsb' (start₂ := 128) (start₁ := 64) rfl,
    BitVec.extractLsb'_append_extractLsb'_eq_extractLsb' (start₂ := 64) (start₁ := 32) rfl,
    BitVec.extractLsb'_append_extractLsb'_eq_extractLsb' (start₂ := 32) (start₁ := 8) rfl,
    BitVec.extractLsb'_append_extractLsb'_eq_extractLsb' (start₂ := 8) (start₁ := 0) rfl,
    BitVec.extractLsb'_eq_self]

/-! Each field as a number cut from the descriptor's number (R91). -/

theorem field_toNat (k n : Nat) : (cmd.extractLsb' k n).toNat = cmd.toNat / 2 ^ k % 2 ^ n := by
  rw [BitVec.extractLsb'_toNat, Nat.shiftRight_eq_div_pow]

theorem opc_toNat : (Descriptor.opc cmd).toNat = cmd.toNat % 2 ^ 8 :=
  BitVec.extractLsb'_toNat 0 8 cmd

theorem rsv0_toNat : (Descriptor.rsv0 cmd).toNat = cmd.toNat / 2 ^ 8 % 2 ^ 24 :=
  field_toNat cmd 8 24

theorem nblk_toNat : (Descriptor.nblk cmd).toNat = cmd.toNat / 2 ^ 32 % 2 ^ 32 :=
  field_toNat cmd 32 32

theorem ks_toNat : (Descriptor.ks cmd).toNat = cmd.toNat / 2 ^ 64 % 2 ^ 64 :=
  field_toNat cmd 64 64

theorem inp_toNat : (Descriptor.inp cmd).toNat = cmd.toNat / 2 ^ 128 % 2 ^ 64 :=
  field_toNat cmd 128 64

/-- `OUT` is the topmost field: no bit above it is cut off. -/
theorem out_toNat : (Descriptor.out cmd).toNat = cmd.toNat / 2 ^ 192 := by
  have hlt : cmd.toNat / 2 ^ 192 < 2 ^ 64 := Nat.div_lt_of_lt_mul cmd.isLt
  rw [Descriptor.out, field_toNat, Nat.mod_eq_of_lt hlt]

theorem opc_eq_iff (k : BitVec 8) : Descriptor.opc cmd = k ↔ cmd.toNat % 2 ^ 8 = k.toNat := by
  rw [← opc_toNat, BitVec.toNat_inj]

theorem rsv0_eq_zero_iff : Descriptor.rsv0 cmd = 0#24 ↔ cmd.toNat / 2 ^ 8 % 2 ^ 24 = 0 := by
  rw [← rsv0_toNat, ← BitVec.toNat_inj, BitVec.toNat_ofNat, Nat.zero_mod]

end numbers

/-! ## Fields of a control word -/

/-- The number of a control word: `(R << 8) | UOP` (R96). -/
theorem controlWord_toNat (r : KeyIndex) (uop : BitVec 8) :
    (controlWord r uop).toNat = 256 * r.toNat + uop.toNat := by
  have hr : (0#4 ++ r).toNat = r.toNat := by
    rw [BitVec.toNat_append, BitVec.toNat_ofNat, Nat.zero_mod, Nat.zero_shiftLeft, Nat.zero_or]
  rw [controlWord, BitVec.toNat_append, hr, ← Nat.shiftLeft_add_eq_or_of_lt uop.isLt, Nat.shiftLeft_eq, Nat.mul_comm]

/-- A word whose upper bits are zero is made of its key index and its operation code (R96). -/
theorem controlWord_of_uop {u : CtrlWord} {n : Nat} (hz : CtrlWord.high u = 0#4) (hn : (CtrlWord.uop u).toNat = n) :
    controlWord (CtrlWord.r u) (BitVec.ofNat 8 n) = u := by
  have hu := Machine.controlWord_of_fields u
  rw [hz] at hu
  rw [← hn, BitVec.ofNat_toNat, BitVec.setWidth_eq]
  exact hu.symm

/-! ## What decodes is the code of what it decodes to -/

/-- A descriptor that decodes is the code of the command it decodes to. -/
theorem encode_of_decodeDescriptor {cmd : Descriptor} {i : Instr} (h : decodeDescriptor cmd = .ok i) :
    i.wf = true ∧ encode i = .command cmd := by
  unfold decodeDescriptor at h
  split at h
  · cases h
  · rename_i hr
    have hr := not_not.mp hr
    split at h
    · cases h; exact ⟨rfl, congrArg Code.command (descriptor_of_fields cmd hr ‹_›)⟩
    · split at h
      · cases h; exact ⟨rfl, congrArg Code.command (descriptor_of_fields cmd hr ‹_›)⟩
      · split at h
        · cases h; exact ⟨rfl, congrArg Code.command (descriptor_of_fields cmd hr ‹_›)⟩
        · cases h

/-- A word of a row with a fixed key index is the code of the row's operation (R97). -/
theorem encode_of_fixedKeyIndex {u : CtrlWord} {n : Nat} {want : KeyIndex} {i j : Instr}
    (hz : CtrlWord.high u = 0#4) (hn : (CtrlWord.uop u).toNat = n)
    (h : fixedKeyIndex want (CtrlWord.r u) j = .ok i) (hwf : j.wf = true)
    (hj : encode j = .control (controlWord want (BitVec.ofNat 8 n))) : i.wf = true ∧ encode i = .control u := by
  unfold fixedKeyIndex at h
  split at h
  · rename_i hr
    cases h; exact ⟨hwf, by rw [hj, ← hr, controlWord_of_uop hz hn]⟩
  · cases h

/-- A word of a row with an operand is the code of the row's operation with the word's key index (R97). -/
theorem encode_of_operandKeyIndex {u : CtrlWord} {n : Nat} {i j : Instr}
    (hz : CtrlWord.high u = 0#4) (hn : (CtrlWord.uop u).toNat = n) (h : operandKeyIndex j = .ok i)
    (hj : encode j = .control (controlWord (CtrlWord.r u) (BitVec.ofNat 8 n))) :
    i.wf = true ∧ encode i = .control u := by
  unfold operandKeyIndex at h
  split at h
  · rename_i hwf
    cases h; exact ⟨hwf, by rw [hj, controlWord_of_uop hz hn]⟩
  · cases h

/-- A control word that decodes is the code of the operation it decodes to: rows 2, 6, 10 and 15 of the table take
an operand, the others fix the key index. -/
theorem encode_of_decodeControl {u : CtrlWord} {i : Instr} (h : decodeControl u = .ok i) :
    i.wf = true ∧ encode i = .control u := by
  unfold decodeControl at h
  split at h
  · cases h
  · rename_i hz
    have hz := not_not.mp hz
    split at h
    case h_2 hn | h_6 hn | h_10 hn | h_15 hn => exact encode_of_operandKeyIndex hz hn h rfl
    case h_21 => cases h
    all_goals exact encode_of_fixedKeyIndex hz ‹_› h rfl rfl

/-- Settles O3: the two formats. -/
theorem encodeOfDecodeIsTheCode : Obligations.EncodeOfDecodeIsTheCode := by
  intro c i h
  cases c with
  | command cmd => exact encode_of_decodeDescriptor h
  | control u => exact encode_of_decodeControl h

/-! ## Every code decodes -/

/-- A well-formed instruction is what its code decodes to: a command by the fields of its descriptor, an operation
with an operand for the key indices of its column, the others by their one word. -/
theorem decode_encode {i : Instr} (h : i.wf = true) : decode (encode i) = .ok i := by
  cases i with
  | enc1 | genseq | genpar => simp [encode, decode, decodeDescriptor]
  | ldk r => exact Machine.decode_ldk r h
  | rnd r => exact Machine.decode_rnd r h
  | bck r => exact Machine.decode_bck r h
  | rnd4 r => exact Machine.decode_rnd4 r h
  | _ => decide

@[simp] theorem leBytes_length (k w : Nat) : (leBytes k w).length = k := by
  induction k generalizing w with
  | zero => rfl
  | succ k ih => rw [leBytes, List.length_cons, ih]

/-- The value of the `k` bytes of a number (R105). -/
theorem leValue_leBytes (k w : Nat) : leValue (leBytes k w) = w % 256 ^ k := by
  induction k generalizing w with
  | zero => rw [leBytes, leValue, Nat.pow_zero, Nat.mod_one]
  | succ k ih => rw [leBytes, leValue, ih, BitVec.toNat_ofNat, Nat.pow_succ' (m := 256), Nat.mod_mul]

/-- The bytes of a code give it back, its format by their number (R105; assumption 16). -/
theorem codeOfBytes_image (c : Code) : codeOfBytes c.image = .ok c := by
  cases c with
  | command cmd =>
    have hv : leValue (leBytes 32 cmd.toNat) = cmd.toNat := by
      rw [leValue_leBytes]; exact Nat.mod_eq_of_lt cmd.isLt
    simp [codeOfBytes, Code.image, hv]
  | control u =>
    have hv : leValue (leBytes 2 u.toNat) = u.toNat := by
      rw [leValue_leBytes]; exact Nat.mod_eq_of_lt u.isLt
    simp [codeOfBytes, Code.image, hv]

/-- Decoding the bytes of a code is decoding the code. -/
theorem decodeBytes_image (c : Code) : decodeBytes c.image = decode c := by
  rw [decodeBytes, codeOfBytes_image]

/-- Settles O2: through the code, and through its bytes. -/
theorem decodeOfEncodeIsTheInstruction : Obligations.DecodeOfEncodeIsTheInstruction := by
  intro i h
  exact ⟨decode_encode h, (decodeBytes_image _).trans (decode_encode h)⟩

/-! ## The words that decode -/

/-- The number of a word that decodes is its row's: the row fixes it, or fixes it up to the key index. -/
theorem mem_table_of_decodeControl {u : CtrlWord} {i : Instr} (h : decodeControl u = .ok i) :
    u.toNat ∈ Machine.statedFixedWords ∨
    (∃ r ≤ 14, u.toNat = 256 * r + 0x10 ∨ u.toNat = 256 * r + 0x20) ∨
    (∃ r, 1 ≤ r ∧ r ≤ 13 ∧ (u.toNat = 256 * r + 0x14 ∨ u.toNat = 256 * r + 0x25)) := by
  obtain ⟨hwf, henc⟩ := encode_of_decodeControl h
  cases i with
  | enc1 | genseq | genpar => cases henc
  | ldk r =>
    cases henc
    exact .inr (.inl ⟨r.toNat, of_decide_eq_true hwf, .inl (controlWord_toNat r 0x10)⟩)
  | bck r =>
    cases henc
    exact .inr (.inl ⟨r.toNat, of_decide_eq_true hwf, .inr (controlWord_toNat r 0x20)⟩)
  | rnd r =>
    cases henc
    obtain ⟨hlo, hhi⟩ := Bool.and_eq_true_iff.mp hwf
    exact .inr (.inr ⟨r.toNat, of_decide_eq_true hlo, of_decide_eq_true hhi, .inl (controlWord_toNat r 0x14)⟩)
  | rnd4 r =>
    cases henc
    obtain ⟨hlo, hhi⟩ := Bool.and_eq_true_iff.mp hwf
    exact .inr (.inr ⟨r.toNat, of_decide_eq_true hlo, of_decide_eq_true hhi, .inr (controlWord_toNat r 0x25)⟩)
  | _ => cases henc; exact .inl (by decide)

/-- The operations without operand (R97). -/
def fixedOperations : List Instr :=
  [.nop, .ldc, .bsw, .ark, .fin, .stb, .inc, .bcc, .aof, .bsw4, .ark4, .fin4, .stb4, .inc4, .xl0, .clr]

/-- Each fixed word of the table decodes to one of them. -/
theorem decodeControl_fixedWord :
    ∀ n ∈ Machine.statedFixedWords, ∃ i ∈ fixedOperations, decodeControl (BitVec.ofNat 16 n) = .ok i := by
  decide

/-- A word given by its number is the word of a key index below 16 and an operation code. -/
theorem eq_controlWord_of_toNat {u : CtrlWord} {r : Nat} {uop : BitVec 8} (hr : r < 16)
    (hu : u.toNat = 256 * r + uop.toNat) : u = controlWord (BitVec.ofNat 4 r) uop := by
  apply BitVec.eq_of_toNat_eq
  rw [controlWord_toNat, BitVec.toNat_ofNat, Nat.mod_eq_of_lt hr, hu]

/-- Settles O5: the words of the codes, and the code of each word. -/
theorem controlWordsAreExactlyTheTable : Obligations.ControlWordsAreExactlyTheTable := by
  intro u
  constructor
  · rintro ⟨i, h⟩
    exact mem_table_of_decodeControl h
  · rintro (hfixed | ⟨r, hr, hu⟩ | ⟨r, h1, h13, hu⟩)
    · obtain ⟨i, -, hi⟩ := decodeControl_fixedWord _ hfixed
      exact ⟨i, by rwa [BitVec.ofNat_toNat, BitVec.setWidth_eq] at hi⟩
    · have hkey : KeyIndex.isKey (BitVec.ofNat 4 r) = true := by
        simp [KeyIndex.isKey]; omega
      have hlt : r < 16 := by omega
      rcases hu with hu | hu
      · rw [eq_controlWord_of_toNat (uop := 0x10) hlt hu]
        exact ⟨_, Machine.decode_ldk _ hkey⟩
      · rw [eq_controlWord_of_toNat (uop := 0x20) hlt hu]
        exact ⟨_, Machine.decode_bck _ hkey⟩
    · have hmiddle : KeyIndex.isMiddle (BitVec.ofNat 4 r) = true := by
        simp [KeyIndex.isMiddle]; omega
      have hlt : r < 16 := by omega
      rcases hu with hu | hu
      · rw [eq_controlWord_of_toNat (uop := 0x14) hlt hu]
        exact ⟨_, Machine.decode_rnd _ hmiddle⟩
      · rw [eq_controlWord_of_toNat (uop := 0x25) hlt hu]
        exact ⟨_, Machine.decode_rnd4 _ hmiddle⟩

/-! ## The descriptors that decode -/

section descriptor

variable {cmd : Descriptor}

theorem decodeDescriptor_enc1 (hr : Descriptor.rsv0 cmd = 0#24) (ho : Descriptor.opc cmd = 0x01#8) :
    decodeDescriptor cmd =
      .ok (.enc1 (Descriptor.nblk cmd) (Descriptor.ks cmd) (Descriptor.inp cmd) (Descriptor.out cmd)) := by
  simp [decodeDescriptor, hr, ho]

theorem decodeDescriptor_genseq (hr : Descriptor.rsv0 cmd = 0#24) (ho : Descriptor.opc cmd = 0x02#8) :
    decodeDescriptor cmd =
      .ok (.genseq (Descriptor.nblk cmd) (Descriptor.ks cmd) (Descriptor.inp cmd) (Descriptor.out cmd)) := by
  simp [decodeDescriptor, hr, ho]

theorem decodeDescriptor_genpar (hr : Descriptor.rsv0 cmd = 0#24) (ho : Descriptor.opc cmd = 0x03#8) :
    decodeDescriptor cmd =
      .ok (.genpar (Descriptor.nblk cmd) (Descriptor.ks cmd) (Descriptor.inp cmd) (Descriptor.out cmd)) := by
  simp [decodeDescriptor, hr, ho]

/-- A descriptor is illegal exactly when a reserved bit is set or its opcode is none of the three (R94). -/
theorem decodeDescriptor_error_iff :
    (∃ e, decodeDescriptor cmd = .error e) ↔
      Descriptor.rsv0 cmd ≠ 0#24 ∨
      (Descriptor.opc cmd ≠ 0x01#8 ∧ Descriptor.opc cmd ≠ 0x02#8 ∧ Descriptor.opc cmd ≠ 0x03#8) := by
  by_cases hr : Descriptor.rsv0 cmd = 0#24
  · by_cases h1 : Descriptor.opc cmd = 0x01#8
    · simp [decodeDescriptor_enc1 hr h1, hr, h1]
    · by_cases h2 : Descriptor.opc cmd = 0x02#8
      · simp [decodeDescriptor_genseq hr h2, hr, h2]
      · by_cases h3 : Descriptor.opc cmd = 0x03#8
        · simp [decodeDescriptor_genpar hr h3, hr, h3]
        · simp [decodeDescriptor, hr, h1, h2, h3]
  · simp [decodeDescriptor, hr]

end descriptor

/-- Settles O4: the two fields as numbers. -/
theorem descriptorIsIllegalExactlyWhenReserved : Obligations.DescriptorIsIllegalExactlyWhenReserved := by
  intro cmd
  rw [decodeDescriptor_error_iff, Ne, rsv0_eq_zero_iff, Ne, opc_eq_iff, Ne, opc_eq_iff, Ne, opc_eq_iff, or_comm]
  rfl

/-- Settles O1: each sample is decoded. -/
theorem sampleWordsDecodeAsTheSpecSays : Obligations.SampleWordsDecodeAsTheSpecSays := by
  unfold Obligations.SampleWordsDecodeAsTheSpecSays
  decide

end Sys2Proof

/-! Acceptance of an offered descriptor, in the order of spec/30_encoding.md R104. -/

namespace Sys2Proof.Machine

/-! ## The commands on an idle core -/

section command

variable {s : State} (hidle : s.upc = .idle) (nblk : Count) (ks inp out : Addr)

include hidle

theorem exec_enc1_idle : exec (.enc1 nblk ks inp out) s =
    .next (s.acceptInRange { opl := 0x01, nbl := 1, ksl := ks, inl := inp, outl := out }) :=
  whenReady_idle hidle

theorem exec_genseq_idle : exec (.genseq nblk ks inp out) s =
    .next (s.acceptInRange { opl := 0x02, nbl := nblk, ksl := ks, inl := inp, outl := out }) :=
  whenReady_idle hidle

/-- `GENPAR` on a part with the wide unit. -/
theorem exec_genpar_wide (hw : s.hasWide = true) : exec (.genpar nblk ks inp out) s =
    .next (s.acceptInRange { opl := 0x03, nbl := nblk, ksl := ks, inl := inp, outl := out }) := by
  rw [exec, execGenpar, whenReady_idle hidle, if_pos hw]

/-- `GENPAR` on a part without the wide unit (spec/60_exceptions.md R242). -/
theorem exec_genpar_narrow (hw : s.hasWide = false) :
    exec (.genpar nblk ks inp out) s = .next (s.takeFault .fCap) := by
  rw [exec, execGenpar, whenReady_idle hidle, if_neg (Bool.eq_false_iff.mp hw)]

/-- The pseudo-command `GEN` on an idle core is left to the range check: `CAP` tells the host whether the part has
the wide unit (spec/30_encoding.md R102). -/
theorem exec_gen_idle : ∃ opc : BitVec 8, exec (Instr.gen s.cap nblk ks inp out) s =
    .next (s.acceptInRange { opl := opc, nbl := nblk, ksl := ks, inl := inp, outl := out }) := by
  have hcap : s.cap.getLsbD 0 = s.hasWide := by
    rw [State.cap]; cases s.hasWide <;> rfl
  rw [Instr.gen, hcap]
  cases hw : s.hasWide with
  | true => exact ⟨0x03, exec_genpar_wide hidle nblk ks inp out hw⟩
  | false => exact ⟨0x02, exec_genseq_idle hidle nblk ks inp out⟩

end command

/-- Settles O57: `GEN` is left to the range check, whose two outcomes are not `F_CAP`. -/
theorem genIsNeverRefusedForCapability : Obligations.GenIsNeverRefusedForCapability := by
  intro s n ks ctr out hidle
  obtain ⟨opc, he⟩ := exec_gen_idle hidle n ks ctr out
  refine ⟨_, he, ?_⟩
  obtain ⟨-, ha⟩ | ⟨hr, ha⟩ := acceptInRange_cases { opl := opc, nbl := n, ksl := ks, inl := ctr, outl := out } s <;>
    rw [ha]
  · exact ⟨nofun, fun _ => ⟨rfl, rfl⟩⟩
  · exact ⟨nofun, fun h => absurd (hr.symm.trans h) Bool.false_ne_true⟩

/-! ## The latch of an offer -/

/-- The values the latch takes of a legal descriptor (spec/10_state.md R30), the count of `ENC1` being 1
(spec/30_encoding.md R93). -/
def offeredLatch (cmd : Descriptor) : Latch where
  opl  := Descriptor.opc cmd
  nbl  := if Descriptor.opc cmd = 0x01#8 then 1 else Descriptor.nblk cmd
  ksl  := Descriptor.ks cmd
  inl  := Descriptor.inp cmd
  outl := Descriptor.out cmd

/-- The count latched of a descriptor, as a number. -/
theorem offeredLatch_nbl_toNat (cmd : Descriptor) :
    (offeredLatch cmd).nbl.toNat = if cmd.toNat % 2 ^ 8 = 1 then 1 else cmd.toNat / 2 ^ 32 % 2 ^ 32 := by
  have hopc : Descriptor.opc cmd = 0x01#8 ↔ cmd.toNat % 2 ^ 8 = 1 := opc_eq_iff cmd 0x01#8
  rw [← nblk_toNat, offeredLatch]
  simp only [hopc]
  split <;> rfl

/-- The range check of an offer, its sums in the numbers of the descriptor's fields (spec/20_memory.md R70). -/
theorem rangesOk_offeredLatch (s : State) (cmd : Descriptor) {n : Nat} (hn : (offeredLatch cmd).nbl.toNat = n) :
    s.rangesOk (offeredLatch cmd).nbl.toNat (offeredLatch cmd).ksl (offeredLatch cmd).inl (offeredLatch cmd).outl
        = true ↔
      cmd.toNat / 2 ^ 64 % 2 ^ 64 + 240 ≤ 2 ^ s.aw ∧ cmd.toNat / 2 ^ 128 % 2 ^ 64 + 16 ≤ 2 ^ s.aw ∧
      cmd.toNat / 2 ^ 192 + 16 * n ≤ 2 ^ s.aw ∧
      s.admits .read (cmd.toNat / 2 ^ 64 % 2 ^ 64) 240 = true ∧
      s.admits .read (cmd.toNat / 2 ^ 128 % 2 ^ 64) 16 = true ∧
      (n = 0 ∨ s.admits .write (cmd.toNat / 2 ^ 192) (16 * n) = true) := by
  rw [rangesOk_iff, hn, ← ks_toNat, ← inp_toNat, ← out_toNat]
  simp only [State.inSpace, decide_eq_true_eq]
  rfl

/-- What the latch holds of an offer, in the numbers of the descriptor's fields (spec/10_state.md R30). -/
theorem fit_offeredLatch (aw : Nat) (cmd : Descriptor) {n : Nat} (hn : (offeredLatch cmd).nbl.toNat = n) :
    Latch.fit aw (offeredLatch cmd) =
      { opl := BitVec.ofNat 8 (cmd.toNat % 2 ^ 8), nbl := BitVec.ofNat 32 n,
        ksl := BitVec.ofNat 64 (cmd.toNat / 2 ^ 64 % 2 ^ 64 % 2 ^ aw),
        inl := BitVec.ofNat 64 (cmd.toNat / 2 ^ 128 % 2 ^ 64 % 2 ^ aw),
        outl := BitVec.ofNat 64 (cmd.toNat / 2 ^ 192 % 2 ^ aw) } := by
  rw [← hn, ← opc_toNat, ← ks_toNat, ← inp_toNat, ← out_toNat]
  simp only [Latch.fit, fitAddr, offeredLatch, BitVec.ofNat_toNat, BitVec.setWidth_eq]

/-! ## The acceptance step -/

/-- A refused offer leaves the state of spec/60_exceptions.md R245. -/
theorem takeFault_eq_statedRefused (s : State) (f : CmdFault) :
    State.takeFault f { s with port := none } = statedRefused s f := by
  simp [State.takeFault, State.recordAcceptance, statedRefused]

/-- A taken offer leaves the state of spec/45_sequencer_and_host.md R212. -/
theorem accept_eq_statedTaken (s : State) (l : Latch) :
    State.accept l { s with port := none } = statedTaken s (Latch.fit s.aw l) := by
  simp [State.accept, State.recordAcceptance, statedTaken]

section offer

variable {s : State} {cmd : Descriptor} (ho : s.offers cmd)

include ho

/-- The step of an idle core with an offer is the acceptance step (spec/45_sequencer_and_host.md R211). -/
theorem step_of_offer : step s = s.takeOffer cmd := by
  obtain ⟨hidle, hport, hsilent⟩ := ho
  rw [step_of_silent hsilent, coreStep_of_offer hidle hport]

/-- The acceptance step of a legal descriptor runs its command on the core with the port emptied. -/
theorem step_of_legalOffer {i : Instr} (hd : decodeDescriptor cmd = .ok i) :
    step s = exec i { s with port := none } := by
  rw [step_of_offer ho, State.takeOffer, hd]

/-- An illegal descriptor is refused with `F_OPC` (spec/60_exceptions.md R241). -/
theorem step_of_illegalOffer
    (h : Descriptor.rsv0 cmd ≠ 0#24 ∨
      (Descriptor.opc cmd ≠ 0x01#8 ∧ Descriptor.opc cmd ≠ 0x02#8 ∧ Descriptor.opc cmd ≠ 0x03#8)) :
    step s = .next (statedRefused s .fOpc) := by
  obtain ⟨e, hd⟩ := decodeDescriptor_error_iff.mpr h
  rw [step_of_offer ho, State.takeOffer, hd, takeFault_eq_statedRefused]

variable (hr : Descriptor.rsv0 cmd = 0#24)

include hr

/-- `GENPAR` on a part without the wide unit is refused with `F_CAP` (spec/60_exceptions.md R242). -/
theorem step_of_incapableOffer (h3 : Descriptor.opc cmd = 0x03#8) (hw : s.wide = none) :
    step s = .next (statedRefused s .fCap) := by
  rw [step_of_legalOffer ho (decodeDescriptor_genpar hr h3), ← takeFault_eq_statedRefused]
  exact exec_genpar_narrow (s := { s with port := none }) ho.1 _ _ _ _ (by simp [State.hasWide, hw])

/-- Every other legal command is left to the range check (spec/30_encoding.md R104, cases 3 and 4). -/
theorem step_of_capableOffer
    (hc : Descriptor.opc cmd = 0x01#8 ∨ Descriptor.opc cmd = 0x02#8 ∨
      (Descriptor.opc cmd = 0x03#8 ∧ s.wide ≠ none)) :
    step s = .next (State.acceptInRange (offeredLatch cmd) { s with port := none }) := by
  unfold offeredLatch
  rcases hc with h1 | h2 | ⟨h3, hw⟩
  · rw [step_of_legalOffer ho (decodeDescriptor_enc1 hr h1), h1]
    exact exec_enc1_idle (s := { s with port := none }) ho.1 _ _ _ _
  · rw [step_of_legalOffer ho (decodeDescriptor_genseq hr h2), h2]
    exact exec_genseq_idle (s := { s with port := none }) ho.1 _ _ _ _
  · rw [step_of_legalOffer ho (decodeDescriptor_genpar hr h3), h3]
    exact exec_genpar_wide (s := { s with port := none }) ho.1 _ _ _ _ (Option.isSome_iff_ne_none.mpr hw)

end offer

/-- Settles O33: the illegal and the incapable offer are refused, and the range check decides on the others. -/
theorem acceptanceFollowsTheDecodingOrder : Obligations.AcceptanceFollowsTheDecodingOrder := by
  intro s cmd ho opc rsv0 nblk ks inp out n rangesOK
  have hn : (offeredLatch cmd).nbl.toNat = n := offeredLatch_nbl_toNat cmd
  have hrsv0 : Descriptor.rsv0 cmd = 0#24 ↔ rsv0 = 0 := rsv0_eq_zero_iff cmd
  have h1 : Descriptor.opc cmd = 0x01#8 ↔ opc = 1 := opc_eq_iff cmd 0x01#8
  have h2 : Descriptor.opc cmd = 0x02#8 ↔ opc = 2 := opc_eq_iff cmd 0x02#8
  have h3 : Descriptor.opc cmd = 0x03#8 ↔ opc = 3 := opc_eq_iff cmd 0x03#8
  have hcheck := rangesOk_offeredLatch s cmd hn
  simp only [ne_eq, ← hrsv0, ← h1, ← h2, ← h3]
  refine ⟨step_of_illegalOffer ho, step_of_incapableOffer ho, fun hr hc hout => ?_, fun hr hc hin => ?_⟩
  · rw [step_of_capableOffer ho hr hc, ← takeFault_eq_statedRefused]
    exact congrArg _ (if_neg (mt hcheck.mp hout))
  · rw [step_of_capableOffer ho hr hc, ← fit_offeredLatch s.aw cmd hn, ← accept_eq_statedTaken]
    exact congrArg _ (if_pos (hcheck.mpr hin))

end Sys2Proof.Machine

/-! The pure functions of the cipher: arithmetic in GF(2^8), the substitution table, and the identities of the four
steps and of the counter addition (spec/40_aes_round_functions.md R121 to R133). -/

namespace Sys2Proof.Machine

/-! ## Arithmetic in GF(2^8) -/

/-- Bit 7 of a byte is set exactly from 128 on, which is how R121 reads it off the number. -/
theorem xtime_eq_statedXtime (a : Byte) : xtime a = statedXtime a := by
  have htop : a.getLsbD 7 = decide (128 ≤ a.toNat) := BitVec.msb_eq_decide a
  apply BitVec.eq_of_toNat_eq
  rw [xtime, statedXtime, htop]
  by_cases h : 128 ≤ a.toNat <;> simp [h, Nat.shiftLeft_eq]

/-- The loop of `gmul`, which moves `a` up and `b` down, adds up `xtime^k(a)` over the set bits `k` of `b`. -/
theorem gmulLoop_eq_foldl (n : Nat) (r a b : Byte) :
    gmulLoop n r a b =
      (List.range n).foldl (fun r k => if b.getLsbD k then r ^^^ statedXtimes k a else r) r := by
  induction n generalizing r a b with
  | zero => rfl
  | succ n ih =>
    rw [gmulLoop, ih, List.range_succ_eq_map, List.foldl_cons, List.foldl_map, xtime_eq_statedXtime]
    simp [statedXtimes, Nat.add_comm]

theorem gmul_eq_statedProduct (a b : Byte) : gmul a b = statedProduct a b := gmulLoop_eq_foldl 8 0 a b

theorem gmul_two (a : Byte) : gmul a 2 = xtime a := by
  simp [gmul, gmulLoop]

theorem gmul_three (a : Byte) : gmul a 3 = xtime a ^^^ a := by
  simp [gmul, gmulLoop, BitVec.xor_comm]

/-- `xtime` is linear: what it reduces by depends on bit 7, and the bits of a sum are the sums of the bits. -/
theorem xtime_xor (a b : Byte) : xtime (a ^^^ b) = xtime a ^^^ xtime b := by
  have hreduce (p q : Bool) : (if p ^^ q then 0x1B else 0x00 : Byte) =
      (if p then 0x1B else 0x00) ^^^ (if q then 0x1B else 0x00) := by
    cases p <;> cases q <;> rfl
  rw [xtime, xtime, xtime, BitVec.shiftLeft_xor_distrib, BitVec.getLsbD_xor, hreduce]
  ac_rfl

/-- The loop of `gmul` is linear in the sum so far and in the first operand together. -/
theorem gmulLoop_xor (n : Nat) (r r' a a' b : Byte) :
    gmulLoop n (r ^^^ r') (a ^^^ a') b = gmulLoop n r a b ^^^ gmulLoop n r' a' b := by
  induction n generalizing r r' a a' b with
  | zero => rfl
  | succ n ih =>
    rw [gmulLoop, gmulLoop, gmulLoop, xtime_xor, ← ih]
    by_cases h : b.getLsbD 0
    · have hsum : r ^^^ r' ^^^ (a ^^^ a') = r ^^^ a ^^^ (r' ^^^ a') := by ac_rfl
      simp only [h, if_true, hsum]
    · simp only [h, if_false, Bool.false_eq_true]

/-- The product distributes over a sum on the left. -/
theorem gmul_xor (a a' b : Byte) : gmul (a ^^^ a') b = gmul a b ^^^ gmul a' b :=
  gmulLoop_xor 8 0 0 a a' b

/-! ## The substitution table -/

/-- The inverse of the affine map of R123: with `R` a rotation by one,
`(1 + R + R^2 + R^3 + R^4) * (R + R^3 + R^6) = 1` over GF(2) modulo `R^8 = 1`. -/
def sboxAffineInv (y : Byte) : Byte := y.rotateLeft 1 ^^^ y.rotateLeft 3 ^^^ y.rotateLeft 6 ^^^ 0x05

theorem sboxAffine_sboxAffineInv : ∀ y : Byte, sboxAffine (sboxAffineInv y) = y := by
  decide

/-- What the printed table holds at a nonzero byte, taken back through the affine map, is the inverse of that byte.
The table is data, so each of its entries is evaluated. -/
theorem gmul_sboxAffineInv_sbox : ∀ a : Byte, a ≠ 0 → gmul a (sboxAffineInv (sbox a)) = 1 := by
  decide

/-- Settles O58: the inverse of a byte is its table entry taken back through the affine map. -/
theorem sboxIsInverseThenAffine : Obligations.SboxIsInverseThenAffine :=
  ⟨rfl, fun a ha =>
    ⟨sboxAffineInv (sbox a), gmul_sboxAffineInv_sbox a ha, (sboxAffine_sboxAffineInv (sbox a)).symm⟩⟩

/-! ## The four steps and the counter addition -/

theorem byte_xor (v w : Block) (i : Nat) : byte (v ^^^ w) i = byte v i ^^^ byte w i := byte_addRoundKey v w i

theorem rev16_rev16 (v : Block) : rev16 (rev16 v) = v := by
  apply block_ext
  intro i hi
  rw [byte_rev16 _ _ hi, byte_rev16 _ _ (by omega), show 15 - (15 - i) = i by omega]

theorem shiftRows_subBytes (v : Block) : shiftRows (subBytes v) = subBytes (shiftRows v) := by
  apply block_ext
  intro i hi
  rw [byte_shiftRows _ _ hi, byte_subBytes _ _ (shiftRowsSource_lt i), byte_subBytes _ _ hi, byte_shiftRows _ _ hi]

/-- Each entry of a mixed column is a sum of multiples of the column's bytes. -/
theorem mixEntry_xor (a0 a1 a2 a3 b0 b1 b2 b3 : Byte) (k : Nat) :
    mixEntry (a0 ^^^ b0) (a1 ^^^ b1) (a2 ^^^ b2) (a3 ^^^ b3) k =
      mixEntry a0 a1 a2 a3 k ^^^ mixEntry b0 b1 b2 b3 k := by
  match k with
  | 0 | 1 | 2 | _ + 3 => simp only [mixEntry, gmul_xor]; ac_rfl

theorem mixColumns_xor (v w : Block) : mixColumns (v ^^^ w) = mixColumns v ^^^ mixColumns w := by
  apply block_ext
  intro i hi
  simp only [byte_xor, byte_mixColumns _ _ hi, mixEntry_xor]

/-- Two additions act on the low half as one and leave the upper half alone. -/
theorem add32Lo_add32Lo (v : Block) (a b : BitVec 32) : add32Lo (add32Lo v a) b = add32Lo v (a + b) :=
  counter_ext (by simp [BitVec.add_assoc]) (by simp)

/-- Settles O59: each clause is the lemma about its function. -/
theorem cipherFunctionIdentities : Obligations.CipherFunctionIdentities := by
  have hproducts (a : Byte) : gmul a 2 = statedXtime a ∧ gmul a 3 = statedXtime a ^^^ a :=
    xtime_eq_statedXtime a ▸ ⟨gmul_two a, gmul_three a⟩
  exact ⟨xtime_eq_statedXtime, gmul_eq_statedProduct, hproducts, rev16_rev16, shiftRows_subBytes, mixColumns_xor,
    add32Lo_add32Lo⟩

end Sys2Proof.Machine

/-! The operations of the narrow unit, each with its new value (spec/41_single_block.md R151 to R157). -/

namespace Sys2Proof.Machine

/-! ## Operations with a guard, where it lets them run -/

/-- `LDK r` where `r` names a register and its schedule entry may be read (R151). -/
theorem exec_ldk_ok {s : State} {r : KeyIndex} {i : Fin 15} (hk : keyNumber? r = some i)
    (hin : s.inSpace (s.keyAddr i) 16 = true) (hadm : s.admits .read (s.keyAddr i) 16 = true) :
    exec (.ldk r) s = .next (s.setRK i (Memory.readBlock s.mem (s.keyAddr i))) := by
  rw [exec_ldk_key s hk, onMemory_ok hin hadm]

/-- `LDC` where the input block may be read (R152). -/
theorem exec_ldc_ok {s : State} (hin : s.inSpace s.inputAddr 16 = true)
    (hadm : s.admits .read s.inputAddr 16 = true) :
    exec .ldc s = .next (s.setCtr (Memory.readBlock s.mem s.inputAddr)) :=
  onMemory_ok hin hadm

/-- `STB` where the output block may be written (R157). -/
theorem exec_stb_ok {s : State} (hin : s.inSpace s.blockAddr 16 = true)
    (hadm : s.admits .write s.blockAddr 16 = true) :
    exec .stb s = .next (s.setMem (Memory.writeBlock s.mem s.blockAddr s.narrow.s)) :=
  onMemory_ok hin hadm

/-- `RND r` where `r` names the key of a middle round (R155). -/
theorem exec_rnd_middle {r : KeyIndex} {i : Fin 15} (s : State) (hk : middleNumber? r = some i) :
    exec (.rnd r) s = .next (s.setS (round s.narrow.s s.narrow.rk[i])) := by
  rw [exec, execRnd, hk, onKey]

/-! ## The rounds, byte by byte, against the tables of the statements -/

/-- The formula of R125 gives the list of R125. -/
theorem shiftRowsSource_eq_stated : ∀ i < 16, shiftRowsSource i = statedRowSources.getD i 0 := by
  decide

/-- A byte after `SubBytes` and `ShiftRows` (R124, R125). -/
theorem byte_shiftRows_subBytes (v : Block) {i : Nat} (hi : i < 16) :
    byte (shiftRows (subBytes v)) i = sbox (byte v (statedRowSources.getD i 0)) := by
  rw [byte_shiftRows _ _ hi, byte_subBytes _ _ (shiftRowsSource_lt i), shiftRowsSource_eq_stated i hi]

theorem gmul_one (a : Byte) : gmul a 1#8 = a := by
  simp [gmul, gmulLoop]

/-- An entry of a mixed column is a row of the matrix of R126 times the column. -/
theorem mixEntry_eq_stated (a : Nat → Byte) {k : Nat} (hk : k < 4) :
    mixEntry (a 0) (a 1) (a 2) (a 3) k =
      gmul (a 0) ((statedMixRows.getD k []).getD 0 0) ^^^ gmul (a 1) ((statedMixRows.getD k []).getD 1 0) ^^^
        gmul (a 2) ((statedMixRows.getD k []).getD 2 0) ^^^ gmul (a 3) ((statedMixRows.getD k []).getD 3 0) := by
  match k, hk with
  | 0, _ | 1, _ | 2, _ | 3, _ => simp [mixEntry, statedMixRows, gmul_one]

/-- A byte of a round (R128). -/
theorem byte_round (v key : Block) {i : Nat} (hi : i < 16) : byte (round v key) i = statedRoundByte v key i := by
  have hcol (j : Nat) (hj : j < 4) :
      byte (shiftRows (subBytes v)) (4 * (i / 4) + j) = statedShifted v (i / 4) j :=
    byte_shiftRows_subBytes v (by omega)
  have hmix := mixEntry_eq_stated (statedShifted v (i / 4)) (Nat.mod_lt i (by decide : 0 < 4))
  rw [round, byte_addRoundKey, byte_mixColumns _ _ hi, ← Nat.add_zero (4 * (i / 4)), hcol 0 (by decide)]
  simp only [Nat.add_zero]
  rw [hcol 1 (by decide), hcol 2 (by decide), hcol 3 (by decide), hmix, statedRoundByte]

/-- A byte of the final round (R129). -/
theorem byte_finalRound (v key : Block) {i : Nat} (hi : i < 16) :
    byte (finalRound v key) i = statedFinalByte v key i := by
  rw [finalRound, byte_addRoundKey, byte_shiftRows_subBytes v hi, statedFinalByte]

/-! ## The obligations about one operation -/

/-- Settles O14: the load is guarded, and the block read has the bytes of memory. -/
theorem ldkLoadsTheRoundKey : Obligations.LdkLoadsTheRoundKey :=
  fun _ _ hr hin hadm =>
    ⟨_, exec_ldk_ok (keyNumber?_isKey (decide_eq_true hr)) hin hadm, byte_readBlock _ _⟩

/-- Settles O15: the load is guarded, and the block read has the bytes of memory. -/
theorem ldcLoadsTheCounter : Obligations.LdcLoadsTheCounter :=
  fun _ hin hadm => ⟨_, exec_ldc_ok hin hadm, byte_readBlock _ _⟩

/-- Settles O16: byte `i` of the reversal is byte `15 - i`. -/
theorem bswReversesTheCounter : Obligations.BswReversesTheCounter :=
  fun _ => ⟨_, rfl, byte_rev16 _⟩

/-- Settles O17: the key is added byte by byte. -/
theorem arkXorsRoundKeyZero : Obligations.ArkXorsRoundKeyZero :=
  fun _ => ⟨_, rfl, fun i _ => byte_addRoundKey _ _ i⟩

/-- Settles O18: the round's bytes are those of the list and the matrix. -/
theorem rndAppliesOneRound : Obligations.RndAppliesOneRound := by
  intro s r hlo hhi
  have hk : KeyIndex.isMiddle r = true := by simp [KeyIndex.isMiddle, hlo, hhi]
  exact ⟨_, exec_rnd_middle s (middleNumber?_isMiddle hk), fun _ => byte_round _ _⟩

/-- Settles O19: the final round's bytes are those of the list. -/
theorem finAppliesTheFinalRound : Obligations.FinAppliesTheFinalRound :=
  fun _ => ⟨_, rfl, fun _ => byte_finalRound _ _⟩

/-- Settles O20: the store is guarded, and a read after it finds the block inside its 16 bytes only. -/
theorem stbStoresTheBlock : Obligations.StbStoresTheBlock := by
  intro s hm hin hadm
  refine ⟨_, exec_stb_ok hin hadm, writeBlock_wf _ hm _ _, fun i hi => ?_, fun a ha => ?_⟩
  · rw [byteAt_writeBlock _ hm, State.blockAddr, if_pos (by omega), Nat.add_sub_cancel_left]
  · rw [byteAt_writeBlock _ hm, State.blockAddr, if_neg (by omega)]

end Sys2Proof.Machine

/-! Runs of the core together with the control words they issue (spec/45_sequencer_and_host.md R210, R214). -/

namespace Sys2Proof.Machine

/-- `Issues s ws t`: from `s` the core comes to `t` in as many steps as `ws` has words, and issues `ws` on the way. -/
inductive Issues : State → List CtrlWord → State → Prop where
  | done (s : State) : Issues s [] s
  | step {s t u : State} {ws : List CtrlWord} (first : step s = .next t) (rest : Issues t ws u) :
      Issues s (s.upc.issues s.rc :: ws) u

namespace Issues

variable {s t u : State} {ws vs : List CtrlWord}

theorem run_eq (h : Issues s ws t) : run ws.length s = .next t := by
  induction h with
  | done s => rfl
  | step first _ ih => rw [List.length_cons, run, first]; exact ih

theorem issuedWords_eq (h : Issues s ws t) : issuedWords ws.length s = ws := by
  induction h with
  | done s => rfl
  | step first _ ih => rw [List.length_cons, issuedWords, first]; exact congrArg _ ih

theorem trans (h : Issues s ws t) (h' : Issues t vs u) : Issues s (ws ++ vs) u := by
  induction h with
  | done s => exact h'
  | step first _ ih => exact .step first (ih h')

/-- A step of a busy core with a silent host, at a position whose `RC` fits, whose operation has a next state. -/
theorem busy (hs : s.hostSilent) (hb : s.upc ≠ .idle) (hr : s.upc.admitsRC s.rc = true)
    (he : exec (s.upc.operation s.rc) s = .next u) (ht : s.advance u = t) : Issues s [s.upc.issues s.rc] t := by
  refine .step ?_ (.done _)
  rw [step_busy hs hb hr, he, State.thenAdvance, ht]

/-- `n` single steps in a row. -/
theorem iterate {f : Nat → State} {w : Nat → CtrlWord} {n : Nat} (h : ∀ i < n, Issues (f i) [w i] (f (i + 1))) :
    Issues (f 0) ((List.range n).map w) (f n) := by
  induction n with
  | zero => exact .done _
  | succ n ih =>
    rw [List.range_succ, List.map_append]
    exact (ih fun i hi => h i (by omega)).trans (h n (by omega))

end Issues

/-! ## Positions and the counting loops on `RC` -/

/-- `s` with the sequencer at a position and `RC` given. -/
def State.placedAt (p : Pos) (rc : KeyIndex) (s : State) : State := { s with upc := p, rc := rc }

/-- Below its last index a counting loop stays at its position and counts (R213). -/
theorem countTo_of_ne {n last : Nat} (hlast : last < 16) (hn : n < last) (p q : Pos) (s t : State) :
    (s.placedAt p (BitVec.ofNat 4 n)).countTo (BitVec.ofNat 4 last) q (t.placedAt p (BitVec.ofNat 4 n)) =
      t.placedAt p (BitVec.ofNat 4 (n + 1)) := by
  have hne : BitVec.ofNat 4 n ≠ BitVec.ofNat 4 last := by
    intro h
    have hmod := congrArg BitVec.toNat h
    simp only [BitVec.toNat_ofNat] at hmod
    omega
  rw [BitVec.ofNat_add]
  exact if_neg hne

/-- At its last index a counting loop goes on, with `RC` zero (R213). -/
theorem countTo_of_eq (last r : KeyIndex) (p q : Pos) (s t : State) :
    (s.placedAt p last).countTo last q (t.placedAt p r) = t.placedAt q 0 :=
  if_pos rfl

/-- A counting loop on `RC` from `first` over `len` further indices: a body that takes `f i` to `f (i + 1)` at
every index takes `f 0` to `f (len + 1)`, at the position after the loop with `RC` zero (R213). -/
theorem Issues.counting {p q : Pos} {f : Nat → State} {uop : BitVec 8} {first len : Nat} (hlast : first + len < 16)
    (h : ∀ i ≤ len, Issues ((f i).placedAt p (BitVec.ofNat 4 (first + i)))
      [controlWord (BitVec.ofNat 4 (first + i)) uop]
      (((f i).placedAt p (BitVec.ofNat 4 (first + i))).countTo (BitVec.ofNat 4 (first + len)) q
        ((f (i + 1)).placedAt p (BitVec.ofNat 4 (first + i))))) :
    Issues ((f 0).placedAt p (BitVec.ofNat 4 first))
      ((List.range (len + 1)).map fun i => controlWord (BitVec.ofNat 4 (first + i)) uop)
      ((f (len + 1)).placedAt q 0) := by
  rw [List.range_succ, List.map_append]
  refine Issues.trans (t := (f len).placedAt p (BitVec.ofNat 4 (first + len)))
    (Issues.iterate (f := fun i => (f i).placedAt p (BitVec.ofNat 4 (first + i))) fun i hi => ?_) ?_
  · have hi' := h i (by omega)
    rwa [countTo_of_ne hlast (by omega)] at hi'
  · have hl := h len le_rfl
    rwa [countTo_of_eq] at hl

end Sys2Proof.Machine

/-! What the narrow unit's parts of the micro-program do: loading the schedule and the input, one block, the end of a
command (spec/41_single_block.md R158; spec/45_sequencer_and_host.md R213). -/

namespace Sys2Proof.Machine

/-! ## Accesses of a command that passed the range check (spec/20_memory.md R70) -/

section access

variable {s : State} {n : Nat} {ks inp out : Addr}

/-- The schedule's 15 entries may be read. -/
theorem access_keyAddr (h : s.rangesOk n s.latch.ksl inp out = true) (i : Fin 15) :
    s.inSpace (s.keyAddr i) 16 = true ∧ s.admits .read (s.keyAddr i) 16 = true := by
  obtain ⟨hspace, -, -, hadm, -⟩ := (rangesOk_iff ..).1 h
  have hi : s.keyAddr i + 16 ≤ s.latch.ksl.toNat + 240 := by unfold State.keyAddr; omega
  exact ⟨inSpace_sub hspace hi, admits_sub hadm (Nat.le_add_right _ _) hi⟩

/-- The input block may be read. -/
theorem access_inputAddr (h : s.rangesOk n ks s.latch.inl out = true) :
    s.inSpace s.inputAddr 16 = true ∧ s.admits .read s.inputAddr 16 = true := by
  obtain ⟨-, hspace, -, -, hadm, -⟩ := (rangesOk_iff ..).1 h
  exact ⟨hspace, hadm⟩

/-- The blocks of the output may be written. -/
theorem access_blockAddr (h : s.rangesOk n ks inp s.latch.outl = true) (hbi : s.bi.toNat < n) :
    s.inSpace s.blockAddr 16 = true ∧ s.admits .write s.blockAddr 16 = true := by
  obtain ⟨-, -, hspace, -, -, hadm⟩ := (rangesOk_iff ..).1 h
  have hi : s.blockAddr + 16 ≤ s.latch.outl.toNat + 16 * n := by unfold State.blockAddr; omega
  exact ⟨inSpace_sub hspace hi, admits_sub (hadm.resolve_left (by omega)) (Nat.le_add_right _ _) hi⟩

end access

/-! ## The data of the two loops: the keys loaded so far, the rounds run so far -/

/-- The round keys `k` after the first `n` have been loaded from the schedule at `a`. -/
def Memory.loadKeys (m : Memory) (a : Nat) (k : Vector Block 15) (n : Nat) : Vector Block 15 :=
  Vector.ofFn fun r : Fin 15 => if r.val < n then Memory.readBlock m (a + 16 * r.val) else k[r]

theorem loadKeys_zero (m : Memory) (a : Nat) (k : Vector Block 15) : Memory.loadKeys m a k 0 = k := by
  ext1 i hi
  simp [Memory.loadKeys]

theorem loadKeys_succ (m : Memory) (a : Nat) (k : Vector Block 15) (i : Fin 15) :
    (Memory.loadKeys m a k i.val).set i (Memory.readBlock m (a + 16 * i.val)) = Memory.loadKeys m a k (i.val + 1) := by
  ext1 j hj
  simp only [Memory.loadKeys, Vector.getElem_set, Vector.getElem_ofFn]
  by_cases hij : i.val = j
  · simp [hij]
  · have hlt : j < i.val + 1 ↔ j < i.val := by omega
    simp only [hij, hlt, if_false]

/-- After 15 loads the keys are the schedule (spec/20_memory.md R61). -/
theorem loadKeys_all (m : Memory) (a : Nat) (k : Vector Block 15) : Memory.loadKeys m a k 15 = m.schedule a := by
  ext1 i hi
  simp [Memory.loadKeys, Memory.schedule]

/-- The middle rounds 1 to `n` of the cipher (spec/40_aes_round_functions.md R132). -/
def middleRounds (k : Vector Block 15) (v : Block) : Nat → Block
  | 0     => v
  | n + 1 => round (middleRounds k v n) (k[1 + n]?.getD 0)

theorem middleRounds_succ (k : Vector Block 15) (v : Block) {n : Nat} (hn : 1 + n < 15) :
    middleRounds k v (n + 1) = round (middleRounds k v n) k[1 + n] := by
  rw [middleRounds, Vector.getElem?_eq_getElem hn, Option.getD_some]

/-- The cipher is the whitening, the 13 middle rounds and the final round (spec/40_aes_round_functions.md R132). -/
theorem cipher256_eq (v : Block) (k : Vector Block 15) :
    cipher256 v k = finalRound (middleRounds k (addRoundKey v k[0]) 13) k[14] := by
  simp [cipher256, middleRounds]

/-! ## Updates of a state -/

/-- `s` with `BI` given. -/
def State.setBi (n : Count) (s : State) : State := { s with bi := n }

/-- `s` with all round keys given. -/
def State.setKeys (k : Vector Block 15) (s : State) : State := { s with narrow := { s.narrow with rk := k } }

@[simp] theorem State.setKeys_rk (k : Vector Block 15) (s : State) : (s.setKeys k).narrow.rk = k := rfl
@[simp] theorem State.setKeys_script (k : Vector Block 15) (s : State) : (s.setKeys k).script = s.script := rfl
@[simp] theorem State.setKeys_bi (k : Vector Block 15) (s : State) : (s.setKeys k).bi = s.bi := rfl
@[simp] theorem State.setKeys_latch (k : Vector Block 15) (s : State) : (s.setKeys k).latch = s.latch := rfl
@[simp] theorem State.setKeys_mem (k : Vector Block 15) (s : State) : (s.setKeys k).mem = s.mem := rfl
@[simp] theorem State.setKeys_self (s : State) : s.setKeys s.narrow.rk = s := rfl
@[simp] theorem State.setRK_setKeys (i : Fin 15) (v : Block) (k : Vector Block 15) (s : State) :
    State.setRK i v (s.setKeys k) = s.setKeys (k.set i v) := rfl
@[simp] theorem State.setBi_bi (n : Count) (s : State) : (s.setBi n).bi = n := rfl
@[simp] theorem State.setBi_script (n : Count) (s : State) : (s.setBi n).script = s.script := rfl
@[simp] theorem State.setBi_mem (n : Count) (s : State) : (s.setBi n).mem = s.mem := rfl
@[simp] theorem State.setBi_latch (n : Count) (s : State) : (s.setBi n).latch = s.latch := rfl
@[simp] theorem State.setS_setS (v w : Block) (s : State) : (s.setS v).setS w = s.setS w := rfl

/-! What a guarded access looks at is left alone by the writes of the narrow bank (R36). -/

@[simp] theorem State.inSpace_setKeys (k : Vector Block 15) (s : State) (a n : Nat) :
    (s.setKeys k).inSpace a n = s.inSpace a n := rfl
@[simp] theorem State.admits_setKeys (k : Vector Block 15) (s : State) (kind : AccessKind) (a n : Nat) :
    (s.setKeys k).admits kind a n = s.admits kind a n := rfl
@[simp] theorem State.keyAddr_setKeys (k : Vector Block 15) (s : State) (i : Fin 15) :
    (s.setKeys k).keyAddr i = s.keyAddr i := rfl
@[simp] theorem State.blockAddr_setKeys (k : Vector Block 15) (s : State) : (s.setKeys k).blockAddr = s.blockAddr := rfl
@[simp] theorem State.inputAddr_setKeys (k : Vector Block 15) (s : State) : (s.setKeys k).inputAddr = s.inputAddr := rfl
@[simp] theorem State.inSpace_setCtr (v : Block) (s : State) (a n : Nat) :
    (s.setCtr v).inSpace a n = s.inSpace a n := rfl
@[simp] theorem State.admits_setCtr (v : Block) (s : State) (kind : AccessKind) (a n : Nat) :
    (s.setCtr v).admits kind a n = s.admits kind a n := rfl
@[simp] theorem State.blockAddr_setCtr (v : Block) (s : State) : (s.setCtr v).blockAddr = s.blockAddr := rfl
@[simp] theorem State.inSpace_setS (v : Block) (s : State) (a n : Nat) :
    (s.setS v).inSpace a n = s.inSpace a n := rfl
@[simp] theorem State.admits_setS (v : Block) (s : State) (kind : AccessKind) (a n : Nat) :
    (s.setS v).admits kind a n = s.admits kind a n := rfl
@[simp] theorem State.blockAddr_setS (v : Block) (s : State) : (s.setS v).blockAddr = s.blockAddr := rfl

/-- `s` with the schedule in `RK`, the input block in `CTR` and its reversal in `S` (R151, R152, R153). -/
def State.loadInputs (s : State) : State :=
  ((s.setKeys (s.mem.schedule s.latch.ksl.toNat)).setCtr (s.mem.readBlock s.inputAddr)).setS
    (rev16 (s.mem.readBlock s.inputAddr))

/-- `s` with `S` encrypted and stored as block `BI` of the output (R154 to R157). -/
def State.storeCipher (s : State) : State :=
  (s.setS (cipher256 s.narrow.s s.narrow.rk)).setMem
    (s.mem.writeBlock s.blockAddr (cipher256 s.narrow.s s.narrow.rk))

@[simp] theorem State.loadInputs_script (s : State) : s.loadInputs.script = s.script := by simp [State.loadInputs]
@[simp] theorem State.loadInputs_bi (s : State) : s.loadInputs.bi = s.bi := by simp [State.loadInputs]
@[simp] theorem State.loadInputs_latch (s : State) : s.loadInputs.latch = s.latch := by simp [State.loadInputs]
@[simp] theorem State.inSpace_loadInputs (s : State) (a n : Nat) : s.loadInputs.inSpace a n = s.inSpace a n := by
  simp [State.loadInputs]
@[simp] theorem State.admits_loadInputs (s : State) (kind : AccessKind) (a n : Nat) :
    s.loadInputs.admits kind a n = s.admits kind a n := by
  simp [State.loadInputs]
@[simp] theorem State.blockAddr_loadInputs (s : State) : s.loadInputs.blockAddr = s.blockAddr := by
  simp [State.loadInputs]
@[simp] theorem State.storeCipher_script (s : State) : s.storeCipher.script = s.script :=
  (State.setMem_script _ _).trans (State.setS_script _ _)
@[simp] theorem State.storeCipher_bi (s : State) : s.storeCipher.bi = s.bi :=
  (State.setMem_bi _ _).trans (State.setS_bi _ _)
@[simp] theorem State.storeCipher_latch (s : State) : s.storeCipher.latch = s.latch :=
  (State.setMem_latch _ _).trans (State.setS_latch _ _)

/-! ## The indices and the words of the two loops -/

theorem isKey_ofNat : ∀ i : Fin 15, KeyIndex.isKey (BitVec.ofNat 4 i.val) = true := by decide

theorem keyNumber?_ofNat : ∀ i : Fin 15, keyNumber? (BitVec.ofNat 4 i.val) = some i := by decide

theorem isMiddle_ofNat :
    ∀ i : Fin 15, 1 ≤ i.val ∧ i.val ≤ 13 → KeyIndex.isMiddle (BitVec.ofNat 4 i.val) = true := by
  decide

theorem middleNumber?_ofNat :
    ∀ i : Fin 15, 1 ≤ i.val ∧ i.val ≤ 13 → middleNumber? (BitVec.ofNat 4 i.val) = some i := by
  decide

/-- The words of the loop at `KLD` (R96, R97). -/
theorem statedLoadWords_eq :
    statedLoadWords = (List.range 15).map fun i => controlWord (BitVec.ofNat 4 (0 + i)) 0x10 := by
  decide

/-- The words of a block, with those of the loop at `NRND` (R96, R97). -/
theorem statedBlockWords_eq :
    statedBlockWords =
      [0x0013] ++ ((List.range 13).map fun i => controlWord (BitVec.ofNat 4 (1 + i)) 0x14) ++ [0x0E15, 0x0016] := by
  decide

/-! ## One step at each position of the narrow unit (R213) -/

section positions

variable {s : State} (hs : s.hostSilent)

include hs

/-- A load of the schedule (R151). -/
theorem issues_kld (i : Fin 15) (hin : s.inSpace (s.keyAddr i) 16 = true)
    (hadm : s.admits .read (s.keyAddr i) 16 = true) :
    Issues (s.placedAt .kld (BitVec.ofNat 4 i.val)) [controlWord (BitVec.ofNat 4 i.val) 0x10]
      ((s.placedAt .kld (BitVec.ofNat 4 i.val)).countTo 14 .cld
        ((s.setRK i (s.mem.readBlock (s.keyAddr i))).placedAt .kld (BitVec.ofNat 4 i.val))) :=
  .busy hs nofun (isKey_ofNat i) (exec_ldk_ok (keyNumber?_ofNat i) hin hadm) rfl

theorem issues_cld (hin : s.inSpace s.inputAddr 16 = true) (hadm : s.admits .read s.inputAddr 16 = true)
    (hop : s.latch.opl ≠ 3) :
    Issues (s.placedAt .cld 0) [0x0011] ((s.setCtr (s.mem.readBlock s.inputAddr)).placedAt .nsw 0) :=
  .busy hs nofun rfl (exec_ldc_ok hin hadm) (if_neg hop)

theorem issues_nsw : Issues (s.placedAt .nsw 0) [0x0012] ((s.setS (rev16 s.narrow.ctr)).placedAt .nchk 0) :=
  .busy hs nofun rfl rfl rfl

/-- `NCHK` enters the loop body when a block is wanted (R215). -/
theorem issues_nchk_wanted (hbi : s.bi ≠ s.latch.nbl) : Issues (s.placedAt .nchk 0) [0x0000] (s.placedAt .nark 0) :=
  .busy hs nofun rfl rfl (if_neg hbi)

/-- `NCHK` leaves the loop when every block is stored (R215). -/
theorem issues_nchk_finished (hbi : s.bi = s.latch.nbl) : Issues (s.placedAt .nchk 0) [0x0000] (s.placedAt .clrs 0) :=
  .busy hs nofun rfl rfl (if_pos hbi)

theorem issues_nark :
    Issues (s.placedAt .nark 0) [0x0013] ((s.setS (addRoundKey s.narrow.s s.narrow.rk[0])).placedAt .nrnd 1) :=
  .busy hs nofun rfl rfl rfl

/-- A middle round (R155). -/
theorem issues_nrnd {i : Nat} (hi : 1 ≤ i ∧ i ≤ 13) :
    Issues (s.placedAt .nrnd (BitVec.ofNat 4 i)) [controlWord (BitVec.ofNat 4 i) 0x14]
      ((s.placedAt .nrnd (BitVec.ofNat 4 i)).countTo 13 .nfin
        ((s.setS (round s.narrow.s s.narrow.rk[i])).placedAt .nrnd (BitVec.ofNat 4 i))) :=
  .busy hs nofun (isMiddle_ofNat ⟨i, by omega⟩ hi) (exec_rnd_middle _ (middleNumber?_ofNat ⟨i, by omega⟩ hi)) rfl

theorem issues_nfin :
    Issues (s.placedAt .nfin 0) [0x0E15] ((s.setS (finalRound s.narrow.s s.narrow.rk[14])).placedAt .nst 0) :=
  .busy hs nofun rfl rfl rfl

theorem issues_nst (hin : s.inSpace s.blockAddr 16 = true) (hadm : s.admits .write s.blockAddr 16 = true) :
    Issues (s.placedAt .nst 0) [0x0016]
      ((s.setMem (s.mem.writeBlock s.blockAddr s.narrow.s)).placedAt (if s.latch.opl = 1 then .nadv else .ninc) 0) :=
  .busy hs nofun rfl (exec_stb_ok hin hadm)
    (apply_ite (State.placedAt · 0 (s.setMem (s.mem.writeBlock s.blockAddr s.narrow.s))) _ _ _).symm

theorem issues_nadv : Issues (s.placedAt .nadv 0) [0x0000] ((s.setBi (s.bi + 1)).placedAt .nchk 0) :=
  .busy hs nofun rfl rfl rfl

theorem issues_clrs : Issues (s.placedAt .clrs 0) [0x003F] (s.clearVectors.placedAt .done 0) :=
  .busy hs nofun rfl rfl rfl

theorem issues_done : Issues (s.placedAt .done 0) [0x0000] (s.complete.placedAt .idle 0) :=
  .busy hs nofun rfl rfl rfl

end positions

/-! ## The parts of the micro-program -/

section parts

variable {s : State} (hs : s.hostSilent)

include hs

/-- The loop at `KLD` loads the schedule (R151). -/
theorem issues_loadKeys {n : Nat} {inp out : Addr} (h : s.rangesOk n s.latch.ksl inp out = true) :
    Issues (s.placedAt .kld 0) statedLoadWords ((s.setKeys (s.mem.schedule s.latch.ksl.toNat)).placedAt .cld 0) := by
  have hloop := Issues.counting (p := .kld) (q := .cld) (uop := 0x10) (first := 0) (len := 14)
    (f := fun i => s.setKeys (s.mem.loadKeys s.latch.ksl.toNat s.narrow.rk i)) (by decide) fun i hi => by
      obtain ⟨hin, hadm⟩ := access_keyAddr h ⟨i, by omega⟩
      have hkld := issues_kld (s := s.setKeys (s.mem.loadKeys s.latch.ksl.toNat s.narrow.rk i))
        ((State.setKeys_script _ _).trans hs) ⟨i, by omega⟩
      simp only [State.inSpace_setKeys, State.admits_setKeys, State.keyAddr_setKeys, State.setKeys_mem,
        State.setRK_setKeys] at hkld
      have hstep := hkld hin hadm
      rw [State.keyAddr, loadKeys_succ _ _ _ ⟨i, by omega⟩] at hstep
      rw [Nat.zero_add]
      exact hstep
  rw [loadKeys_all, loadKeys_zero, State.setKeys_self] at hloop
  rw [statedLoadWords_eq]
  exact hloop

/-- The loop at `NRND` runs the 13 middle rounds (R155). -/
theorem issues_middleRounds :
    Issues (s.placedAt .nrnd 1) ((List.range 13).map fun i => controlWord (BitVec.ofNat 4 (1 + i)) 0x14)
      ((s.setS (middleRounds s.narrow.rk s.narrow.s 13)).placedAt .nfin 0) :=
  Issues.counting (p := .nrnd) (q := .nfin) (uop := 0x14) (first := 1) (len := 12)
    (f := fun i => s.setS (middleRounds s.narrow.rk s.narrow.s i)) (by decide) fun i hi => by
      have hnrnd := issues_nrnd (s := s.setS (middleRounds s.narrow.rk s.narrow.s i))
        ((State.setS_script _ _).trans hs) (i := 1 + i) (by omega)
      simp only [State.setS_s, State.setS_rk, State.setS_setS] at hnrnd
      rw [middleRounds_succ _ _ (by omega)]
      exact hnrnd

/-- From `KLD` to `NCHK`: the schedule, the input block and its reversal (R158). -/
theorem issues_loadInputs {n : Nat} {out : Addr} (h : s.rangesOk n s.latch.ksl s.latch.inl out = true)
    (hop : s.latch.opl ≠ 3) :
    Issues (s.placedAt .kld 0) (statedLoadWords ++ [0x0011, 0x0012]) (s.loadInputs.placedAt .nchk 0) := by
  obtain ⟨hin, hadm⟩ := access_inputAddr h
  have hcld := issues_cld (s := s.setKeys (s.mem.schedule s.latch.ksl.toNat)) ((State.setKeys_script _ _).trans hs)
  simp only [State.inSpace_setKeys, State.admits_setKeys, State.inputAddr_setKeys, State.setKeys_mem,
    State.setKeys_latch] at hcld
  have hnsw := issues_nsw (s := (s.setKeys (s.mem.schedule s.latch.ksl.toNat)).setCtr (s.mem.readBlock s.inputAddr))
    ((State.setCtr_script _ _).trans ((State.setKeys_script _ _).trans hs))
  rw [State.setCtr_ctr] at hnsw
  exact (issues_loadKeys hs h).trans ((hcld hin hadm hop).trans hnsw)

/-- From `NARK` to the position after `NST`: one block, encrypted and stored (R154 to R157). -/
theorem issues_block (hin : s.inSpace s.blockAddr 16 = true) (hadm : s.admits .write s.blockAddr 16 = true) :
    Issues (s.placedAt .nark 0) statedBlockWords
      (s.storeCipher.placedAt (if s.latch.opl = 1 then .nadv else .ninc) 0) := by
  have hrounds := issues_middleRounds (s := s.setS (addRoundKey s.narrow.s s.narrow.rk[0]))
    ((State.setS_script _ _).trans hs)
  have hnfin := issues_nfin (s := s.setS (middleRounds s.narrow.rk (addRoundKey s.narrow.s s.narrow.rk[0]) 13))
    ((State.setS_script _ _).trans hs)
  rw [State.setS_s, State.setS_rk, State.setS_setS] at hrounds hnfin
  rw [← cipher256_eq] at hnfin
  have hnst := issues_nst (s := s.setS (cipher256 s.narrow.s s.narrow.rk)) ((State.setS_script _ _).trans hs)
  simp only [State.inSpace_setS, State.admits_setS, State.blockAddr_setS, State.setS_mem, State.setS_s,
    State.setS_latch] at hnst
  rw [statedBlockWords_eq]
  exact ((issues_nark hs).trans hrounds).trans (hnfin.trans (hnst hin hadm))

/-- From `CLRS` to `IDLE`: the end of every command (spec/44_secret_hygiene.md R200, R201; R216). -/
theorem issues_clear : Issues (s.placedAt .clrs 0) [0x003F, 0x0000] (s.clearVectors.complete.placedAt .idle 0) :=
  (issues_clrs hs).trans (issues_done (s := s.clearVectors) ((State.clearVectors_script s).trans hs))

/-- From `NCHK` to `IDLE` in `ENC1`: its one block, then the end (R158). -/
theorem issues_onlyBlock (hopl : s.latch.opl = 1) (hnbl : s.latch.nbl = 1) (hbi : s.bi = 0)
    (hin : s.inSpace s.blockAddr 16 = true) (hadm : s.admits .write s.blockAddr 16 = true) :
    Issues (s.placedAt .nchk 0) ([0x0000] ++ statedBlockWords ++ [0x0000, 0x0000] ++ [0x003F, 0x0000])
      ((s.storeCipher.setBi 1).clearVectors.complete.placedAt .idle 0) := by
  have hwanted := issues_nchk_wanted hs (by rw [hbi, hnbl]; decide)
  have hblock := issues_block hs hin hadm
  have hnadv := issues_nadv (s := s.storeCipher) ((State.storeCipher_script s).trans hs)
  have hscript : (s.storeCipher.setBi 1).hostSilent := by simpa [State.hostSilent] using hs
  have hfinished := issues_nchk_finished hscript (by simp [hnbl])
  rw [if_pos hopl] at hblock
  rw [State.storeCipher_bi, hbi] at hnadv
  exact ((hwanted.trans hblock).trans (hnadv.trans hfinished)).trans (issues_clear hscript)

end parts

/-! ## `ENC1` -/

/-- The words `ENC1` issues after its acceptance step, those of its `NOP` steps included (R158; R213). -/
def enc1Words : List CtrlWord :=
  statedLoadWords ++ [0x0011, 0x0012] ++ ([0x0000] ++ statedBlockWords ++ [0x0000, 0x0000] ++ [0x003F, 0x0000])

/-- What the latch takes of `ENC1` (spec/10_state.md R30; spec/30_encoding.md R93). -/
def enc1Latch (ks inp out : Addr) : Latch := { opl := 1, nbl := 1, ksl := ks, inl := inp, outl := out }

/-- The memory `ENC1` leaves (R150). -/
theorem storeCipher_loadInputs_mem {s : State} (hbi : s.bi = 0) :
    s.loadInputs.storeCipher.mem =
      enc1Memory s.mem s.latch.ksl.toNat s.latch.inl.toNat s.latch.outl.toNat := by
  simp [State.storeCipher, State.loadInputs, enc1Memory, State.inputAddr, State.blockAddr, hbi]

/-- The end of a command in a state `t` that differs from `s`, the vector registers aside, in what a command writes
only, with every wanted block stored and no error, is the state of the command level (R216, R220). -/
theorem complete_eq_afterCommand {s t : State} {l : Latch}
    (h : t.clearVectors = { s.clearVectors with
      upc := t.upc, rc := t.rc, bi := l.nbl, latch := l, done := t.done, err := none, mem := t.mem }) :
    t.clearVectors.complete.placedAt .idle 0 = s.afterCommand l t.mem := by
  rw [h]
  rfl

section enc1

variable {s : State} {ks inp out : Addr} (h : s.rangesOk 1 ks inp out = true)

include h

theorem accept_enc1Latch_latch : (s.accept (enc1Latch ks inp out)).latch = enc1Latch ks inp out :=
  fit_of_rangesOk h Nat.one_pos

/-- What the run of an `ENC1` leaves is the state of the command level (R150). -/
theorem afterCommand_enc1 :
    ((s.accept (enc1Latch ks inp out)).loadInputs.storeCipher.setBi 1).clearVectors.complete.placedAt .idle 0 =
      s.afterCommand (enc1Latch ks inp out) (enc1Memory s.mem ks.toNat inp.toNat out.toNat) := by
  have hlatch := accept_enc1Latch_latch h
  have hmem : ((s.accept (enc1Latch ks inp out)).loadInputs.storeCipher.setBi 1).mem =
      enc1Memory s.mem ks.toNat inp.toNat out.toNat := by
    rw [State.setBi_mem, storeCipher_loadInputs_mem rfl, hlatch]
    rfl
  have hnbl : (enc1Latch ks inp out).nbl = 1 := rfl
  rw [← hmem]
  apply complete_eq_afterCommand
  rw [State.accept_latch] at hlatch
  simp [State.clearVectors, State.setBi, State.storeCipher, State.setMem, State.setS, State.loadInputs, State.setCtr,
    State.setKeys, State.accept, State.recordAcceptance, hlatch, hnbl]

/-- An `ENC1` that passed the range check runs to the state of R150 and issues the words of R158. -/
theorem issues_enc1 (hs : s.hostSilent) :
    Issues (s.accept (enc1Latch ks inp out)) enc1Words
      (s.afterCommand (enc1Latch ks inp out) (enc1Memory s.mem ks.toNat inp.toNat out.toNat)) := by
  have hlatch := accept_enc1Latch_latch h
  have hscript : (s.accept (enc1Latch ks inp out)).hostSilent := (State.accept_script _ s).trans hs
  have hranges : (s.accept (enc1Latch ks inp out)).rangesOk 1 (s.accept (enc1Latch ks inp out)).latch.ksl
      (s.accept (enc1Latch ks inp out)).latch.inl (s.accept (enc1Latch ks inp out)).latch.outl = true := by
    rw [hlatch, rangesOk_congr (State.accept_aw _ s) (State.accept_ranges _ s)]
    exact h
  obtain ⟨hin, hadm⟩ := access_blockAddr hranges Nat.one_pos
  have hload := issues_loadInputs hscript hranges (by rw [hlatch]; exact nofun)
  have hblock := issues_onlyBlock (s := (s.accept (enc1Latch ks inp out)).loadInputs)
    ((State.loadInputs_script _).trans hscript)
    (by rw [State.loadInputs_latch, hlatch]; rfl) (by rw [State.loadInputs_latch, hlatch]; rfl)
    (by rw [State.loadInputs_bi]; rfl) (by simpa using hin) (by simpa using hadm)
  rw [afterCommand_enc1 h] at hblock
  exact hload.trans hblock

end enc1

/-- Settles O36: the run of `issues_enc1` after the acceptance step. -/
theorem enc1RunsToItsCiphertext : Obligations.Enc1RunsToItsCiphertext := by
  intro s n ks inp out hidle hs h
  have htaken : exec (.enc1 n ks inp out) s = .next (s.accept (enc1Latch ks inp out)) :=
    (exec_enc1_idle hidle n ks inp out).trans (congrArg _ (if_pos h))
  exact ⟨_, htaken, (issues_enc1 h hs).run_eq⟩

/-- Settles O39: the words of `issues_enc1` after the `NOP` of the acceptance step, without the `NOP`s. -/
theorem enc1IssuesItsSequence : Obligations.Enc1IssuesItsSequence := by
  intro s n ks inp out ho h
  have htaken : step s = .next (State.accept (enc1Latch ks inp out) { s with port := none }) := by
    rw [step_of_legalOffer ho (decodeDescriptor_enc1 (descriptor_rsv0 ..) (descriptor_opc ..))]
    simp only [descriptor_ks, descriptor_inp, descriptor_out]
    rw [exec_enc1_idle (s := { s with port := none }) ho.1]
    exact congrArg _ (if_pos h)
  have hwords := (Issues.step htaken (issues_enc1 (s := { s with port := none }) h ho.2.2)).issuedWords_eq
  rw [ho.1] at hwords
  have hfilter : (0x0000 :: enc1Words).filter (· ≠ 0x0000) =
    statedLoadWords ++ [0x0011, 0x0012] ++ statedBlockWords ++ [0x003F] := by decide
  exact (congrArg (List.filter _) hwords).trans hfilter

end Sys2Proof.Machine

/-! The sequential generator: its counter increment, its loop, and its runs (spec/42_sequential_ctr.md R170 to R172;
spec/45_sequencer_and_host.md R213). -/

namespace Sys2Proof.Machine

/-! ## The counter increment -/

/-- The low part of a counter as a remainder. -/
theorem low32_toNat (v : Block) : (low32 v).toNat = v.toNat % 2 ^ 32 :=
  BitVec.extractLsb'_toNat 0 32 v

/-- Counter addition counts the low 32 bits modulo 2^32 (spec/40_aes_round_functions.md R131). -/
theorem add32Lo_mod (v : Block) (k : BitVec 32) : (add32Lo v k).toNat % 2 ^ 32 = (v.toNat + k.toNat) % 2 ^ 32 := by
  rw [← low32_toNat, low32_add32Lo, BitVec.toNat_add, low32_toNat, Nat.mod_add_mod]

theorem add32Lo_zero (v : Block) : add32Lo v 0#32 = v :=
  counter_ext (by simp) (by simp)

/-- Settles O21: the two parts of a counter after an addition of 1. -/
theorem incIncrementsTheLowWord : Obligations.IncIncrementsTheLowWord :=
  fun _ => ⟨_, rfl, add32Lo_mod _ 1, add32Lo_div _ 1⟩

/-! ## Blocks of a keystream -/

/-- `s` after one pass of the narrow loop body: the block in `S` encrypted and stored, the counter incremented and its
reversal in `S`, the block counted (R172). -/
def State.nextBlock (s : State) : State :=
  ((s.storeCipher.setCtr (add32Lo s.narrow.ctr 1)).setS (rev16 (add32Lo s.narrow.ctr 1))).setBi (s.bi + 1)

/-- `s` after `n` blocks of the keystream of its counter, stored from block `BI` on (R170). -/
def State.afterBlocks (s : State) (n : Nat) : State :=
  (((s.setMem (writeStream s.narrow.rk s.narrow.ctr s.blockAddr n s.mem)).setCtr
    (add32Lo s.narrow.ctr (BitVec.ofNat 32 n))).setS (rev16 (add32Lo s.narrow.ctr (BitVec.ofNat 32 n)))).setBi
      (s.bi + BitVec.ofNat 32 n)

@[simp] theorem State.afterBlocks_mem (s : State) (n : Nat) :
    (s.afterBlocks n).mem = writeStream s.narrow.rk s.narrow.ctr s.blockAddr n s.mem := rfl
@[simp] theorem State.afterBlocks_ctr (s : State) (n : Nat) :
    (s.afterBlocks n).narrow.ctr = add32Lo s.narrow.ctr (BitVec.ofNat 32 n) := rfl
@[simp] theorem State.afterBlocks_bi (s : State) (n : Nat) : (s.afterBlocks n).bi = s.bi + BitVec.ofNat 32 n := rfl
@[simp] theorem State.afterBlocks_latch (s : State) (n : Nat) : (s.afterBlocks n).latch = s.latch := rfl
@[simp] theorem State.afterBlocks_script (s : State) (n : Nat) : (s.afterBlocks n).script = s.script := rfl
@[simp] theorem State.afterBlocks_aw (s : State) (n : Nat) : (s.afterBlocks n).aw = s.aw := rfl
@[simp] theorem State.afterBlocks_ranges (s : State) (n : Nat) : (s.afterBlocks n).ranges = s.ranges := rfl

/-- No block leaves a state as it is that holds the reversal of its counter in `S`. -/
theorem State.afterBlocks_zero {s : State} (hrev : s.narrow.s = rev16 s.narrow.ctr) : s.afterBlocks 0 = s := by
  rw [State.afterBlocks, add32Lo_zero, ← hrev, BitVec.add_zero]
  rfl

/-- The number of blocks stored, where `BI` does not wrap. -/
theorem State.afterBlocks_bi_toNat {s : State} {n : Nat} (hn : s.bi.toNat + n < 2 ^ 32) :
    (s.afterBlocks n).bi.toNat = s.bi.toNat + n := by
  rw [State.afterBlocks_bi, BitVec.toNat_add, BitVec.toNat_ofNat, Nat.add_mod_mod, Nat.mod_eq_of_lt hn]

/-- One more pass of the loop body is one more block of the keystream. -/
theorem State.nextBlock_afterBlocks {s : State} {n : Nat} (hn : s.bi.toNat + n < 2 ^ 32) :
    (s.afterBlocks n).nextBlock = s.afterBlocks (n + 1) := by
  have hctr : add32Lo (add32Lo s.narrow.ctr (BitVec.ofNat 32 n)) 1 =
      add32Lo s.narrow.ctr (BitVec.ofNat 32 (n + 1)) := by
    rw [add32Lo_add32Lo, BitVec.ofNat_add]; rfl
  have hbi : s.bi + BitVec.ofNat 32 n + 1 = s.bi + BitVec.ofNat 32 (n + 1) := by
    rw [BitVec.add_assoc, BitVec.ofNat_add]; rfl
  have haddr : (s.afterBlocks n).blockAddr = s.blockAddr + 16 * n := by
    rw [State.blockAddr, State.afterBlocks_bi_toNat hn, State.blockAddr, State.afterBlocks_latch, Nat.mul_add,
      Nat.add_assoc]
  rw [State.nextBlock, State.storeCipher, haddr, State.afterBlocks_ctr, State.afterBlocks_bi, hctr, hbi]
  rfl

/-! ## The narrow loop -/

/-- The words of one pass of the narrow loop body, those of its `NOP` steps included (R172; R213). -/
def narrowBodyWords : List CtrlWord := [0x0000] ++ statedBlockWords ++ [0x0017, 0x0012] ++ [0x0000]

/-- `n` passes in a row. -/
theorem Issues.passes {f : Nat → State} {ws : List CtrlWord} {n : Nat} (h : ∀ i < n, Issues (f i) ws (f (i + 1))) :
    Issues (f 0) (List.replicate n ws).flatten (f n) := by
  induction n with
  | zero => exact .done _
  | succ n ih =>
    rw [List.replicate_succ', List.flatten_append, List.flatten_singleton]
    exact (ih fun i hi => h i (by omega)).trans (h n (by omega))

section narrowLoop

variable {s : State} (hs : s.hostSilent)

include hs

/-- The counter increment (R171). -/
theorem issues_ninc :
    Issues (s.placedAt .ninc 0) [0x0017] ((s.setCtr (add32Lo s.narrow.ctr 1)).placedAt .nrsw 0) :=
  .busy hs nofun rfl rfl rfl

/-- The reversal of the incremented counter (R172). -/
theorem issues_nrsw : Issues (s.placedAt .nrsw 0) [0x0012] ((s.setS (rev16 s.narrow.ctr)).placedAt .nadv 0) :=
  .busy hs nofun rfl rfl rfl

variable (hopl : s.latch.opl ≠ 1)

include hopl

/-- From `NCHK` back to `NCHK`: one wanted block of a generator (R172). -/
theorem issues_nextBlock (hbi : s.bi ≠ s.latch.nbl) (hin : s.inSpace s.blockAddr 16 = true)
    (hadm : s.admits .write s.blockAddr 16 = true) :
    Issues (s.placedAt .nchk 0) narrowBodyWords (s.nextBlock.placedAt .nchk 0) := by
  have hblock := issues_block hs hin hadm
  rw [if_neg hopl] at hblock
  have hninc := issues_ninc (s := s.storeCipher) ((State.storeCipher_script s).trans hs)
  have hnrsw := issues_nrsw (s := s.storeCipher.setCtr (add32Lo s.narrow.ctr 1)) ((State.storeCipher_script s).trans hs)
  have hnadv := issues_nadv
    (s := (s.storeCipher.setCtr (add32Lo s.narrow.ctr 1)).setS (rev16 (add32Lo s.narrow.ctr 1)))
    ((State.storeCipher_script s).trans hs)
  exact (((issues_nchk_wanted hs hbi).trans hblock).trans (hninc.trans hnrsw)).trans hnadv

variable (h : s.rangesOk s.latch.nbl.toNat s.latch.ksl s.latch.inl s.latch.outl = true)
  (hrev : s.narrow.s = rev16 s.narrow.ctr) {n : Nat} (hn : s.bi.toNat + n = s.latch.nbl.toNat)

include h hrev hn

/-- From `NCHK` to `NCHK`: the loop over the `n` blocks still wanted (R172, R215). -/
theorem issues_afterBlocks :
    Issues (s.placedAt .nchk 0) (List.replicate n narrowBodyWords).flatten ((s.afterBlocks n).placedAt .nchk 0) := by
  have hnbl := s.latch.nbl.isLt
  have hloop := Issues.passes (f := fun i => (s.afterBlocks i).placedAt .nchk 0) (ws := narrowBodyWords) (n := n)
    fun i hi => by
      have hbi := State.afterBlocks_bi_toNat (s := s) (n := i) (by omega)
      have hwanted : (s.afterBlocks i).bi ≠ (s.afterBlocks i).latch.nbl := fun he => by
        rw [he, State.afterBlocks_latch] at hbi; omega
      have hranges := (rangesOk_congr (State.afterBlocks_aw s i) (State.afterBlocks_ranges s i) ..).trans h
      obtain ⟨hin, hadm⟩ := access_blockAddr (s := s.afterBlocks i) hranges (by omega)
      rw [← State.nextBlock_afterBlocks (by omega)]
      exact issues_nextBlock (s := s.afterBlocks i) hs hopl hwanted hin hadm
  rwa [State.afterBlocks_zero hrev] at hloop

/-- From `NCHK` to `IDLE`: the blocks still wanted, then the end (R172). -/
theorem issues_remainingBlocks :
    Issues (s.placedAt .nchk 0) ((List.replicate n narrowBodyWords).flatten ++ ([0x0000] ++ [0x003F, 0x0000]))
      ((s.afterBlocks n).clearVectors.complete.placedAt .idle 0) := by
  have hfinished : (s.afterBlocks n).bi = (s.afterBlocks n).latch.nbl :=
    BitVec.eq_of_toNat_eq ((State.afterBlocks_bi_toNat (by omega)).trans hn)
  exact (issues_afterBlocks hs hopl h hrev hn).trans
    ((issues_nchk_finished (s := s.afterBlocks n) hs hfinished).trans (issues_clear (s := s.afterBlocks n) hs))

end narrowLoop

/-! ## `GENSEQ` -/

/-- What the latch holds of a command in range: of an empty output at `2^AW` the low `AW` bits of the address
(assumption 21), every other field as it is. -/
theorem fit_eq_of_rangesOk {s : State} {l : Latch} {n : Nat} (h : s.rangesOk n l.ksl l.inl l.outl = true) :
    Latch.fit s.aw l = { l with outl := fitAddr s.aw l.outl } := by
  obtain ⟨hk, hi, -⟩ := rangesOk_lt h
  rw [Latch.fit, fitAddr_of_lt hk, fitAddr_of_lt hi]

/-- An accepted command keeps passing the range check, by what its latch holds. -/
theorem rangesOk_accept {s : State} {l : Latch} (h : s.rangesOk l.nbl.toNat l.ksl l.inl l.outl = true) :
    (s.accept l).rangesOk (s.accept l).latch.nbl.toNat (s.accept l).latch.ksl (s.accept l).latch.inl
      (s.accept l).latch.outl = true :=
  (rangesOk_congr (State.accept_aw l s) (State.accept_ranges l s) ..).trans (rangesOk_fit h)

/-- The words `GENSEQ` issues after its acceptance step, those of its `NOP` steps included (R172; R213). -/
def genseqWords (n : Nat) : List CtrlWord :=
  statedLoadWords ++ [0x0011, 0x0012] ++ ((List.replicate n narrowBodyWords).flatten ++ ([0x0000] ++ [0x003F, 0x0000]))

/-- One word for each of the steps of R223 after the acceptance step. -/
theorem genseqWords_length (n : Nat) : (genseqWords n).length = 20 + 20 * n := by
  have hload : statedLoadWords.length = 15 := by decide
  have hbody : narrowBodyWords.length = 20 := by decide
  simp only [genseqWords, List.length_append, List.length_flatten, List.map_replicate, List.sum_replicate, hload, hbody,
    List.length_cons, List.length_nil, smul_eq_mul]
  omega

/-- The operations among the words of `GENSEQ` (R172). -/
theorem genseqWords_operations (n : Nat) :
    (genseqWords n).filter (· ≠ 0x0000) =
      statedLoadWords ++ [0x0011, 0x0012] ++ statedNarrowLoop n ++ [0x003F] := by
  have hload : statedLoadWords.filter (· ≠ 0x0000) = statedLoadWords := by decide
  have hbody : narrowBodyWords.filter (· ≠ 0x0000) = statedBlockWords ++ [0x0017, 0x0012] := by decide
  simp only [genseqWords, statedNarrowLoop, List.filter_append, List.filter_flatten, List.map_replicate, hload, hbody]
  rfl

/-- The number of operations of `GENSEQ` (R223). -/
theorem genseqOperations_length (n : Nat) :
    (statedLoadWords ++ [0x0011, 0x0012] ++ statedNarrowLoop n ++ [0x003F]).length = 18 + 18 * n := by
  have hload : statedLoadWords.length = 15 := by decide
  have hbody : (statedBlockWords ++ [0x0017, 0x0012]).length = 18 := by decide
  simp only [statedNarrowLoop, List.length_append, List.length_flatten, List.map_replicate, List.sum_replicate, hload,
    hbody, List.length_cons, List.length_nil, smul_eq_mul]
  omega

/-- Loading the inputs ends with the reversal of the counter in `S` (R153). -/
theorem State.loadInputs_s (s : State) : s.loadInputs.narrow.s = rev16 s.loadInputs.narrow.ctr := by
  simp [State.loadInputs]

/-- Loading the inputs leaves what the range check looks at. -/
theorem State.rangesOk_loadInputs (s : State) (n : Nat) (ks inp out : Addr) :
    s.loadInputs.rangesOk n ks inp out = s.rangesOk n ks inp out := by
  simp only [State.rangesOk, State.inSpace_loadInputs, State.admits_loadInputs]

/-- From `KLD` to `IDLE` in `GENSEQ`: the inputs, then every block of the keystream (R172). -/
theorem issues_keystream {s : State} (hs : s.hostSilent) (hopl : s.latch.opl = 2) (hbi : s.bi = 0)
    (h : s.rangesOk s.latch.nbl.toNat s.latch.ksl s.latch.inl s.latch.outl = true) :
    Issues (s.placedAt .kld 0) (genseqWords s.latch.nbl.toNat)
      ((s.loadInputs.afterBlocks s.latch.nbl.toNat).clearVectors.complete.placedAt .idle 0) := by
  have hload := issues_loadInputs hs h (by rw [hopl]; decide)
  have hn : s.loadInputs.bi.toNat + s.latch.nbl.toNat = s.loadInputs.latch.nbl.toNat := by
    rw [State.loadInputs_bi, State.loadInputs_latch, hbi]; exact Nat.zero_add _
  have hranges := (s.rangesOk_loadInputs s.latch.nbl.toNat s.latch.ksl s.latch.inl s.latch.outl).trans h
  rw [← State.loadInputs_latch] at hranges
  have hblocks := issues_remainingBlocks (s := s.loadInputs) ((State.loadInputs_script s).trans hs)
    (by rw [State.loadInputs_latch, hopl]; decide) hranges s.loadInputs_s hn
  exact hload.trans hblocks

/-- The memory the blocks of `GENSEQ` leave (R170). -/
theorem afterBlocks_loadInputs_mem {s : State} (hbi : s.bi = 0) (n : Nat) :
    (s.loadInputs.afterBlocks n).mem =
      genseqMemory s.mem n s.latch.ksl.toNat s.latch.inl.toNat s.latch.outl.toNat := by
  simp [State.loadInputs, genseqMemory, State.inputAddr, State.blockAddr, hbi]

/-- Where the buffer of no block begins does not matter to the memory `GENSEQ` leaves. -/
theorem genseqMemory_congr_out (m : Memory) {n out out' : Nat} (ks ctr : Nat) (h : 0 < n → out = out') :
    genseqMemory m n ks ctr out = genseqMemory m n ks ctr out' := by
  cases n with
  | zero => rfl
  | succ n => rw [h n.succ_pos]

/-- What the latch takes of `GENSEQ` (spec/10_state.md R30). -/
def genseqLatch (n : Count) (ks ctr out : Addr) : Latch := { opl := 2, nbl := n, ksl := ks, inl := ctr, outl := out }

section genseq

variable {s : State} {n : Count} {ks ctr out : Addr} (h : s.rangesOk n.toNat ks ctr out = true)

include h

/-- What the latch holds of `GENSEQ`. -/
theorem fit_genseqLatch :
    Latch.fit s.aw (genseqLatch n ks ctr out) = genseqLatch n ks ctr (fitAddr s.aw out) :=
  fit_eq_of_rangesOk (l := genseqLatch n ks ctr out) h

/-- The memory a `GENSEQ` leaves, by the fields of its descriptor (R170). -/
theorem afterBlocks_genseq_mem :
    ((s.accept (genseqLatch n ks ctr out)).loadInputs.afterBlocks n.toNat).mem =
      genseqMemory s.mem n.toNat ks.toNat ctr.toNat out.toNat := by
  have hout : 0 < n.toNat → (fitAddr s.aw out).toNat = out.toNat := fun hn => by
    rw [fitAddr_of_lt ((rangesOk_lt h).2.2 hn)]
  rw [afterBlocks_loadInputs_mem (State.accept_bi _ s), State.accept_latch, fit_genseqLatch h]
  exact genseqMemory_congr_out s.mem _ _ hout

/-- What the run of a `GENSEQ` leaves is the state of the command level (R170). -/
theorem afterCommand_genseq :
    ((s.accept (genseqLatch n ks ctr out)).loadInputs.afterBlocks n.toNat).clearVectors.complete.placedAt .idle 0 =
      s.afterCommand (genseqLatch n ks ctr (fitAddr s.aw out))
        (genseqMemory s.mem n.toNat ks.toNat ctr.toNat out.toNat) := by
  have hlatch := fit_genseqLatch h
  have hnbl : (genseqLatch n ks ctr (fitAddr s.aw out)).nbl = n := rfl
  rw [← afterBlocks_genseq_mem h]
  apply complete_eq_afterCommand
  simp [State.clearVectors, State.afterBlocks, State.setBi, State.setMem, State.setS, State.loadInputs, State.setCtr,
    State.setKeys, State.accept, State.recordAcceptance, hlatch, hnbl]

/-- A `GENSEQ` that passed the range check runs to the state of R170 and issues the words of R172. -/
theorem issues_genseq (hs : s.hostSilent) :
    Issues (s.accept (genseqLatch n ks ctr out)) (genseqWords n.toNat)
      (s.afterCommand (genseqLatch n ks ctr (fitAddr s.aw out))
        (genseqMemory s.mem n.toNat ks.toNat ctr.toNat out.toNat)) := by
  rw [← afterCommand_genseq h]
  have hranges := rangesOk_accept (l := genseqLatch n ks ctr out) h
  exact issues_keystream ((State.accept_script _ s).trans hs) rfl rfl hranges

end genseq

/-- Settles O37: the run of `issues_genseq` after the acceptance step. -/
theorem genseqRunsToItsKeystream : Obligations.GenseqRunsToItsKeystream := by
  intro s n ks ctr out hidle hs h
  have htaken : exec (.genseq n ks ctr out) s = .next (s.accept (genseqLatch n ks ctr out)) :=
    (exec_genseq_idle hidle n ks ctr out).trans (congrArg _ (if_pos h))
  have hrun := (issues_genseq h hs).run_eq
  rw [genseqWords_length] at hrun
  exact ⟨_, htaken, hrun⟩

/-- Settles O40: the words of `issues_genseq` after the `NOP` of the acceptance step, without the `NOP`s. -/
theorem genseqIssuesItsSequence : Obligations.GenseqIssuesItsSequence := by
  intro s n ks ctr out ho h
  have htaken : step s = .next (State.accept (genseqLatch n ks ctr out) { s with port := none }) := by
    rw [step_of_legalOffer ho (decodeDescriptor_genseq (descriptor_rsv0 ..) (descriptor_opc ..))]
    simp only [descriptor_nblk, descriptor_ks, descriptor_inp, descriptor_out]
    rw [exec_genseq_idle (s := { s with port := none }) ho.1]
    exact congrArg _ (if_pos h)
  have hwords := (Issues.step htaken (issues_genseq (s := { s with port := none }) h ho.2.2)).issuedWords_eq
  rw [ho.1, List.length_cons, genseqWords_length, Nat.add_right_comm] at hwords
  have hops : issuedOperations (21 + 20 * n.toNat) s =
      statedLoadWords ++ [0x0011, 0x0012] ++ statedNarrowLoop n.toNat ++ [0x003F] :=
    (congrArg (List.filter _) hwords).trans (genseqWords_operations n.toNat)
  exact ⟨hops, by rw [hops, genseqOperations_length]⟩

end Sys2Proof.Machine

/-! The operations of the wide unit on a part that has the wide bank, each with its new value
(spec/43_parallel_ctr.md R181 to R190). -/

namespace Sys2Proof.Machine

/-! ## One rule per operation -/

section rules

variable {s : State} {w : WideBank} (hw : s.wide = some w)

include hw

/-- `BCK r` where `r` names a register (R181). -/
theorem exec_bck_wide {r : KeyIndex} {i : Fin 15} (hk : keyNumber? r = some i) :
    exec (.bck r) s = .next (s.setWide { w with wk := w.wk.set i (Lanes.broadcast s.narrow.rk[i]) }) := by
  rw [exec, execBck, onWide_some _ hw, hk, onKey]

/-- `BCC` (R182). -/
theorem exec_bcc_wide : exec .bcc s = .next (s.setWide { w with ctrv := Lanes.broadcast s.narrow.ctr }) :=
  onWide_some _ hw

/-- `AOF` (R183). -/
theorem exec_aof_wide :
    exec .aof s = .next (s.setWide { w with ctrv := w.ctrv.mapWithLane fun j v => add32Lo v (BitVec.ofNat 32 j) }) :=
  onWide_some _ hw

/-- `BSW4` (R184). -/
theorem exec_bsw4_wide : exec .bsw4 s = .next (s.setWide { w with sv := w.ctrv.map4 rev16 }) :=
  onWide_some _ hw

/-- `ARK4` (R185). -/
theorem exec_ark4_wide : exec .ark4 s = .next (s.setWide { w with sv := w.sv.zip4 addRoundKey w.wk[0] }) :=
  onWide_some _ hw

/-- `RND4 r` where `r` names the key of a middle round (R186). -/
theorem exec_rnd4_wide {r : KeyIndex} {i : Fin 15} (hk : middleNumber? r = some i) :
    exec (.rnd4 r) s = .next (s.setWide { w with sv := w.sv.zip4 round w.wk[i] }) := by
  rw [exec, execRnd4, onWide_some _ hw, hk, onKey]

/-- `FIN4` (R187). -/
theorem exec_fin4_wide : exec .fin4 s = .next (s.setWide { w with sv := w.sv.zip4 finalRound w.wk[14] }) :=
  onWide_some _ hw

/-- `STB4` where the output of the group may be written (R188). -/
theorem exec_stb4_ok (hin : s.inSpace s.blockAddr 64 = true) (hadm : s.admits .write s.blockAddr 64 = true) :
    exec .stb4 s = .next (s.setMem (s.mem.writeLanes s.blockAddr w.sv)) :=
  (exec_stb4_wide hw).trans (onMemory_ok hin hadm)

/-- `INC4` (R189). -/
theorem exec_inc4_wide : exec .inc4 s = .next (s.setWide { w with ctrv := w.ctrv.map4 fun v => add32Lo v 4 }) :=
  onWide_some _ hw

/-- `XL0` (R190). -/
theorem exec_xl0_wide : exec .xl0 s = .next (s.setCtr w.ctrv.lane0) :=
  onWide_some _ hw

end rules

/-! ## The obligations about one operation -/

/-- Settles O22: every lane of the register written is the key. -/
theorem bckBroadcastsTheRoundKey : Obligations.BckBroadcastsTheRoundKey :=
  fun _ _ _ hr hw => ⟨_, exec_bck_wide hw (keyNumber?_isKey (decide_eq_true hr)), lane_broadcast _⟩

/-- Settles O23: every lane written is the counter. -/
theorem bccBroadcastsTheCounter : Obligations.BccBroadcastsTheCounter :=
  fun _ _ hw => ⟨_, exec_bcc_wide hw, lane_broadcast _⟩

/-- Settles O24: the two parts of each lane's counter after an addition of the lane's number. -/
theorem aofAddsTheLaneOffsets : Obligations.AofAddsTheLaneOffsets := by
  intro s w hw
  refine ⟨_, exec_aof_wide hw, fun j => ?_⟩
  rw [lane_mapWithLane, add32Lo_mod, add32Lo_div, BitVec.toNat_ofNat, Nat.add_mod_mod]
  exact ⟨rfl, rfl⟩

/-- Settles O25: byte `i` of a lane's reversal is byte `15 - i` of that lane. -/
theorem bsw4ReversesEachLane : Obligations.Bsw4ReversesEachLane :=
  fun _ _ hw => ⟨_, exec_bsw4_wide hw, fun j i hi => by rw [lane_map4, byte_rev16 _ i hi]⟩

/-- Settles O26: in each lane the key is added byte by byte. -/
theorem ark4XorsRoundKeyZero : Obligations.Ark4XorsRoundKeyZero :=
  fun _ _ hw => ⟨_, exec_ark4_wide hw, fun j i _ => by rw [lane_zip4, byte_addRoundKey]⟩

/-- Settles O27: in each lane the round's bytes are those of the list and the matrix. -/
theorem rnd4AppliesOneRoundPerLane : Obligations.Rnd4AppliesOneRoundPerLane := by
  intro s w r hw hlo hhi
  have hk : KeyIndex.isMiddle r = true := by simp [KeyIndex.isMiddle, hlo, hhi]
  refine ⟨_, exec_rnd4_wide hw (middleNumber?_isMiddle hk), fun j i hi => ?_⟩
  rw [lane_zip4, byte_round _ _ hi]
  rfl

/-- Settles O28: in each lane the final round's bytes are those of the list. -/
theorem fin4AppliesTheFinalRoundPerLane : Obligations.Fin4AppliesTheFinalRoundPerLane :=
  fun _ _ hw => ⟨_, exec_fin4_wide hw, fun j i hi => by rw [lane_zip4, byte_finalRound _ _ hi]⟩

/-- Settles O29: the store is guarded, and a read after it finds the lanes inside their 64 bytes only. -/
theorem stb4StoresTheFourLanes : Obligations.Stb4StoresTheFourLanes := by
  intro s w hw hm hin hadm
  refine ⟨_, exec_stb4_ok hw hin hadm, writeLanes_wf _ hm _ _, fun j i hi => ?_, fun a ha => ?_⟩
  · exact byteAt_writeLanes_inside _ hm _ _ j i hi
  · exact byteAt_writeLanes_outside _ hm _ _ _ (by rw [State.blockAddr]; omega)

/-- Settles O30: the two parts of each lane's counter after an addition of 4. -/
theorem inc4AdvancesEachLaneByFour : Obligations.Inc4AdvancesEachLaneByFour := by
  intro s w hw
  refine ⟨_, exec_inc4_wide hw, fun j => ?_⟩
  rw [lane_map4]
  exact ⟨add32Lo_mod _ 4, add32Lo_div _ 4⟩

/-- Settles O31: the counter is lane 0 itself. -/
theorem xl0HandsOverLaneZero : Obligations.Xl0HandsOverLaneZero :=
  fun _ _ hw => ⟨_, exec_xl0_wide hw, fun _ _ => rfl⟩

end Sys2Proof.Machine

/-! The keystream of the parallel generator against that of the sequential one, at the command level
(spec/43_parallel_ctr.md R193; spec/41_single_block.md R159). -/

namespace Sys2Proof.Machine

/-- Counter additions of two natural numbers compose (spec/40_aes_round_functions.md R131). -/
theorem add32Lo_ofNat_add (c : Block) (a b : Nat) :
    add32Lo (add32Lo c (BitVec.ofNat 32 a)) (BitVec.ofNat 32 b) = add32Lo c (BitVec.ofNat 32 (a + b)) := by
  rw [add32Lo_add32Lo, BitVec.ofNat_add]

section streams

variable (k : Vector Block 15) (c : Block) (out : Nat)

/-- A keystream of `a + b` blocks is one of `a` blocks, then one of `b` blocks from the counter advanced by `a`. -/
theorem writeStream_add (a b : Nat) (m : Memory) :
    writeStream k c out (a + b) m =
      writeStream k (add32Lo c (BitVec.ofNat 32 a)) (out + 16 * a) b (writeStream k c out a m) := by
  induction b with
  | zero => rfl
  | succ b ih => rw [← Nat.add_assoc, writeStream, writeStream, ih, add32Lo_ofNat_add, Nat.mul_add, Nat.add_assoc]

/-- One group is four blocks of the keystream. -/
theorem writeLanes_groupLanes (m : Memory) : m.writeLanes out (groupLanes k c) = writeStream k c out 4 m := rfl

/-- `g` groups are `4 g` blocks of the keystream. -/
theorem writeGroups_eq_writeStream (g : Nat) (m : Memory) :
    writeGroups k c out g m = writeStream k c out (4 * g) m := by
  induction g with
  | zero => rfl
  | succ g ih =>
    rw [writeGroups, ih, writeLanes_groupLanes, Nat.mul_succ, writeStream_add, ← Nat.mul_assoc]

end streams

/-- `GENPAR` leaves the memory of `GENSEQ`: its groups and its remainder are one stream (R193). -/
theorem genparMemory_eq_genseqMemory (m : Memory) (n ks ctr out : Nat) :
    genparMemory m n ks ctr out = genseqMemory m n ks ctr out := by
  have hout : out + 64 * (n / 4) = out + 16 * (4 * (n / 4)) := by rw [← Nat.mul_assoc]
  rw [genparMemory, genseqMemory, writeGroups_eq_writeStream, hout, ← writeStream_add, Nat.div_add_mod]

/-- `ENC1` leaves the memory of a `GENSEQ` of one block (R159). -/
theorem enc1Memory_eq_genseqMemory (m : Memory) (ks inp out : Nat) :
    enc1Memory m ks inp out = genseqMemory m 1 ks inp out := by
  rw [genseqMemory, writeStream, add32Lo_zero, writeStream]
  rfl

/-- Settles O42, by the two equations of the command level. -/
theorem parallelWritesWhatSequentialWrites : Obligations.ParallelWritesWhatSequentialWrites :=
  ⟨genparMemory_eq_genseqMemory, enc1Memory_eq_genseqMemory⟩

end Sys2Proof.Machine

/-! What the wide unit's parts of the micro-program do: broadcasting the keys, setting up the lanes' counters, one group
of four blocks (spec/43_parallel_ctr.md R181 to R191; spec/45_sequencer_and_host.md R213). -/

namespace Sys2Proof.Machine

/-! ## The data of the wide unit -/

/-- `WK`, from `wk`, after the first `n` of the round keys `k` have been broadcast (R181). -/
def broadcastKeys (k : Vector Block 15) (wk : Vector Lanes 15) (n : Nat) : Vector Lanes 15 :=
  Vector.ofFn fun r : Fin 15 => if r.val < n then Lanes.broadcast k[r] else wk[r]

theorem broadcastKeys_zero (k : Vector Block 15) (wk : Vector Lanes 15) : broadcastKeys k wk 0 = wk := by
  ext1 i hi
  simp [broadcastKeys]

theorem broadcastKeys_succ (k : Vector Block 15) (wk : Vector Lanes 15) (i : Fin 15) :
    (broadcastKeys k wk i.val).set i (Lanes.broadcast k[i]) = broadcastKeys k wk (i.val + 1) := by
  ext1 j hj
  simp only [broadcastKeys, Vector.getElem_set, Vector.getElem_ofFn]
  by_cases hij : i.val = j
  · simp [← hij]
  · have hlt : j < i.val + 1 ↔ j < i.val := by omega
    simp only [hij, hlt, if_false]

/-- After 15 broadcasts every key is in every lane (R181). -/
theorem broadcastKeys_all (k : Vector Block 15) (wk : Vector Lanes 15) :
    broadcastKeys k wk 15 = k.map Lanes.broadcast := by
  ext1 i hi
  simp [broadcastKeys]

/-- The counters of four consecutive blocks, lane `j` at `c + j` (R182, R183). -/
def laneCounters (c : Block) : Lanes :=
  (Lanes.broadcast c).mapWithLane fun j v => add32Lo v (BitVec.ofNat 32 j)

/-- Lane 0 counts from the counter itself (R192). -/
theorem laneCounters_lane0 (c : Block) : (laneCounters c).lane0 = c := add32Lo_zero c

/-- Every lane advanced by 4 is the lanes' counters of the next group (R189). -/
theorem laneCounters_map4 (c : Block) :
    (laneCounters c).map4 (fun v => add32Lo v 4) = laneCounters (add32Lo c 4) := by
  have hlane (j : BitVec 32) : add32Lo (add32Lo c j) 4 = add32Lo (add32Lo c 4) j := by
    rw [add32Lo_add32Lo, add32Lo_add32Lo, BitVec.add_comm]
  simp only [laneCounters, Lanes.map4, Lanes.mapWithLane, Lanes.broadcast, hlane]

theorem map4_map4 (f g : Block → Block) (w : Lanes) : (w.map4 f).map4 g = w.map4 fun v => g (f v) := rfl

/-- The four blocks of a group are its counters, reversed and encrypted lane by lane (R180). -/
theorem map4_laneCounters (k : Vector Block 15) (c : Block) :
    ((laneCounters c).map4 rev16).map4 (fun v => cipher256 v k) = groupLanes k c := rfl

/-- The wide bank that holds the round keys `k` in every lane. -/
def WideBank.withKeys (k : Vector Block 15) (sv ctrv : Lanes) : WideBank where
  sv   := sv
  ctrv := ctrv
  wk   := k.map Lanes.broadcast

section withKeys

variable {k : Vector Block 15} {sv ctrv : Lanes}

/-- A lane-wise function of `SV` and a broadcast key is the function of each lane and that key. -/
theorem zip4_withKeys (f : Block → Block → Block) {i : Nat} (hi : i < 15) :
    (WideBank.withKeys k sv ctrv).sv.zip4 f (WideBank.withKeys k sv ctrv).wk[i] = sv.map4 fun v => f v k[i] := by
  simp only [WideBank.withKeys, Vector.getElem_map]
  rfl

variable {s : State} (hk : s.wide = some (.withKeys k sv ctrv))

include hk

/-- `ARK4` with the keys broadcast (R185). -/
theorem exec_ark4_withKeys :
    exec .ark4 s = .next (s.setWide (.withKeys k (sv.map4 fun v => addRoundKey v k[0]) ctrv)) := by
  rw [exec_ark4_wide hk, zip4_withKeys]
  rfl

/-- `RND4 r` with the keys broadcast (R186). -/
theorem exec_rnd4_withKeys {r : KeyIndex} {i : Fin 15} (hr : middleNumber? r = some i) :
    exec (.rnd4 r) s = .next (s.setWide (.withKeys k (sv.map4 fun v => round v k[i]) ctrv)) := by
  rw [exec_rnd4_wide hk hr, Fin.getElem_fin, zip4_withKeys]
  rfl

/-- `FIN4` with the keys broadcast (R187). -/
theorem exec_fin4_withKeys :
    exec .fin4 s = .next (s.setWide (.withKeys k (sv.map4 fun v => finalRound v k[14]) ctrv)) := by
  rw [exec_fin4_wide hk, zip4_withKeys]
  rfl

end withKeys

/-- The wide bank before a group: the keys `k` broadcast, the lanes' counters from `c` on and their reversals. -/
def WideBank.ready (k : Vector Block 15) (c : Block) : WideBank :=
  .withKeys k ((laneCounters c).map4 rev16) (laneCounters c)

/-! ## Updates of a state -/

@[simp] theorem State.setKeys_wide (k : Vector Block 15) (s : State) : (s.setKeys k).wide = s.wide := rfl
@[simp] theorem State.setKeys_aw (k : Vector Block 15) (s : State) : (s.setKeys k).aw = s.aw := rfl
@[simp] theorem State.setKeys_ranges (k : Vector Block 15) (s : State) : (s.setKeys k).ranges = s.ranges := rfl

theorem State.setWide_self {s : State} {w : WideBank} (hw : s.wide = some w) : s.setWide w = s := by
  rw [State.setWide, ← hw]

@[simp] theorem State.setWide_setWide (w v : WideBank) (s : State) : (s.setWide w).setWide v = s.setWide v := rfl
@[simp] theorem State.setWide_setMem_setWide (w v : WideBank) (m : Memory) (s : State) :
    ((s.setWide w).setMem m).setWide v = (s.setMem m).setWide v := rfl
@[simp] theorem State.inSpace_setWide (w : WideBank) (s : State) (a n : Nat) :
    (s.setWide w).inSpace a n = s.inSpace a n := rfl
@[simp] theorem State.admits_setWide (w : WideBank) (s : State) (kind : AccessKind) (a n : Nat) :
    (s.setWide w).admits kind a n = s.admits kind a n := rfl
@[simp] theorem State.blockAddr_setWide (w : WideBank) (s : State) : (s.setWide w).blockAddr = s.blockAddr := rfl

/-- `s` after one pass of the wide loop body on the bank `WideBank.ready k c`: four blocks stored, the lanes'
counters advanced, the blocks counted (R191). -/
def State.nextGroup (k : Vector Block 15) (c : Block) (s : State) : State :=
  ((s.setMem (s.mem.writeLanes s.blockAddr (groupLanes k c))).setWide (WideBank.ready k (add32Lo c 4))).setBi (s.bi + 4)

/-! ## The words of the wide unit (R96, R97) -/

/-- The words of the loop at `WBK`. -/
theorem statedBroadcastWords_eq :
    statedBroadcastWords = (List.range 15).map fun i => controlWord (BitVec.ofNat 4 (0 + i)) 0x20 := by
  decide

/-- The words of a group, with those of the loop at `WRND`. -/
theorem statedGroupWords_eq :
    statedGroupWords =
      [0x0024] ++ ((List.range 13).map fun i => controlWord (BitVec.ofNat 4 (1 + i)) 0x25) ++
        [0x0E26, 0x0027, 0x0028, 0x0023] := by
  decide

/-- The words of one pass of the wide loop body, those of its `NOP` steps included (R191; R213). -/
def wideBodyWords : List CtrlWord := [0x0000] ++ statedGroupWords ++ [0x0000]

/-! ## One step at each position of the wide unit (R213) -/

/-- The four blocks of a group may be written. -/
theorem access_groupAddr {s : State} {n : Nat} {ks inp : Addr} (h : s.rangesOk n ks inp s.latch.outl = true)
    (hbi : s.bi.toNat + 4 ≤ n) : s.inSpace s.blockAddr 64 = true ∧ s.admits .write s.blockAddr 64 = true := by
  obtain ⟨-, -, hspace, -, -, hadm⟩ := (rangesOk_iff ..).1 h
  have hi : s.blockAddr + 64 ≤ s.latch.outl.toNat + 16 * n := by unfold State.blockAddr; omega
  exact ⟨inSpace_sub hspace hi, admits_sub (hadm.resolve_left (by omega)) (Nat.le_add_right _ _) hi⟩

section positions

variable {s : State} (hs : s.hostSilent)

include hs

/-- `CLD` goes on to the wide unit in `GENPAR`. -/
theorem issues_cld_genpar (hin : s.inSpace s.inputAddr 16 = true) (hadm : s.admits .read s.inputAddr 16 = true)
    (hop : s.latch.opl = 3) :
    Issues (s.placedAt .cld 0) [0x0011] ((s.setCtr (s.mem.readBlock s.inputAddr)).placedAt .wbk 0) :=
  .busy hs nofun rfl (exec_ldc_ok hin hadm) (if_pos hop)

/-- `WCHK` enters the loop body when four blocks are wanted (R215). -/
theorem issues_wchk_group (h4 : 4 ≤ s.remaining) : Issues (s.placedAt .wchk 0) [0x0000] (s.placedAt .wark 0) :=
  .busy hs nofun rfl rfl (if_pos h4)

/-- `WCHK` leaves the loop for the handoff when fewer than four blocks are wanted, but some (R192). -/
theorem issues_wchk_handoff (h4 : ¬ 4 ≤ s.remaining) (hbi : s.bi ≠ s.latch.nbl) :
    Issues (s.placedAt .wchk 0) [0x0000] (s.placedAt .hxl 0) :=
  .busy hs nofun rfl rfl ((if_neg h4).trans (if_pos hbi))

/-- `WCHK` leaves the loop when every block is stored (R215). -/
theorem issues_wchk_finished (h4 : ¬ 4 ≤ s.remaining) (hbi : s.bi = s.latch.nbl) :
    Issues (s.placedAt .wchk 0) [0x0000] (s.placedAt .clrs 0) :=
  .busy hs nofun rfl rfl ((if_neg h4).trans (if_neg (not_not_intro hbi)))

theorem issues_wadv : Issues (s.placedAt .wadv 0) [0x0000] ((s.setBi (s.bi + 4)).placedAt .wchk 0) :=
  .busy hs nofun rfl rfl rfl

theorem issues_hsw : Issues (s.placedAt .hsw 0) [0x0012] ((s.setS (rev16 s.narrow.ctr)).placedAt .nchk 0) :=
  .busy hs nofun rfl rfl rfl

variable {w : WideBank} (hw : s.wide = some w)

include hw

/-- A broadcast of a key (R181). -/
theorem issues_wbk (i : Fin 15) :
    Issues (s.placedAt .wbk (BitVec.ofNat 4 i.val)) [controlWord (BitVec.ofNat 4 i.val) 0x20]
      ((s.placedAt .wbk (BitVec.ofNat 4 i.val)).countTo 14 .wbc
        ((s.setWide { w with wk := w.wk.set i (Lanes.broadcast s.narrow.rk[i]) }).placedAt .wbk
          (BitVec.ofNat 4 i.val))) :=
  .busy hs nofun (isKey_ofNat i) (exec_bck_wide (s := s.placedAt .wbk _) hw (keyNumber?_ofNat i)) rfl

theorem issues_wbc :
    Issues (s.placedAt .wbc 0) [0x0021]
      ((s.setWide { w with ctrv := Lanes.broadcast s.narrow.ctr }).placedAt .wof 0) :=
  .busy hs nofun rfl (exec_bcc_wide hw) rfl

theorem issues_wof :
    Issues (s.placedAt .wof 0) [0x0022]
      ((s.setWide { w with ctrv := w.ctrv.mapWithLane fun j v => add32Lo v (BitVec.ofNat 32 j) }).placedAt .wsw 0) :=
  .busy hs nofun rfl (exec_aof_wide hw) rfl

theorem issues_wsw :
    Issues (s.placedAt .wsw 0) [0x0023] ((s.setWide { w with sv := w.ctrv.map4 rev16 }).placedAt .wchk 0) :=
  .busy hs nofun rfl (exec_bsw4_wide hw) rfl

theorem issues_wst (hin : s.inSpace s.blockAddr 64 = true) (hadm : s.admits .write s.blockAddr 64 = true) :
    Issues (s.placedAt .wst 0) [0x0027] ((s.setMem (s.mem.writeLanes s.blockAddr w.sv)).placedAt .winc 0) :=
  .busy hs nofun rfl (exec_stb4_ok hw hin hadm) rfl

theorem issues_winc :
    Issues (s.placedAt .winc 0) [0x0028]
      ((s.setWide { w with ctrv := w.ctrv.map4 fun v => add32Lo v 4 }).placedAt .wrsw 0) :=
  .busy hs nofun rfl (exec_inc4_wide hw) rfl

theorem issues_wrsw :
    Issues (s.placedAt .wrsw 0) [0x0023] ((s.setWide { w with sv := w.ctrv.map4 rev16 }).placedAt .wadv 0) :=
  .busy hs nofun rfl (exec_bsw4_wide hw) rfl

/-- The handoff of lane 0 (R190). -/
theorem issues_hxl : Issues (s.placedAt .hxl 0) [0x0029] ((s.setCtr w.ctrv.lane0).placedAt .hsw 0) :=
  .busy hs nofun rfl (exec_xl0_wide hw) rfl

end positions

section keyedPositions

variable {s : State} {k : Vector Block 15} {sv ctrv : Lanes} (hs : s.hostSilent)
  (hk : s.wide = some (.withKeys k sv ctrv))

include hs hk

theorem issues_wark :
    Issues (s.placedAt .wark 0) [0x0024]
      ((s.setWide (.withKeys k (sv.map4 fun v => addRoundKey v k[0]) ctrv)).placedAt .wrnd 1) :=
  .busy hs nofun rfl (exec_ark4_withKeys (s := s.placedAt .wark 0) hk) rfl

/-- A middle round in all lanes (R186). -/
theorem issues_wrnd {i : Nat} (hi : 1 ≤ i ∧ i ≤ 13) :
    Issues (s.placedAt .wrnd (BitVec.ofNat 4 i)) [controlWord (BitVec.ofNat 4 i) 0x25]
      ((s.placedAt .wrnd (BitVec.ofNat 4 i)).countTo 13 .wfin
        ((s.setWide (.withKeys k (sv.map4 fun v => round v k[i]) ctrv)).placedAt .wrnd (BitVec.ofNat 4 i))) :=
  .busy hs nofun (isMiddle_ofNat ⟨i, by omega⟩ hi)
    (exec_rnd4_withKeys (s := s.placedAt .wrnd _) hk (middleNumber?_ofNat ⟨i, by omega⟩ hi)) rfl

theorem issues_wfin :
    Issues (s.placedAt .wfin 0) [0x0E26]
      ((s.setWide (.withKeys k (sv.map4 fun v => finalRound v k[14]) ctrv)).placedAt .wst 0) :=
  .busy hs nofun rfl (exec_fin4_withKeys (s := s.placedAt .wfin 0) hk) rfl

end keyedPositions

/-! ## The parts of the micro-program -/

section setup

variable {s : State} {w : WideBank} (hs : s.hostSilent) (hw : s.wide = some w)

include hs hw

/-- The loop at `WBK` broadcasts the keys (R181). -/
theorem issues_broadcastKeys :
    Issues (s.placedAt .wbk 0) statedBroadcastWords
      ((s.setWide { w with wk := s.narrow.rk.map Lanes.broadcast }).placedAt .wbc 0) := by
  have hloop := Issues.counting (p := .wbk) (q := .wbc) (uop := 0x20) (first := 0) (len := 14)
    (f := fun i => s.setWide { w with wk := broadcastKeys s.narrow.rk w.wk i }) (by decide) fun i hi => by
      have hwbk := issues_wbk (s := s.setWide { w with wk := broadcastKeys s.narrow.rk w.wk i }) hs rfl
        ⟨i, by omega⟩
      rw [State.setWide_narrow, broadcastKeys_succ _ _ ⟨i, by omega⟩] at hwbk
      rw [Nat.zero_add]
      exact hwbk
  rw [broadcastKeys_all, broadcastKeys_zero, State.setWide_self hw] at hloop
  rw [statedBroadcastWords_eq]
  exact hloop

/-- From `WBK` to `WCHK`: the keys, the lanes' counters and their reversals (R191). -/
theorem issues_wideSetup :
    Issues (s.placedAt .wbk 0) (statedBroadcastWords ++ [0x0021, 0x0022, 0x0023])
      ((s.setWide (WideBank.ready s.narrow.rk s.narrow.ctr)).placedAt .wchk 0) := by
  have hwbc := issues_wbc (s := s.setWide { w with wk := s.narrow.rk.map Lanes.broadcast }) hs rfl
  have hwof := issues_wof (s := s.setWide
    { w with wk := s.narrow.rk.map Lanes.broadcast, ctrv := Lanes.broadcast s.narrow.ctr }) hs rfl
  have hwsw := issues_wsw (s := s.setWide
    { w with wk := s.narrow.rk.map Lanes.broadcast, ctrv := laneCounters s.narrow.ctr }) hs rfl
  exact (issues_broadcastKeys hs hw).trans (hwbc.trans (hwof.trans hwsw))

end setup

section group

variable {s : State} {k : Vector Block 15} {sv ctrv : Lanes} (hs : s.hostSilent)

include hs

/-- The loop at `WRND` runs the 13 middle rounds in all lanes (R186). -/
theorem issues_wideRounds (hk : s.wide = some (.withKeys k sv ctrv)) :
    Issues (s.placedAt .wrnd 1) ((List.range 13).map fun i => controlWord (BitVec.ofNat 4 (1 + i)) 0x25)
      ((s.setWide (.withKeys k (sv.map4 fun v => middleRounds k v 13) ctrv)).placedAt .wfin 0) := by
  have hloop := Issues.counting (p := .wrnd) (q := .wfin) (uop := 0x25) (first := 1) (len := 12)
    (f := fun i => s.setWide (.withKeys k (sv.map4 fun v => middleRounds k v i) ctrv)) (by decide) fun i hi => by
      have hwrnd := issues_wrnd (s := s.setWide (.withKeys k (sv.map4 fun v => middleRounds k v i) ctrv)) hs rfl
        (i := 1 + i) (by omega)
      rw [map4_map4, State.setWide_setWide] at hwrnd
      simp only [middleRounds_succ _ _ (show 1 + i < 15 by omega)]
      exact hwrnd
  have hfirst : s.setWide (.withKeys k (sv.map4 fun v => middleRounds k v 0) ctrv) = s := State.setWide_self hk
  rwa [hfirst] at hloop

/-- From `WARK` to `WST`: every lane encrypted (R185 to R187). -/
theorem issues_cipherLanes (hk : s.wide = some (.withKeys k sv ctrv)) :
    Issues (s.placedAt .wark 0)
      ([0x0024] ++ ((List.range 13).map fun i => controlWord (BitVec.ofNat 4 (1 + i)) 0x25) ++ [0x0E26])
      ((s.setWide (.withKeys k (sv.map4 fun v => cipher256 v k) ctrv)).placedAt .wst 0) := by
  have hrounds := issues_wideRounds (s := s.setWide (.withKeys k (sv.map4 fun v => addRoundKey v k[0]) ctrv)) hs rfl
  have hwfin := issues_wfin
    (s := s.setWide (.withKeys k (sv.map4 fun v => middleRounds k (addRoundKey v k[0]) 13) ctrv)) hs rfl
  rw [map4_map4, State.setWide_setWide] at hrounds hwfin
  simp only [cipher256_eq]
  exact ((issues_wark hs hk).trans hrounds).trans hwfin

/-- From `WST` to `WADV`: the group stored, the lanes' counters advanced and reversed (R188, R189). -/
theorem issues_storeLanes {c : Block} (hk : s.wide = some (.withKeys k sv (laneCounters c)))
    (hin : s.inSpace s.blockAddr 64 = true) (hadm : s.admits .write s.blockAddr 64 = true) :
    Issues (s.placedAt .wst 0) [0x0027, 0x0028, 0x0023]
      (((s.setMem (s.mem.writeLanes s.blockAddr sv)).setWide (.ready k (add32Lo c 4))).placedAt .wadv 0) := by
  have hscript : (s.setMem (s.mem.writeLanes s.blockAddr sv)).hostSilent := (State.setMem_script _ s).trans hs
  have hwinc := issues_winc hscript ((State.setMem_wide _ s).trans hk)
  have hwrsw := issues_wrsw (s := (s.setMem (s.mem.writeLanes s.blockAddr sv)).setWide
    (.withKeys k sv (laneCounters (add32Lo c 4)))) ((State.setWide_script _ _).trans hscript) rfl
  rw [State.setWide_setWide, ← laneCounters_map4] at hwrsw
  rw [WideBank.ready, ← laneCounters_map4]
  exact (issues_wst hs hk hin hadm).trans (hwinc.trans hwrsw)

/-- From `WCHK` back to `WCHK`: one wanted group (R191). -/
theorem issues_nextGroup {c : Block} (hk : s.wide = some (.ready k c)) (h4 : 4 ≤ s.remaining)
    (hin : s.inSpace s.blockAddr 64 = true) (hadm : s.admits .write s.blockAddr 64 = true) :
    Issues (s.placedAt .wchk 0) wideBodyWords ((s.nextGroup k c).placedAt .wchk 0) := by
  have hstore := issues_storeLanes (s := s.setWide (.withKeys k (groupLanes k c) (laneCounters c))) (c := c) hs rfl
  simp only [State.inSpace_setWide, State.admits_setWide, State.blockAddr_setWide, State.setWide_mem,
    State.setWide_setMem_setWide] at hstore
  have hwadv := issues_wadv
    (s := (s.setMem (s.mem.writeLanes s.blockAddr (groupLanes k c))).setWide (.ready k (add32Lo c 4)))
    ((State.setWide_script _ _).trans ((State.setMem_script _ s).trans hs))
  rw [State.setWide_bi, State.setMem_bi] at hwadv
  have hcipher := issues_cipherLanes hs hk
  rw [map4_laneCounters] at hcipher
  rw [wideBodyWords, statedGroupWords_eq]
  exact (issues_wchk_group hs h4).trans ((hcipher.trans (hstore hin hadm)).trans hwadv)

end group

end Sys2Proof.Machine

/-! The parallel generator: its loop over groups, the handoff to the narrow unit, and its runs (spec/43_parallel_ctr.md
R180, R191, R192; spec/45_sequencer_and_host.md R213). -/

namespace Sys2Proof.Machine

/-! ## Groups of a keystream -/

/-- `s` after `g` groups of the keystream of its counter, stored from block `BI` on, the wide bank ready for the next
group (R180). -/
def State.afterGroups (s : State) (g : Nat) : State :=
  ((s.setMem (writeGroups s.narrow.rk s.narrow.ctr s.blockAddr g s.mem)).setWide
    (.ready s.narrow.rk (add32Lo s.narrow.ctr (BitVec.ofNat 32 (4 * g))))).setBi (s.bi + BitVec.ofNat 32 (4 * g))

@[simp] theorem State.afterGroups_mem (s : State) (g : Nat) :
    (s.afterGroups g).mem = writeGroups s.narrow.rk s.narrow.ctr s.blockAddr g s.mem := rfl
@[simp] theorem State.afterGroups_wide (s : State) (g : Nat) :
    (s.afterGroups g).wide = some (.ready s.narrow.rk (add32Lo s.narrow.ctr (BitVec.ofNat 32 (4 * g)))) := rfl
@[simp] theorem State.afterGroups_bi (s : State) (g : Nat) :
    (s.afterGroups g).bi = s.bi + BitVec.ofNat 32 (4 * g) := rfl
@[simp] theorem State.afterGroups_narrow (s : State) (g : Nat) : (s.afterGroups g).narrow = s.narrow := rfl
@[simp] theorem State.afterGroups_latch (s : State) (g : Nat) : (s.afterGroups g).latch = s.latch := rfl
@[simp] theorem State.afterGroups_script (s : State) (g : Nat) : (s.afterGroups g).script = s.script := rfl
@[simp] theorem State.afterGroups_aw (s : State) (g : Nat) : (s.afterGroups g).aw = s.aw := rfl
@[simp] theorem State.afterGroups_ranges (s : State) (g : Nat) : (s.afterGroups g).ranges = s.ranges := rfl

/-- No group leaves a state as it is whose wide bank is ready for its counter. -/
theorem State.afterGroups_zero {s : State} (hw : s.wide = some (.ready s.narrow.rk s.narrow.ctr)) :
    s.afterGroups 0 = s := by
  rw [State.afterGroups, Nat.mul_zero, add32Lo_zero, BitVec.add_zero]
  exact State.setWide_self hw

/-- The number of blocks stored, where `BI` does not wrap. -/
theorem State.afterGroups_bi_toNat {s : State} {g : Nat} (hg : s.bi.toNat + 4 * g < 2 ^ 32) :
    (s.afterGroups g).bi.toNat = s.bi.toNat + 4 * g := by
  rw [State.afterGroups_bi, BitVec.toNat_add, BitVec.toNat_ofNat, Nat.add_mod_mod, Nat.mod_eq_of_lt hg]

/-- Where the block after the groups goes. -/
theorem State.afterGroups_blockAddr {s : State} {g : Nat} (hg : s.bi.toNat + 4 * g < 2 ^ 32) :
    (s.afterGroups g).blockAddr = s.blockAddr + 64 * g := by
  rw [State.blockAddr, State.afterGroups_bi_toNat hg, State.blockAddr, State.afterGroups_latch]
  omega

/-- One more pass of the loop body is one more group of the keystream. -/
theorem State.nextGroup_afterGroups {s : State} {g : Nat} (hg : s.bi.toNat + 4 * g < 2 ^ 32) :
    (s.afterGroups g).nextGroup s.narrow.rk (add32Lo s.narrow.ctr (BitVec.ofNat 32 (4 * g))) =
      s.afterGroups (g + 1) := by
  have hctr : add32Lo (add32Lo s.narrow.ctr (BitVec.ofNat 32 (4 * g))) 4 =
      add32Lo s.narrow.ctr (BitVec.ofNat 32 (4 * (g + 1))) :=
    add32Lo_ofNat_add _ _ 4
  have hbi : s.bi + BitVec.ofNat 32 (4 * g) + 4 = s.bi + BitVec.ofNat 32 (4 * (g + 1)) := by
    rw [BitVec.add_assoc, Nat.mul_succ, BitVec.ofNat_add]; rfl
  rw [State.nextGroup, State.afterGroups_blockAddr hg, State.afterGroups_mem, State.afterGroups_bi, hctr, hbi]
  rfl

/-- From `WCHK` to `WCHK`: the loop over groups, as long as four blocks are wanted (R191, R215). -/
theorem issues_afterGroups {s : State} (hs : s.hostSilent) (hw : s.wide = some (.ready s.narrow.rk s.narrow.ctr))
    (h : s.rangesOk s.latch.nbl.toNat s.latch.ksl s.latch.inl s.latch.outl = true) {g : Nat}
    (hg : s.bi.toNat + 4 * g ≤ s.latch.nbl.toNat) :
    Issues (s.placedAt .wchk 0) (List.replicate g wideBodyWords).flatten ((s.afterGroups g).placedAt .wchk 0) := by
  have hnbl := s.latch.nbl.isLt
  have hloop := Issues.passes (f := fun i => (s.afterGroups i).placedAt .wchk 0) (ws := wideBodyWords) (n := g)
    fun i hi => by
      have hbi := State.afterGroups_bi_toNat (s := s) (g := i) (by omega)
      have hwanted : 4 ≤ (s.afterGroups i).remaining := by
        rw [State.remaining, hbi, State.afterGroups_latch]; omega
      have hranges := (rangesOk_congr (State.afterGroups_aw s i) (State.afterGroups_ranges s i) ..).trans h
      obtain ⟨hin, hadm⟩ := access_groupAddr (s := s.afterGroups i) hranges (by omega)
      rw [← State.nextGroup_afterGroups (by omega)]
      exact issues_nextGroup ((State.afterGroups_script s i).trans hs) (State.afterGroups_wide s i) hwanted hin hadm
  rwa [State.afterGroups_zero hw] at hloop

/-! ## The handoff and the remainder -/

/-- `s` with the counter `c` handed to the narrow unit: `c` in `CTR` and its reversal in `S` (R192). -/
def State.handOver (c : Block) (s : State) : State := (s.setCtr c).setS (rev16 c)

@[simp] theorem State.handOver_script (c : Block) (s : State) : (s.handOver c).script = s.script := by
  simp [State.handOver]
@[simp] theorem State.handOver_latch (c : Block) (s : State) : (s.handOver c).latch = s.latch := by
  simp [State.handOver]
@[simp] theorem State.handOver_bi (c : Block) (s : State) : (s.handOver c).bi = s.bi := by
  simp [State.handOver]
@[simp] theorem State.handOver_aw (c : Block) (s : State) : (s.handOver c).aw = s.aw := by
  simp [State.handOver]
@[simp] theorem State.handOver_ranges (c : Block) (s : State) : (s.handOver c).ranges = s.ranges := by
  simp [State.handOver]
@[simp] theorem State.handOver_mem (c : Block) (s : State) : (s.handOver c).mem = s.mem := by
  simp [State.handOver]
@[simp] theorem State.handOver_ctr (c : Block) (s : State) : (s.handOver c).narrow.ctr = c := by
  simp [State.handOver]
theorem State.handOver_s (c : Block) (s : State) : (s.handOver c).narrow.s = rev16 (s.handOver c).narrow.ctr := by
  simp [State.handOver]
@[simp] theorem State.handOver_rk (c : Block) (s : State) : (s.handOver c).narrow.rk = s.narrow.rk := by
  simp [State.handOver]
@[simp] theorem State.handOver_blockAddr (c : Block) (s : State) : (s.handOver c).blockAddr = s.blockAddr := by
  simp [State.handOver]
@[simp] theorem State.clearVectors_handOver (c : Block) (s : State) :
    (s.handOver c).clearVectors = s.clearVectors := by
  simp [State.handOver, State.clearVectors, State.setS, State.setCtr]

/-- The words of the handoff and of the `r` blocks after it, those of the `NOP` steps included (R191; R213). -/
def remainderWords (r : Nat) : List CtrlWord :=
  if r ≠ 0 then [0x0029, 0x0012] ++ (List.replicate r narrowBodyWords).flatten ++ [0x0000] else []

section remainder

variable {s : State} {k : Vector Block 15} {c : Block} (hs : s.hostSilent) (hw : s.wide = some (.ready k c))

include hs hw

/-- From `WCHK` to `NCHK`: the handoff of lane 0 (R192). -/
theorem issues_handOver (h4 : ¬ 4 ≤ s.remaining) (hbi : s.bi ≠ s.latch.nbl) :
    Issues (s.placedAt .wchk 0) ([0x0000] ++ [0x0029, 0x0012]) ((s.handOver c).placedAt .nchk 0) := by
  have hxl := issues_hxl hs hw
  have hlane : (WideBank.ready k c).ctrv.lane0 = c := laneCounters_lane0 c
  rw [hlane] at hxl
  exact (issues_wchk_handoff hs h4 hbi).trans
    (hxl.trans (issues_hsw (s := s.setCtr c) ((State.setCtr_script _ s).trans hs)))

/-- From `WCHK` to `IDLE`: the fewer than four blocks still wanted, then the end (R191). -/
theorem issues_remainder (hopl : s.latch.opl = 3)
    (h : s.rangesOk s.latch.nbl.toNat s.latch.ksl s.latch.inl s.latch.outl = true) {r : Nat} (hr : r < 4)
    (hn : s.bi.toNat + r = s.latch.nbl.toNat) :
    Issues (s.placedAt .wchk 0) ([0x0000] ++ remainderWords r ++ [0x003F, 0x0000])
      (((s.handOver c).afterBlocks r).clearVectors.complete.placedAt .idle 0) := by
  have h4 : ¬ 4 ≤ s.remaining := by rw [State.remaining]; omega
  by_cases hzero : r = 0
  · have hbi : s.bi = s.latch.nbl := BitVec.eq_of_toNat_eq (by omega)
    rw [remainderWords, if_neg (not_not_intro hzero), hzero, State.afterBlocks_zero (s.handOver_s c),
      State.clearVectors_handOver]
    exact (issues_wchk_finished hs h4 hbi).trans (issues_clear hs)
  · have hbi : s.bi ≠ s.latch.nbl := fun he => by rw [he] at hn; omega
    have hranges := (rangesOk_congr (s.handOver_aw c) (s.handOver_ranges c) ..).trans h
    rw [← State.handOver_latch c s] at hranges
    have hblocks := issues_remainingBlocks (s := s.handOver c) ((State.handOver_script c s).trans hs)
      (by rw [State.handOver_latch, hopl]; decide) hranges (s.handOver_s c)
      (by rw [State.handOver_bi, State.handOver_latch, hn])
    rw [remainderWords, if_pos hzero]
    simpa only [List.append_assoc] using (issues_handOver hs hw h4 hbi).trans hblocks

end remainder

/-! ## `GENPAR` -/

/-- `s` with the schedule in `RK`, the counter block in `CTR` and the wide bank ready for both (R191). -/
def State.loadWide (s : State) : State :=
  ((s.setKeys (s.mem.schedule s.latch.ksl.toNat)).setCtr (s.mem.readBlock s.inputAddr)).setWide
    (.ready (s.mem.schedule s.latch.ksl.toNat) (s.mem.readBlock s.inputAddr))

@[simp] theorem State.loadWide_wide (s : State) :
    s.loadWide.wide = some (.ready s.loadWide.narrow.rk s.loadWide.narrow.ctr) := by
  simp [State.loadWide]
@[simp] theorem State.loadWide_rk (s : State) : s.loadWide.narrow.rk = s.mem.schedule s.latch.ksl.toNat := by
  simp [State.loadWide]
@[simp] theorem State.loadWide_ctr (s : State) : s.loadWide.narrow.ctr = s.mem.readBlock s.inputAddr := by
  simp [State.loadWide]
@[simp] theorem State.loadWide_script (s : State) : s.loadWide.script = s.script := by
  simp [State.loadWide]
@[simp] theorem State.loadWide_latch (s : State) : s.loadWide.latch = s.latch := by
  simp [State.loadWide]
@[simp] theorem State.loadWide_bi (s : State) : s.loadWide.bi = s.bi := by
  simp [State.loadWide]
@[simp] theorem State.loadWide_mem (s : State) : s.loadWide.mem = s.mem := by
  simp [State.loadWide]
@[simp] theorem State.loadWide_aw (s : State) : s.loadWide.aw = s.aw := by
  simp [State.loadWide]
@[simp] theorem State.loadWide_ranges (s : State) : s.loadWide.ranges = s.ranges := by
  simp [State.loadWide]
@[simp] theorem State.loadWide_blockAddr (s : State) : s.loadWide.blockAddr = s.blockAddr := by
  simp [State.loadWide]

/-- `s` after the `n` blocks of a `GENPAR`: its inputs, the groups, the handoff of the counter after them, and the
remainder (R180, R191). -/
def State.afterParallel (s : State) (n : Nat) : State :=
  ((s.loadWide.afterGroups (n / 4)).handOver
    (add32Lo s.loadWide.narrow.ctr (BitVec.ofNat 32 (4 * (n / 4))))).afterBlocks (n % 4)

/-- The blocks of a `GENPAR` write the vector registers, `BI` and memory only (spec/10_state.md R36). -/
theorem State.afterParallel_frame (s : State) (n : Nat) :
    s.afterParallel n = { s with
      narrow := (s.afterParallel n).narrow, wide := (s.afterParallel n).wide, bi := (s.afterParallel n).bi,
      mem := (s.afterParallel n).mem } := by
  cases s; rfl

/-- After a `GENPAR` the part has its wide bank. -/
theorem State.afterParallel_wide_isSome (s : State) (n : Nat) : (s.afterParallel n).wide.isSome = true := rfl

/-- The words `GENPAR` issues after its acceptance step, those of its `NOP` steps included (R191; R213). -/
def genparWords (n : Nat) : List CtrlWord :=
  statedLoadWords ++ [0x0011] ++ (statedBroadcastWords ++ [0x0021, 0x0022, 0x0023]) ++
    (List.replicate (n / 4) wideBodyWords).flatten ++ ([0x0000] ++ remainderWords (n % 4) ++ [0x003F, 0x0000])

/-- The number of words of the handoff and the remainder (R223). -/
theorem remainderWords_length (r : Nat) : (remainderWords r).length = if r ≠ 0 then 3 + 20 * r else 0 := by
  have hbody : narrowBodyWords.length = 20 := by decide
  rw [remainderWords, apply_ite List.length]
  simp only [List.length_append, List.length_flatten, List.map_replicate, List.sum_replicate, hbody, List.length_cons,
    List.length_nil, smul_eq_mul]
  split <;> omega

/-- One word for each of the steps of R223 after the acceptance step. -/
theorem genparWords_length (n : Nat) :
    (genparWords n).length = 37 + 20 * (n / 4) + (if n % 4 ≠ 0 then 3 + 20 * (n % 4) else 0) := by
  have hload : statedLoadWords.length = 15 := by decide
  have hbroadcast : statedBroadcastWords.length = 15 := by decide
  have hbody : wideBodyWords.length = 20 := by decide
  simp only [genparWords, List.length_append, List.length_flatten, List.map_replicate, List.sum_replicate, hload,
    hbroadcast, hbody, remainderWords_length, List.length_cons, List.length_nil, smul_eq_mul]
  omega

/-- The operations of the handoff and the remainder (R191). -/
theorem remainderWords_operations (r : Nat) :
    (remainderWords r).filter (· ≠ 0x0000) = if r ≠ 0 then [0x0029, 0x0012] ++ statedNarrowLoop r else [] := by
  have hbody : narrowBodyWords.filter (· ≠ 0x0000) = statedBlockWords ++ [0x0017, 0x0012] := by decide
  rw [remainderWords, apply_ite (List.filter _)]
  simp only [statedNarrowLoop, List.filter_append, List.filter_flatten, List.map_replicate, hbody]
  split
  · exact List.append_nil _
  · rfl

/-- The operations among the words of `GENPAR` (R191). -/
theorem genparWords_operations (n : Nat) :
    (genparWords n).filter (· ≠ 0x0000) =
      statedLoadWords ++ [0x0011] ++ statedBroadcastWords ++ [0x0021, 0x0022, 0x0023] ++
        (List.replicate (n / 4) statedGroupWords).flatten ++
        (if n % 4 ≠ 0 then [0x0029, 0x0012] ++ statedNarrowLoop (n % 4) else []) ++ [0x003F] := by
  have hload : statedLoadWords.filter (· ≠ 0x0000) = statedLoadWords := by decide
  have hbroadcast : statedBroadcastWords.filter (· ≠ 0x0000) = statedBroadcastWords := by decide
  have hbody : wideBodyWords.filter (· ≠ 0x0000) = statedGroupWords := by decide
  simp only [genparWords, List.filter_append, List.filter_flatten, List.map_replicate, hload, hbroadcast, hbody,
    remainderWords_operations, List.append_assoc]
  rfl

/-- The number of operations of `n` narrow loop bodies (R172). -/
theorem statedNarrowLoop_length (n : Nat) : (statedNarrowLoop n).length = 18 * n := by
  have hbody : (statedBlockWords ++ [0x0017, 0x0012]).length = 18 := by decide
  rw [statedNarrowLoop, List.length_flatten, List.map_replicate, List.sum_replicate, hbody, smul_eq_mul, Nat.mul_comm]

/-- The number of operations of `GENPAR` (R191, R223). -/
theorem genparOperations_length (n : Nat) :
    (statedLoadWords ++ [0x0011] ++ statedBroadcastWords ++ [0x0021, 0x0022, 0x0023] ++
        (List.replicate (n / 4) statedGroupWords).flatten ++
        (if n % 4 ≠ 0 then [0x0029, 0x0012] ++ statedNarrowLoop (n % 4) else []) ++ [0x003F]).length =
      34 + 18 * (n / 4) + (if n % 4 ≠ 0 then 2 + 18 * (n % 4) else 0) + 1 := by
  have hload : statedLoadWords.length = 15 := by decide
  have hbroadcast : statedBroadcastWords.length = 15 := by decide
  have hbody : statedGroupWords.length = 18 := by decide
  simp only [List.length_append, List.length_flatten, List.map_replicate, List.sum_replicate, hload, hbroadcast, hbody,
    apply_ite List.length, statedNarrowLoop_length, List.length_cons, List.length_nil, smul_eq_mul, Nat.reduceAdd]
  omega

section run

variable {s : State} (hs : s.hostSilent) (hw : s.wide ≠ none) (hopl : s.latch.opl = 3)
  (h : s.rangesOk s.latch.nbl.toNat s.latch.ksl s.latch.inl s.latch.outl = true)

include hs hw hopl h

/-- From `KLD` to `WCHK` in `GENPAR`: the schedule, the counter block, and the wide bank set up (R191). -/
theorem issues_loadWide :
    Issues (s.placedAt .kld 0) (statedLoadWords ++ [0x0011] ++ (statedBroadcastWords ++ [0x0021, 0x0022, 0x0023]))
      (s.loadWide.placedAt .wchk 0) := by
  obtain ⟨w, hw⟩ := Option.ne_none_iff_exists'.mp hw
  obtain ⟨hin, hadm⟩ := access_inputAddr h
  have hscript := (State.setKeys_script (s.mem.schedule s.latch.ksl.toNat) s).trans hs
  have hcld := issues_cld_genpar hscript
  simp only [State.inSpace_setKeys, State.admits_setKeys, State.inputAddr_setKeys, State.setKeys_mem,
    State.setKeys_latch] at hcld
  have hsetup := issues_wideSetup
    (s := (s.setKeys (s.mem.schedule s.latch.ksl.toNat)).setCtr (s.mem.readBlock s.inputAddr))
    ((State.setCtr_script _ _).trans hscript) ((State.setCtr_wide _ _).trans ((State.setKeys_wide _ s).trans hw))
  exact ((issues_loadKeys hs h).trans (hcld hin hadm hopl)).trans hsetup

/-- From `KLD` to `IDLE` in `GENPAR`: the inputs, the groups and the remainder (R191). -/
theorem issues_parallelKeystream (hbi : s.bi = 0) :
    Issues (s.placedAt .kld 0) (genparWords s.latch.nbl.toNat)
      ((s.afterParallel s.latch.nbl.toNat).clearVectors.complete.placedAt .idle 0) := by
  have hn := Nat.div_add_mod s.latch.nbl.toNat 4
  have hbiw : s.loadWide.bi.toNat = 0 := by rw [State.loadWide_bi, hbi]; rfl
  have hscript := s.loadWide_script.trans hs
  have hranges := (rangesOk_congr s.loadWide_aw s.loadWide_ranges ..).trans h
  rw [← State.loadWide_latch] at hranges
  have hgroups := issues_afterGroups (g := s.latch.nbl.toNat / 4) hscript s.loadWide_wide hranges
    (by rw [State.loadWide_latch]; omega)
  have hbig := State.afterGroups_bi_toNat (s := s.loadWide) (g := s.latch.nbl.toNat / 4) (by omega)
  have hrangesg := (rangesOk_congr (s.loadWide.afterGroups_aw (s.latch.nbl.toNat / 4))
    (s.loadWide.afterGroups_ranges (s.latch.nbl.toNat / 4)) ..).trans hranges
  rw [← State.afterGroups_latch s.loadWide (s.latch.nbl.toNat / 4)] at hrangesg
  have hremainder := issues_remainder (r := s.latch.nbl.toNat % 4) ((State.afterGroups_script _ _).trans hscript)
    (State.afterGroups_wide _ _) (by rw [State.afterGroups_latch, State.loadWide_latch, hopl]) hrangesg
    (Nat.mod_lt _ (by decide)) (by rw [hbig, State.afterGroups_latch, State.loadWide_latch]; omega)
  exact ((issues_loadWide hs hw hopl h).trans hgroups).trans hremainder

end run

/-- The memory the blocks of `GENPAR` leave (R180). -/
theorem afterParallel_mem {s : State} (hbi : s.bi = 0) {n : Nat} (hn : n < 2 ^ 32) :
    (s.afterParallel n).mem = genparMemory s.mem n s.latch.ksl.toNat s.latch.inl.toNat s.latch.outl.toNat := by
  have hbiw : s.loadWide.bi.toNat = 0 := by rw [State.loadWide_bi, hbi]; rfl
  have haddr : s.blockAddr = s.latch.outl.toNat := by rw [State.blockAddr, hbi]; rfl
  rw [State.afterParallel, State.afterBlocks_mem, State.handOver_blockAddr, State.afterGroups_blockAddr (by omega)]
  simp [genparMemory, State.inputAddr, haddr]

/-- The blocks stored after a `GENPAR` (R180). -/
theorem afterParallel_bi {s : State} (hbi : s.bi = 0) (n : Nat) : (s.afterParallel n).bi = BitVec.ofNat 32 n := by
  rw [State.afterParallel, State.afterBlocks_bi, State.handOver_bi, State.afterGroups_bi, State.loadWide_bi, hbi,
    zero_add, ← BitVec.ofNat_add, Nat.div_add_mod]

/-- The end of a command in a state `t` that differs from that of its acceptance in vector registers, `BI` and memory
only, with every wanted block stored, is the state of the command level (R216, R220). -/
theorem complete_eq_afterCommand_of_accept {s t : State} {l : Latch}
    (hframe : t = { s.accept l with narrow := t.narrow, wide := t.wide, bi := t.bi, mem := t.mem })
    (hwide : t.wide.isSome = s.wide.isSome) (hbi : t.bi = l.nbl) :
    t.clearVectors.complete.placedAt .idle 0 = s.afterCommand (Latch.fit s.aw l) t.mem := by
  have hbank : t.wide.map (fun _ => WideBank.zero) = s.wide.map fun _ => WideBank.zero := by
    revert hwide
    cases t.wide <;> cases s.wide <;> simp
  apply complete_eq_afterCommand
  rw [hframe]
  simp [State.clearVectors, State.accept, State.recordAcceptance, hbank, hbi]

/-- What the latch takes of `GENPAR` (spec/10_state.md R30). -/
def genparLatch (n : Count) (ks ctr out : Addr) : Latch := { opl := 3, nbl := n, ksl := ks, inl := ctr, outl := out }

section genpar

variable {s : State} {n : Count} {ks ctr out : Addr} (hw : s.wide ≠ none) (h : s.rangesOk n.toNat ks ctr out = true)

include h

/-- What the latch holds of `GENPAR`. -/
theorem fit_genparLatch :
    Latch.fit s.aw (genparLatch n ks ctr out) = genparLatch n ks ctr (fitAddr s.aw out) :=
  fit_eq_of_rangesOk (l := genparLatch n ks ctr out) h

/-- The memory a `GENPAR` leaves, by the fields of its descriptor (R180). -/
theorem afterParallel_genpar_mem :
    ((s.accept (genparLatch n ks ctr out)).afterParallel n.toNat).mem =
      genparMemory s.mem n.toNat ks.toNat ctr.toNat out.toNat := by
  have hout : 0 < n.toNat → (fitAddr s.aw out).toNat = out.toNat := fun hn => by
    rw [fitAddr_of_lt ((rangesOk_lt h).2.2 hn)]
  rw [afterParallel_mem (State.accept_bi _ s) n.isLt, State.accept_latch, fit_genparLatch h,
    genparMemory_eq_genseqMemory, genparMemory_eq_genseqMemory]
  exact genseqMemory_congr_out s.mem _ _ hout

include hw

/-- What the run of a `GENPAR` leaves is the state of the command level (R180). -/
theorem afterCommand_genpar :
    ((s.accept (genparLatch n ks ctr out)).afterParallel n.toNat).clearVectors.complete.placedAt .idle 0 =
      s.afterCommand (genparLatch n ks ctr (fitAddr s.aw out))
        (genparMemory s.mem n.toNat ks.toNat ctr.toNat out.toNat) := by
  have hbi := afterParallel_bi (State.accept_bi (genparLatch n ks ctr out) s) n.toNat
  rw [BitVec.ofNat_toNat, BitVec.setWidth_eq] at hbi
  have hwide := (State.afterParallel_wide_isSome (s.accept (genparLatch n ks ctr out)) n.toNat).trans
    (Option.isSome_iff_ne_none.mpr hw).symm
  rw [← afterParallel_genpar_mem h, ← fit_genparLatch h]
  exact complete_eq_afterCommand_of_accept (State.afterParallel_frame _ _) hwide hbi

/-- A `GENPAR` that passed the range check runs to the state of R180 and issues the words of R191. -/
theorem issues_genpar (hs : s.hostSilent) :
    Issues (s.accept (genparLatch n ks ctr out)) (genparWords n.toNat)
      (s.afterCommand (genparLatch n ks ctr (fitAddr s.aw out))
        (genparMemory s.mem n.toNat ks.toNat ctr.toNat out.toNat)) := by
  rw [← afterCommand_genpar hw h]
  have hranges := rangesOk_accept (l := genparLatch n ks ctr out) h
  exact issues_parallelKeystream ((State.accept_script _ s).trans hs) hw rfl hranges rfl

end genpar

/-- Settles O38: the run of `issues_genpar` after the acceptance step. -/
theorem genparRunsToItsKeystream : Obligations.GenparRunsToItsKeystream := by
  intro s n ks ctr out hidle hs hw h
  have htaken : exec (.genpar n ks ctr out) s = .next (s.accept (genparLatch n ks ctr out)) :=
    (exec_genpar_wide hidle n ks ctr out (Option.isSome_iff_ne_none.mpr hw)).trans (congrArg _ (if_pos h))
  have hrun := (issues_genpar hw h hs).run_eq
  rw [genparWords_length] at hrun
  exact ⟨_, htaken, hrun⟩

/-- Settles O41: the words of `issues_genpar` after the `NOP` of the acceptance step, without the `NOP`s. -/
theorem genparIssuesItsSequence : Obligations.GenparIssuesItsSequence := by
  intro s n ks ctr out ho hw h
  have ⟨hidle, _, hsilent⟩ := ho
  have htaken : step s = .next (State.accept (genparLatch n ks ctr out) { s with port := none }) := by
    rw [step_of_legalOffer ho (decodeDescriptor_genpar (descriptor_rsv0 ..) (descriptor_opc ..))]
    simp only [descriptor_nblk, descriptor_ks, descriptor_inp, descriptor_out]
    rw [exec_genpar_wide (s := { s with port := none }) hidle _ _ _ _ (Option.isSome_iff_ne_none.mpr hw)]
    exact congrArg _ (if_pos h)
  have hwords := (Issues.step htaken (issues_genpar (s := { s with port := none }) hw h hsilent)).issuedWords_eq
  have hsteps : (genparWords n.toNat).length + 1 = genparSteps n.toNat := by
    rw [genparWords_length, genparSteps]; omega
  rw [hidle, List.length_cons, hsteps] at hwords
  have hops := (congrArg (List.filter (· ≠ 0x0000)) hwords).trans (genparWords_operations n.toNat)
  exact ⟨hops, (congrArg List.length hops).trans (genparOperations_length n.toNat)⟩

end Sys2Proof.Machine

/-! Secret hygiene: what the positions `CLRS` and `DONE` do, and that no other position leads to `DONE` or back to
`IDLE` (spec/44_secret_hygiene.md R200, R201). -/

namespace Sys2Proof.Machine

open Host (Outcome)

section clear

variable {s t : State}

/-- Whatever `RC` holds, `CLRS` clears every vector register and goes to `DONE`. -/
theorem issue_clrs (h : s.upc = .clrs) : s.issue = .next (s.clearVectors.goto .done) := by
  have hd : decodeControl (s.upc.issues s.rc) = .ok .clr := by rw [h]; exact decode_issues .clrs 0 rfl
  rw [issue_of_decode hd]
  simp [exec, execClr, State.thenAdvance, State.advance, h]

/-- Whatever `RC` holds, `DONE` completes the command and goes to `IDLE`. -/
theorem issue_done (h : s.upc = .done) : s.issue = .next s.complete := by
  have hd : decodeControl (s.upc.issues s.rc) = .ok .nop := by rw [h]; exact decode_issues .done 0 rfl
  rw [issue_of_decode hd]
  simp [exec, execNop, State.thenAdvance, State.advance, h]

/-- An issuing step of a busy core enters `IDLE` or `DONE` in two ways only: out of `CLRS` or out of `DONE`. -/
theorem issue_to_idle_or_done (hb : s.upc ≠ .idle) (h : s.issue = .next t) (ht : t.upc = .idle ∨ t.upc = .done) :
    (s.upc = .clrs ∧ t = s.clearVectors.goto .done) ∨ (s.upc = .done ∧ t = s.complete) := by
  have hfrom : s.upc = .clrs ∨ s.upc = .done := by
    obtain ⟨i, u, -, hc, he, rfl⟩ := issue_next h
    exact advance_to_idle_or_done (by rw [(effect_of_exec hc he).frame]) hb ht
  rcases hfrom with hs | hs
  · exact .inl ⟨hs, Outcome.next.inj (h.symm.trans (issue_clrs hs))⟩
  · exact .inr ⟨hs, Outcome.next.inj (h.symm.trans (issue_done hs))⟩

/-- An idle core stays idle, takes a fault to `CLRS` or starts a command at `KLD`: it does not go to `DONE`. -/
theorem coreStep_idle_upc_ne_done (hidle : s.upc = .idle) (h : coreStep s = .next t) : t.upc ≠ .done := by
  rcases coreStep_cases h with ⟨-, -, rfl⟩ | ⟨-, f, rfl⟩ | ⟨-, l, rfl, -⟩ | ⟨hb, -⟩
  · simp [hidle]
  · simp
  · simp
  · exact absurd hidle hb

/-- The wide bank of a cleared core, where there is one, is the zero bank. -/
theorem State.bank_of_clearVectors {w : WideBank} (h : s.clearVectors.wide = some w) : w = WideBank.zero := by
  obtain ⟨_, -, hw⟩ := Option.map_eq_some_iff.mp h
  exact hw.symm

end clear

/-- Settles O12: an idle core does not go to `DONE`, and a busy one enters `IDLE` and `DONE` in two ways only. -/
theorem onlyWayBackIsThroughClear : Obligations.OnlyWayBackIsThroughClear := by
  intro s t hs h
  rw [step_of_silent hs] at h
  by_cases hidle : s.upc = .idle
  · exact ⟨fun hb => absurd hidle hb, fun ht => absurd ht (coreStep_idle_upc_ne_done hidle h)⟩
  rw [coreStep_of_busy hidle] at h
  refine ⟨fun _ ht => ?_, fun ht => ?_⟩
  · rcases issue_to_idle_or_done hidle h (.inl ht) with ⟨-, rfl⟩ | ⟨hdone, -⟩
    · simp at ht
    · exact hdone
  · rcases issue_to_idle_or_done hidle h (.inr ht) with ⟨hclrs, rfl⟩ | ⟨-, rfl⟩
    · exact ⟨hclrs, s.clearVectors_vectorsZero⟩
    · simp at ht

/-- Settles O32: the registers are those of the two zero banks. -/
theorem clrClearsEveryVectorRegister : Obligations.ClrClearsEveryVectorRegister := by
  intro s
  refine ⟨s.clearVectors, rfl, rfl, rfl, narrowZero_rk, fun w hw j => ?_, s.clearVectors_hasWide, rfl⟩
  rw [State.bank_of_clearVectors hw]
  exact wideZero_lane j

end Sys2Proof.Machine

/-! The sequencer and the host's port: an offer waits while the core is busy (spec/45_sequencer_and_host.md R211),
every other step issues an operation (R213, R214), and a read of `STATUS` or `CAP` only passes (R217). -/

namespace Sys2Proof.Machine

open Host (Outcome)

/-! ## The port and a busy core -/

section port

variable {s t : State} {i : Instr}

/-- A datapath operation answers the state of its effect. -/
theorem exec_of_effect (h : Effect s i t) : exec i s = .next t := by
  cases h with
  | nop | bsw | ark | fin | inc | clr => rfl
  | ldk key space admitted => exact exec_ldk_ok key space admitted
  | ldc space admitted => exact exec_ldc_ok space admitted
  | rnd key => exact exec_rnd_middle s key
  | stb space admitted => exact exec_stb_ok space admitted
  | bck bank key => exact exec_bck_wide bank key
  | bcc bank => exact exec_bcc_wide bank
  | aof bank => exact exec_aof_wide bank
  | bsw4 bank => exact exec_bsw4_wide bank
  | ark4 bank => exact exec_ark4_wide bank
  | rnd4 bank key => exact exec_rnd4_wide bank key
  | fin4 bank => exact exec_fin4_wide bank
  | stb4 bank space admitted => exact exec_stb4_ok bank space admitted
  | inc4 bank => exact exec_inc4_wide bank
  | xl0 bank => exact exec_xl0_wide bank

/-- A write of memory leaves the port as it is. -/
theorem setMem_withPort (m : Memory) (s : State) (offer : Option Descriptor) :
    { s.setMem m with port := offer } = State.setMem m { s with port := offer } := rfl

/-- The effect of a datapath operation neither looks at the port nor writes it. -/
theorem Effect.withPort (h : Effect s i t) (offer : Option Descriptor) :
    Effect { s with port := offer } i { t with port := offer } := by
  cases h with
  | nop => exact .nop
  | ldk key space admitted => exact .ldk key space admitted
  | ldc space admitted => exact .ldc space admitted
  | bsw => exact .bsw
  | ark => exact .ark
  | rnd key => exact .rnd key
  | fin => exact .fin
  | stb space admitted =>
    rw [setMem_withPort]
    exact .stb space admitted
  | inc => exact .inc
  | bck bank key => exact .bck bank key
  | bcc bank => exact .bcc bank
  | aof bank => exact .aof bank
  | bsw4 bank => exact .bsw4 bank
  | ark4 bank => exact .ark4 bank
  | rnd4 bank key => exact .rnd4 bank key
  | fin4 bank => exact .fin4 bank
  | stb4 bank space admitted =>
    rw [setMem_withPort]
    exact .stb4 bank space admitted
  | inc4 bank => exact .inc4 bank
  | xl0 bank => exact .xl0 bank
  | clr => exact .clr

/-- The bookkeeping neither looks at the port nor writes it. -/
theorem advance_withPort (s u : State) (offer : Option Descriptor) :
    State.advance { s with port := offer } { u with port := offer } = { s.advance u with port := offer } := by
  have hblind : State.advance { s with port := offer } { u with port := offer } =
      s.advance { u with port := offer } := rfl
  rw [hblind]
  cases hp : s.upc with
  | kld | nrnd | wbk | wrnd | cld | nchk | nst | wchk =>
    simp only [State.advance, State.countTo, hp]
    split_ifs <;> rfl
  | _ => simp only [State.advance, State.goto, State.complete, hp]

/-- An issuing step is the same whatever the port holds. -/
theorem issue_withPort (h : s.issue = .next t) (offer : Option Descriptor) :
    State.issue { s with port := offer } = .next { t with port := offer } := by
  obtain ⟨i, u, hd, hc, he, rfl⟩ := issue_next h
  have hexec := exec_of_effect ((effect_of_exec hc he).withPort offer)
  rw [issue_of_decode (s := { s with port := offer }) hd, hexec, State.thenAdvance, advance_withPort]

/-- A command executed on a busy core changes nothing (R211). -/
theorem exec_command_busy (hb : s.upc ≠ .idle) (hc : i.isCommand = true) : exec i s = .next s := by
  cases i with
  | enc1 | genseq | genpar => exact whenReady_busy hb
  | _ => cases hc

end port

/-- Settles O11: a busy core issues, and an issuing step keeps the port and is the same whatever the port holds. -/
theorem offerWaitsWhileBusy : Obligations.OfferWaitsWhileBusy := by
  refine ⟨fun s t offer hs hb h => ?_, fun s i hb hc => exec_command_busy hb hc⟩
  rw [step_of_silent hs, coreStep_of_busy hb] at h
  refine ⟨by rw [issue_frame h], ?_⟩
  rw [step_of_silent (s := { s with port := offer }) hs, coreStep_of_busy (s := { s with port := offer }) hb]
  exact issue_withPort h offer

/-! ## The steps of the core -/

/-- A core that does not accept a descriptor in this step issues its position's control word (R214). -/
theorem coreStep_of_noOffer {s : State} (h : s.upc = .idle → s.port = none) : coreStep s = s.issue := by
  by_cases hidle : s.upc = .idle
  · rw [coreStep, hidle, h hidle]
  · exact coreStep_of_busy hidle

/-- Settles O8: `State.thenAdvance` is the bookkeeping after a next state. -/
theorem stepRunsTheIssuedOperation : Obligations.StepRunsTheIssuedOperation := by
  intro s i hs hport hd
  rw [step_of_silent hs, coreStep_of_noOffer hport, issue_of_decode hd]
  cases exec i s <;> rfl

/-- Settles O9: the acceptance step of a legal descriptor. -/
theorem stepRunsTheOfferedCommand : Obligations.StepRunsTheOfferedCommand :=
  fun _ _ _ ho hd => step_of_legalOffer ho hd

/-- Settles O10: `NOP` answers its state, and an idle core with nothing offered issues `NOP`. -/
theorem idleStepAndNopChangeNothing : Obligations.IdleStepAndNopChangeNothing :=
  ⟨fun _ => rfl, fun _ hs hidle hport => (step_of_silent hs).trans (coreStep_of_idle hidle hport)⟩

/-! ## The reads of the host -/

section reads

variable {s : State} {rest : List HostMove}

/-- The step of a read of `STATUS` (R217). -/
theorem step_pollStatus (h : s.script = .pollStatus :: rest) : step s = .next { s with script := rest } := by
  rw [step, systemStep, h]

/-- The step of a read of `CAP` (R217). -/
theorem step_probeCap (h : s.script = .probeCap :: rest) : step s = .next { s with script := rest } := by
  rw [step, systemStep, h]

end reads

/-- Settles O56: the two reads, in any state. -/
theorem statusReadsHaveNoSideEffect : Obligations.StatusReadsHaveNoSideEffect :=
  fun _ _ h => h.elim step_pollStatus step_probeCap

end Sys2Proof.Machine

/-! Faults: the end of a refused command, and what `FSTICKY` outlives (spec/60_exceptions.md R245, R246). -/

namespace Sys2Proof.Machine

section fault

variable {s t : State}

/-- A run goes on from the next state of its first step. -/
theorem run_succ (h : step s = .next t) (k : Nat) : run (k + 1) s = run k t := by
  rw [run, h]

/-- From `CLRS` a silent host sees the command end in two steps, whatever `RC` a fault has left there
(spec/44_secret_hygiene.md R200, R201; spec/45_sequencer_and_host.md R216). -/
theorem run_of_clrs (hs : s.hostSilent) (h : s.upc = .clrs) : run 2 s = .next s.clearVectors.complete := by
  have hclrs : step s = .next (s.clearVectors.goto .done) := by
    rw [step_of_silent hs, coreStep_of_busy (by rw [h]; exact nofun), issue_clrs h]
  have hdone : step (s.clearVectors.goto .done) = .next (s.clearVectors.goto .done).complete := by
    rw [step_of_silent (s := s.clearVectors.goto .done) hs, coreStep_of_busy (by simp), issue_done rfl]
  exact (run_succ hclrs 1).trans (run_succ hdone 0)

/-- What the two steps after the refusal of an idle core's offer leave (R245). -/
theorem complete_statedRefused (hidle : s.upc = .idle) (f : CmdFault) :
    (statedRefused s f).clearVectors.complete =
      { s.clearVectors with done := true, err := some f, fsticky := true, port := none } := by
  simp [statedRefused, State.clearVectors, State.complete, hidle]

/-- `STATUS` of an idle core with `DONE` and `FSTICKY` set (spec/10_state.md R32). -/
theorem status_of_done_fsticky (hidle : s.upc = .idle) (hdone : s.done = true) (hsticky : s.fsticky = true) :
    s.status = BitVec.ofNat 32 (0x102 + 16 * (errCode s.err).toNat) := by
  have hsum := status_toNat s
  have hbusy : s.busy = false := by simp [State.busy, hidle]
  have hcode := (errCode s.err).isLt
  simp only [hbusy, hdone, hsticky, Bool.toNat_true, Bool.toNat_false] at hsum
  apply BitVec.eq_of_toNat_eq
  rw [BitVec.toNat_ofNat, hsum]
  omega

/-- A step of the core never clears `FSTICKY`: only an acceptance writes it, and none clears it (R246). -/
theorem coreStep_fsticky (h : coreStep s = .next t) (hs : s.fsticky = true) : t.fsticky = true := by
  rcases coreStep_cases h with ⟨-, -, rfl⟩ | ⟨-, f, rfl⟩ | ⟨-, l, rfl, -⟩ | ⟨-, h⟩
  · exact hs
  · exact State.takeFault_fsticky f _
  · exact (State.accept_fsticky l _).trans hs
  · rw [issue_frame h]; exact hs

end fault

/-- Settles O34: the acceptance step, then the two steps of `run_of_clrs`. -/
theorem refusedCommandEndsInThreeSteps : Obligations.RefusedCommandEndsInThreeSteps := by
  rintro s cmd f ⟨hidle, -, hs⟩ hrefused
  have hend := run_of_clrs (s := statedRefused s f) hs rfl
  rw [complete_statedRefused hidle f] at hend
  exact ⟨_, (run_succ hrefused 2).trans hend, rfl, status_of_done_fsticky hidle rfl rfl⟩

/-- Settles O35: of the shapes of a step in `step_cases`, the reset alone clears `FSTICKY`. -/
theorem fstickyStaysUntilReset : Obligations.FstickyStaysUntilReset := by
  intro s t h hs ht
  have hkept (hk : t.fsticky = true) : ∃ rest, s.script = .reset :: rest := by simp [ht] at hk
  rcases step_cases h with ⟨rest, h⟩ | ⟨cmd, rest, -, -, rfl⟩ | ⟨a, b, rest, -, -, -, rfl⟩ | ⟨rest, hreset, -⟩ |
    ⟨rest, rfl⟩
  · exact hkept (coreStep_fsticky h hs)
  · exact hkept hs
  · exact hkept hs
  · exact ⟨rest, hreset⟩
  · exact hkept hs

/-- Settles O44: `writeStream_add` with `n = m + (n - m)`. -/
theorem streamsCanBeSharded : Obligations.StreamsCanBeSharded := by
  intro k c out m n mem hmn
  rw [← writeStream_add, Nat.add_sub_of_le hmn]

end Sys2Proof.Machine

/-! No step of the core stops: the invariant opens the guard of every operation the sequencer issues
(spec/45_sequencer_and_host.md R222, R223; spec/60_exceptions.md R240). -/

namespace Sys2Proof.Machine

/-- A position only `GENPAR` reaches lies between acceptance and `CLRS`. -/
theorem Pos.running_of_wideOnly {p : Pos} (h : p.wideOnly = true) : p.running = true := by
  cases p with
  | idle | clrs | done => cases h
  | _ => rfl

namespace Inv

variable {s : State} (hi : Inv s)

include hi

/-- At the wide positions the wide bank is there (spec/60_exceptions.md R242). -/
theorem bank_of_wideOnly (h : s.upc.wideOnly = true) : ∃ w, s.wide = some w :=
  Option.isSome_iff_exists.mp (hi.capable (Pos.running_of_wideOnly h) (hi.wideOpcode h))

/-- The operation of the position has a next state: its key index names a register, its access was admitted with
the command, its bank is there. -/
theorem exec_operation : ∃ u, exec (s.upc.operation s.rc) s = .next u := by
  have hkey := hi.keyIndex
  have hranges := hi.admitted
  have hbank := hi.bank_of_wideOnly
  cases hp : s.upc <;> rw [hp] at hkey hranges hbank
  case kld =>
    obtain ⟨hin, hadm⟩ := access_keyAddr (hranges rfl) _
    exact ⟨_, exec_ldk_ok (keyNumber?_isKey hkey) hin hadm⟩
  case cld =>
    obtain ⟨hin, hadm⟩ := access_inputAddr (hranges rfl)
    exact ⟨_, exec_ldc_ok hin hadm⟩
  case nrnd => exact ⟨_, exec_rnd_middle s (middleNumber?_isMiddle hkey)⟩
  case nst =>
    obtain ⟨hin, hadm⟩ := access_blockAddr (hranges rfl) (hi.narrowBody (by rw [hp]; rfl))
    exact ⟨_, exec_stb_ok hin hadm⟩
  case idle | nsw | nchk | nark | nfin | ninc | nrsw | nadv | wchk | wadv | hsw | clrs | done => exact ⟨_, rfl⟩
  all_goals obtain ⟨w, hw⟩ := hbank rfl
  case wbk => exact ⟨_, exec_bck_wide hw (keyNumber?_isKey hkey)⟩
  case wbc => exact ⟨_, exec_bcc_wide hw⟩
  case wof => exact ⟨_, exec_aof_wide hw⟩
  case wsw | wrsw => exact ⟨_, exec_bsw4_wide hw⟩
  case wark => exact ⟨_, exec_ark4_wide hw⟩
  case wrnd => exact ⟨_, exec_rnd4_wide hw (middleNumber?_isMiddle hkey)⟩
  case wfin => exact ⟨_, exec_fin4_wide hw⟩
  case wst =>
    obtain ⟨hin, hadm⟩ := access_groupAddr (hranges rfl) (hi.wideBody (by rw [hp]; rfl))
    exact ⟨_, exec_stb4_ok hw hin hadm⟩
  case winc => exact ⟨_, exec_inc4_wide hw⟩
  case hxl => exact ⟨_, exec_xl0_wide hw⟩

/-- An issuing step has a next state. -/
theorem exists_issue : ∃ t, s.issue = .next t := by
  obtain ⟨u, hu⟩ := hi.exec_operation
  rw [issue_of_decode (decode_issues _ _ hi.keyIndex), hu]
  exact ⟨_, rfl⟩

/-- A step of the core has a next state, be it an acceptance or an issuing step. -/
theorem exists_coreStep : ∃ t, coreStep s = .next t := by
  by_cases hoffer : s.upc = .idle → s.port = none
  · rw [coreStep_of_noOffer hoffer]
    exact hi.exists_issue
  · obtain ⟨hidle, hport⟩ := Classical.not_imp.mp hoffer
    obtain ⟨cmd, hcmd⟩ := Option.ne_none_iff_exists'.mp hport
    rw [coreStep_of_offer hidle hcmd]
    rcases takeOffer_cases cmd hidle with ⟨f, h⟩ | ⟨l, h, -⟩
    · exact ⟨_, h⟩
    · exact ⟨_, h⟩

end Inv

/-- Settles O47: the core's step by `Inv.exists_coreStep`, also where an offer waits; the host's other moves answer
their state. -/
theorem coreNeverStops : Obligations.CoreNeverStops := by
  intro s hi hstore hload
  unfold step systemStep
  split
  case h_1 => exact hi.exists_coreStep
  case h_2 rest _ => exact (hi.withHost s.port rest).exists_coreStep
  case h_3 | h_4 =>
    split
    · exact ⟨_, rfl⟩
    · exact hi.exists_coreStep
  case h_5 a b rest hs => exact absurd hs (hstore a b rest)
  case h_6 a rest hs => exact absurd hs (hload a rest)
  case h_7 | h_8 | h_9 => exact ⟨_, rfl⟩

end Sys2Proof.Machine

/-! Noninterference (spec/70_reset_and_hazards.md R281): what a step of the core does to the position, the counters,
the latch, the status and the port is decided by these and the part alone. -/

namespace Sys2Proof.Machine

section control

variable {s s' t u u' : State} {i : Instr}

/-! ## The control of a state -/

/-- The control tells whether the part has the wide unit. -/
theorem control_hasWide (s : State) : s.control.hasWide = s.hasWide :=
  State.clearVectors_hasWide s

/-- What a function reads off the control alone is the same in two states of the same control. -/
theorem eq_of_control {α : Type} (f : State → α) (hf : ∀ s : State, f s.control = f s)
    (hc : s.control = s'.control) : f s = f s' := by
  rw [← hf s, hc, hf]

/-- Of two states of the same control both or neither have the wide bank. -/
theorem hasWide_eq_of_control (hc : s.control = s'.control) : s.hasWide = s'.hasWide :=
  eq_of_control State.hasWide control_hasWide hc

/-- A state that differs in the two banks and memory only has the same control if both have the wide bank or neither
has. -/
theorem control_eq_of_frame (hf : t = { s with narrow := t.narrow, wide := t.wide, mem := t.mem })
    (hw : t.hasWide = s.hasWide) : t.control = s.control := by
  have hbank : (t.wide.map fun _ => WideBank.zero) = s.wide.map fun _ => WideBank.zero := by
    unfold State.hasWide at hw
    revert hw
    cases t.wide <;> cases s.wide <;> simp
  rw [State.control, State.clearVectors, hbank, hf]
  rfl

/-- Bookkeeping looks at the control only. -/
theorem advance_control (s u : State) : (s.advance u).control = s.control.advance u.control := by
  have hblind : s.control.advance u.control = s.advance u.control := rfl
  rw [hblind]
  cases hp : s.upc with
  | kld | nrnd | wbk | wrnd | cld | nchk | nst | wchk =>
    simp only [State.advance, State.countTo, hp]
    split_ifs <;> rfl
  | _ => simp only [State.advance, hp] <;> rfl

/-- Acceptance looks at the control only. -/
theorem acceptInRange_control (l : Latch) (s : State) :
    (s.acceptInRange l).control = s.control.acceptInRange l := by
  have hcheck : s.control.rangesOk l.nbl.toNat l.ksl l.inl l.outl = s.rangesOk l.nbl.toNat l.ksl l.inl l.outl := rfl
  rw [State.acceptInRange, State.acceptInRange, hcheck]
  split <;> rfl

/-- Acceptance in two states of the same control leaves the same control. -/
theorem acceptInRange_control_eq (hc : s.control = s'.control) (l : Latch) :
    (s.acceptInRange l).control = (s'.acceptInRange l).control := by
  rw [acceptInRange_control, hc, acceptInRange_control]

/-! ## The operations -/

namespace Effect

/-- A datapath operation leaves the control as it is. -/
theorem control_eq (h : Effect s i t) : t.control = s.control :=
  control_eq_of_frame h.frame h.hasWide_eq

/-- The guards of a datapath operation look at the control only: what lets it run in one state lets it run in every
state of the same control. -/
theorem exists_of_control (h : Effect s i t) (hc : s.control = s'.control) : ∃ t', Effect s' i t' := by
  have hspace : s.inSpace = s'.inSpace := eq_of_control State.inSpace (fun _ => rfl) hc
  have hadmits : s.admits = s'.admits := eq_of_control State.admits (fun _ => rfl) hc
  have hkey : s.keyAddr = s'.keyAddr := eq_of_control State.keyAddr (fun _ => rfl) hc
  have hinput : s.inputAddr = s'.inputAddr := eq_of_control State.inputAddr (fun _ => rfl) hc
  have hblock : s.blockAddr = s'.blockAddr := eq_of_control State.blockAddr (fun _ => rfl) hc
  have hbank {w : WideBank} (h : s.wide = some w) : ∃ v, s'.wide = some v := by
    have hw : s'.hasWide = true := by rw [← hasWide_eq_of_control hc, State.hasWide, h, Option.isSome_some]
    exact Option.isSome_iff_exists.mp hw
  cases h with
  | nop => exact ⟨_, .nop⟩
  | ldk key space admitted =>
    rw [hspace, hkey] at space
    rw [hadmits, hkey] at admitted
    exact ⟨_, .ldk key space admitted⟩
  | ldc space admitted =>
    rw [hspace, hinput] at space
    rw [hadmits, hinput] at admitted
    exact ⟨_, .ldc space admitted⟩
  | bsw => exact ⟨_, .bsw⟩
  | ark => exact ⟨_, .ark⟩
  | rnd key => exact ⟨_, .rnd key⟩
  | fin => exact ⟨_, .fin⟩
  | stb space admitted =>
    rw [hspace, hblock] at space
    rw [hadmits, hblock] at admitted
    exact ⟨_, .stb space admitted⟩
  | inc => exact ⟨_, .inc⟩
  | bck bank key => exact (hbank bank).elim fun _ h => ⟨_, .bck h key⟩
  | bcc bank => exact (hbank bank).elim fun _ h => ⟨_, .bcc h⟩
  | aof bank => exact (hbank bank).elim fun _ h => ⟨_, .aof h⟩
  | bsw4 bank => exact (hbank bank).elim fun _ h => ⟨_, .bsw4 h⟩
  | ark4 bank => exact (hbank bank).elim fun _ h => ⟨_, .ark4 h⟩
  | rnd4 bank key => exact (hbank bank).elim fun _ h => ⟨_, .rnd4 h key⟩
  | fin4 bank => exact (hbank bank).elim fun _ h => ⟨_, .fin4 h⟩
  | stb4 bank space admitted =>
    rw [hspace, hblock] at space
    rw [hadmits, hblock] at admitted
    exact (hbank bank).elim fun _ h => ⟨_, .stb4 h space admitted⟩
  | inc4 bank => exact (hbank bank).elim fun _ h => ⟨_, .inc4 h⟩
  | xl0 bank => exact (hbank bank).elim fun _ h => ⟨_, .xl0 h⟩
  | clr => exact ⟨_, .clr⟩

end Effect

variable (hc : s.control = s'.control)

include hc

/-- Whether a command waits is decided by the control. -/
theorem whenReady_control (hu : u.control = u'.control) (h : s.whenReady u = .next t) :
    ∃ t', s'.whenReady u' = .next t' ∧ t.control = t'.control := by
  have hupc : s.upc = s'.upc := eq_of_control State.upc (fun _ => rfl) hc
  by_cases hidle : s.upc = .idle
  · rw [whenReady_idle hidle] at h
    cases h
    exact ⟨u', whenReady_idle (hupc ▸ hidle), hu⟩
  · rw [whenReady_busy hidle] at h
    cases h
    exact ⟨s', whenReady_busy (hupc ▸ hidle), hc⟩

/-- In two states of the same control every instruction leaves the same control. -/
theorem exec_control (h : exec i s = .next t) : ∃ t', exec i s' = .next t' ∧ t.control = t'.control := by
  cases hcmd : i.isCommand with
  | false =>
    have heff := effect_of_exec hcmd h
    obtain ⟨t', heff'⟩ := heff.exists_of_control hc
    exact ⟨t', exec_of_effect heff', by rw [heff.control_eq, hc, heff'.control_eq]⟩
  | true =>
    cases i with
    | enc1 | genseq => exact whenReady_control hc (acceptInRange_control_eq hc _) h
    | genpar =>
      refine whenReady_control hc ?_ h
      rw [hasWide_eq_of_control hc]
      split
      · exact acceptInRange_control_eq hc _
      · exact congrArg (State.takeFault .fCap) hc
    | _ => cases hcmd

/-! ## The steps -/

/-- In two states of the same control the issuing step leaves the same control. -/
theorem issue_control (h : s.issue = .next t) : ∃ t', s'.issue = .next t' ∧ t.control = t'.control := by
  have hword : s.upc.issues s.rc = s'.upc.issues s'.rc := eq_of_control (fun c : State => c.upc.issues c.rc) (fun _ => rfl) hc
  obtain ⟨i, u, hd, -, he, rfl⟩ := issue_next h
  obtain ⟨u', he', hu⟩ := exec_control hc he
  rw [hword] at hd
  refine ⟨s'.advance u', by rw [issue_of_decode hd, he', State.thenAdvance], ?_⟩
  rw [advance_control, advance_control, hc, hu]

/-- In two states of the same control the acceptance step leaves the same control. -/
theorem takeOffer_control {cmd : Descriptor} (h : s.takeOffer cmd = .next t) :
    ∃ t', s'.takeOffer cmd = .next t' ∧ t.control = t'.control := by
  have hport : ({ s with port := none } : State).control = ({ s' with port := none } : State).control :=
    congrArg (fun c : State => { c with port := none }) hc
  unfold State.takeOffer at h ⊢
  cases hd : decodeDescriptor cmd with
  | ok i =>
    rw [hd] at h
    exact exec_control hport h
  | error e =>
    rw [hd] at h
    cases h
    exact ⟨_, rfl, congrArg (State.takeFault .fOpc) hport⟩

/-- In two states of the same control the core's step leaves the same control. -/
theorem coreStep_control (h : coreStep s = .next t) : ∃ t', coreStep s' = .next t' ∧ t.control = t'.control := by
  have hupc : s.upc = s'.upc := eq_of_control State.upc (fun _ => rfl) hc
  have hport : s.port = s'.port := eq_of_control State.port (fun _ => rfl) hc
  by_cases hoffer : s.upc = .idle → s.port = none
  · rw [coreStep_of_noOffer hoffer] at h
    rw [hupc, hport] at hoffer
    rw [coreStep_of_noOffer hoffer]
    exact issue_control hc h
  · obtain ⟨hidle, hsome⟩ := Classical.not_imp.mp hoffer
    obtain ⟨cmd, hcmd⟩ := Option.ne_none_iff_exists'.mp hsome
    rw [coreStep_of_offer hidle hcmd] at h
    rw [coreStep_of_offer (hupc ▸ hidle) (hport ▸ hcmd)]
    exact takeOffer_control hc h

end control

/-- Settles O50: with a silent host the step is the core's, which `coreStep_control` compares. -/
theorem controlNeverDependsOnData : Obligations.ControlNeverDependsOnData := by
  intro s s' t hs hc h
  have hscript : s.script = s'.script := eq_of_control State.script (fun _ => rfl) hc
  rw [step_of_silent hs] at h
  rw [step_of_silent (hscript.symm.trans hs)]
  exact coreStep_control hc h

end Sys2Proof.Machine

/-! The bound on a stream's counters (spec/70_reset_and_hazards.md R273). -/

namespace Sys2Proof.Machine

/-- A counter advanced by `i` is the 128-bit sum exactly when the low 32 bits do not overflow: otherwise the sum carries
into the upper 96 bits, which counter addition keeps. -/
theorem add32Lo_eq_add_iff (c : Block) {i : Nat} (hi : i < 2 ^ 32) :
    add32Lo c (BitVec.ofNat 32 i) = c + BitVec.ofNat 128 i ↔ c.toNat % 2 ^ 32 + i < 2 ^ 32 := by
  have hc := c.isLt
  have hlow := add32Lo_mod c (BitVec.ofNat 32 i)
  have hhigh := add32Lo_div c (BitVec.ofNat 32 i)
  rw [BitVec.toNat_ofNat, Nat.mod_eq_of_lt hi] at hlow
  rw [← BitVec.toNat_inj, BitVec.toNat_add, BitVec.toNat_ofNat]
  omega

/-- Settles O60: the last of the `n` counters meets the bound, and then so do those before it. -/
theorem countersAreTrueExactlyWithoutOverflow : Obligations.CountersAreTrueExactlyWithoutOverflow := by
  intro c n hpos hn
  constructor
  · intro h
    have hlast := (add32Lo_eq_add_iff c (by omega)).mp (h (n - 1) (by omega))
    omega
  · intro h i hi
    exact (add32Lo_eq_add_iff c (by omega)).mpr (by omega)

end Sys2Proof.Machine

/-! The `reset` input (spec/70_reset_and_hazards.md R270). -/

namespace Sys2Proof.Machine

/-- The step in which the host asserts `reset`. -/
theorem step_reset {s : State} {rest : List HostMove} (h : s.script = .reset :: rest) :
    step s = .next (State.resetInput { s with script := rest }) := by
  rw [step, systemStep, h]

/-- The `reset` input leaves every vector register zero. -/
theorem resetInput_vectorsZero (s : State) : s.resetInput.vectorsZero := by
  refine ⟨rfl, ?_⟩
  unfold State.resetInput
  rw [resetOf_wide]
  cases s.part.hasWide <;> rfl

/-- Settles O54: the values of the reset state, `CAP` being kept by every step and memory being left as it is. -/
theorem resetInputAbandonsTheCommand : Obligations.ResetInputAbandonsTheCommand := by
  intro s rest hs
  have h := step_reset hs
  exact ⟨_, h, resetInput_vectorsZero _, rfl, rfl, rfl, resetOf_status s.part, (partNeverChanges s _ h).1, fun _ _ => rfl⟩

end Sys2Proof.Machine

/-! The stops of reserved key indices and of the wide unit where it is absent (spec/30_encoding.md R98;
spec/10_state.md R24). -/

namespace Sys2Proof.Machine

open Host (Outcome)

section guards

variable {s : State}

/-- A key index outside 0..14 names no register. -/
theorem keyNumber?_eq_none {r : KeyIndex} (h : KeyIndex.isKey r = false) : keyNumber? r = none :=
  dif_neg (by have := of_decide_eq_false h; omega)

/-- A key index outside 1..13 names no register of a middle round. -/
theorem middleNumber?_eq_none {r : KeyIndex} (h : KeyIndex.isMiddle r = false) : middleNumber? r = none :=
  dif_neg (by simpa [KeyIndex.isMiddle] using h)

/-- An operation whose key index names no register is refused. -/
theorem onKey_none {r : Option (Fin 15)} (k : Fin 15 → Outcome State Fault Refusal) (h : r = none) :
    onKey r k = .refused .reservedControlWord := by
  rw [h, onKey]

/-- An operation of the wide unit on a part without the bank is refused. -/
theorem onWide_none (k : WideBank → Outcome State Fault Refusal) (h : s.wide = none) :
    s.onWide k = .refused .noWideUnit := by
  rw [State.onWide, h]

/-- An operation of the wide unit whose key index names no register is refused on a part with the bank. -/
theorem onWide_onKey_none {r : Option (Fin 15)} (k : WideBank → Fin 15 → Outcome State Fault Refusal)
    (hw : s.wide ≠ none) (h : r = none) : (s.onWide fun w => onKey r (k w)) = .refused .reservedControlWord := by
  obtain ⟨w, hw⟩ := Option.ne_none_iff_exists'.mp hw
  rw [onWide_some _ hw, onKey_none _ h]

/-- On a part without the wide bank each operation of the wide unit stops at the guard on the bank. -/
theorem exec_of_noWideUnit {i : Instr} (hi : wideOperation i) (h : s.wide = none) :
    exec i s = .refused .noWideUnit := by
  cases i with
  | bck | bcc | aof | bsw4 | ark4 | rnd4 | fin4 | stb4 | inc4 | xl0 => exact onWide_none _ h
  | _ => exact hi.elim

/-- Only the four operations with a key index can be ill-formed; they stop at the guard on the index, the two of the
wide unit after the guard on the bank. -/
theorem exec_of_reserved {i : Instr} (hi : i.wf = false) (hw : s.wide ≠ none ∨ ¬ wideOperation i) :
    exec i s = .refused .reservedControlWord := by
  cases i with
  | ldk => exact onKey_none _ (keyNumber?_eq_none hi)
  | rnd => exact onKey_none _ (middleNumber?_eq_none hi)
  | bck => exact onWide_onKey_none _ (hw.resolve_right (not_not_intro trivial)) (keyNumber?_eq_none hi)
  | rnd4 => exact onWide_onKey_none _ (hw.resolve_right (not_not_intro trivial)) (middleNumber?_eq_none hi)
  | _ => cases hi

end guards

/-- Settles O6: the guard on the key index and the guard on the bank. -/
theorem reservedAndAbsentOperationsStop : Obligations.ReservedAndAbsentOperationsStop :=
  fun _ _ => ⟨exec_of_reserved, exec_of_noWideUnit⟩

/-- Settles O45: `inv_resetOf`; `State.reset` is its case with empty memory, no offer and no host move. -/
theorem resetSatisfiesTheInvariant : Obligations.ResetSatisfiesTheInvariant :=
  ⟨inv_resetOf Config.part none [] (by decide) ⟨.nil, nofun⟩,
    fun p _ offer moves hlo hhi hm => inv_resetOf p offer moves ⟨hlo, hhi⟩ hm⟩

end Sys2Proof.Machine
